-- ==== Sys2Proof/Word.lean ====
section
/-! DEFINITION. The two word widths of the TAE and the shape of one command on its port
(00_scope.md R9, R10; 30_encoding.md R80). -/

namespace Sys2Proof

/-- A `u16` of 00_scope.md R10: the command word, timer values, masks. -/
abbrev U16 := BitVec 16

/-- A `u64` of 00_scope.md R10: times, ledgers, sequence numbers, `DATA`, `RESULT`. -/
abbrev U64 := BitVec 64

/-- One command as the port carries it: a 16-bit command word and its 64-bit operand
(30_encoding.md R80). -/
structure Command where
  cw : U16
  data : U64
  deriving DecidableEq, Repr

end Sys2Proof
end

