-- ==== Sys2Proof/Config.lean ====
section
/-! DEFINITION. The implementation parameters of 00_scope.md R7 and the free values the spec leaves open. -/

namespace Sys2Proof

/-- A positive number of cycles: "A model must accept any four positive values" (43_timer_cascade.md R191). -/
structure Cycles where
  val : Nat
  pos : 0 < val
  deriving DecidableEq, Repr

/-- The parameters of one TAE instance (00_scope.md R7; 10_state.md R46: fixed for an instance).
`State` carries them so that every claim holds for every choice of them; no step writes them (log entry 3). -/
structure Params where
  /-- `PRESCALE[0..3]`, cycles per tick (R191). -/
  prescale : Vector Cycles 4
  /-- `IRQ_DELAY`, cycles from raising a source to its delivery; OPEN, zero allowed (60_exceptions.md R288). -/
  irqDelay : Nat
  /-- `TIMER_SRC_BIT[0..3]`, a bit of the 16-bit source mask (00_scope.md R7; log entry 4). -/
  timerSrcBit : Vector (Fin 16) 4
  deriving DecidableEq, Repr

namespace Config

/-- `IRQ_DELAY` of the instance that reset describes. OPEN in the spec (92_eei_decisions.md D25,
91_not_in_source.md N17): no value may be assumed, so it has none here (log entry 3). -/
opaque irqDelay : Nat

/-- FREE VALUE. Which of several pending events that are equal in `(T, S)` counts as the head. It is asked only after
`SEQ_NEXT` has saturated, when "FIFO order among equal-time events inserted after it is not guaranteed"
(10_state.md R29, 93_implementation_defined.md I21). Its first argument is `State.freeCtr`, its second the
kinds that tie (log entry 6). -/
opaque tiePick : Nat → List (Fin 16) → Nat

/-- The default of `PRESCALE` (00_scope.md R7, from general knowledge; log entry 3). -/
def defaultPrescale : Vector Cycles 4 :=
  #v[⟨1, by decide⟩, ⟨64, by decide⟩, ⟨256, by decide⟩, ⟨1024, by decide⟩]

/-- The default of `TIMER_SRC_BIT[n]`, `3 + n` (00_scope.md R7, from general knowledge; log entry 3). -/
def defaultSrcBit : Vector (Fin 16) 4 := #v[3, 4, 5, 6]

/-- The parameters of the instance that reset describes. -/
def params : Params :=
  { prescale := defaultPrescale, irqDelay := irqDelay, timerSrcBit := defaultSrcBit }

end Config

end Sys2Proof
end

