-- ==== Sys2Proof/Syntax.lean ====
section
/-! DEFINITION. The 22 commands of the TAE, one constructor per row of spec/opcode_table.json (30_encoding.md R83). -/

namespace Sys2Proof

/-- A command with its operands taken apart (30_encoding.md R81, R82): an event kind is 4 bits wide, a driver code
3 bits (codes 5 to 7 are encodable and fault in the command, R86), a timer 2 bits, a status selector 4 bits,
a 64-bit operand is `DATA[63:0]` and a 16-bit one `DATA[15:0]`. -/
inductive Instr where
  /-- `SCHEDULE k, delay` (40_event_queue.md R103). -/
  | schedule (k : Fin 16) (delay : U64)
  /-- `CANCEL k` (R104). -/
  | cancel (k : Fin 16)
  /-- `RESCHEDULE k, delay` (R105). -/
  | reschedule (k : Fin 16) (delay : U64)
  /-- `NOW` (R106). -/
  | now
  /-- `ENGAGE d` (42_driver_arbitration.md R171). -/
  | engage (d : Fin 8)
  /-- `DISENGAGE d` (R172). -/
  | disengage (d : Fin 8)
  /-- `CHARGE d, n` (44_bus_accounting.md R240). -/
  | charge (d : Fin 8) (n : U64)
  /-- `RUN_END c` (41_run_loop.md R147). -/
  | runEnd (c : U64)
  /-- `CALLBACK_DONE` (R148). -/
  | callbackDone
  /-- `TMR_WR_RELOAD n, v` (43_timer_cascade.md R200). -/
  | tmrWrReload (n : Fin 4) (v : U16)
  /-- `TMR_WR_CONTROL n, w` (R201). -/
  | tmrWrControl (n : Fin 4) (w : U16)
  /-- `TMR_RD_COUNTER n` (R202). -/
  | tmrRdCounter (n : Fin 4)
  /-- `TMR_RD_CONTROL n` (R203). -/
  | tmrRdControl (n : Fin 4)
  /-- `TMR_RD_RELOAD n` (R204). -/
  | tmrRdReload (n : Fin 4)
  /-- `TMR_RD_NEXT_OVF n` (R205). -/
  | tmrRdNextOvf (n : Fin 4)
  /-- `RAISE_IRQ m` (45_status_irq.md R255). -/
  | raiseIrq (m : U16)
  /-- `RD_STATUS s` (R256). -/
  | rdStatus (sel : Fin 16)
  /-- `RD_LEDGER d` (44_bus_accounting.md R241). -/
  | rdLedger (d : Fin 8)
  /-- `RD_EVENT_TIME k` (40_event_queue.md R107). -/
  | rdEventTime (k : Fin 16)
  /-- `RD_EVENT_SEQ k` (R108). -/
  | rdEventSeq (k : Fin 16)
  /-- `CLR_FAULT` (45_status_irq.md R257). -/
  | clrFault
  /-- `START` (41_run_loop.md R146). -/
  | start
  deriving DecidableEq, Repr

end Sys2Proof
end

