-- ==== Sys2Proof/WellFormed.lean ====
section
/-! DEFINITION. Which instruction terms the command port can carry (30_encoding.md R81, R85, R86). -/

namespace Sys2Proof

/-- The operand ranges are the field types' own, but for the status selector: `SEL` 12 to 15 of format `CS` is an
illegal encoding (30_encoding.md R81, R86), so no well-formed `RD_STATUS` has it. -/
def Instr.wf : Instr → Bool
  | .schedule _ _ => true
  | .cancel _ => true
  | .reschedule _ _ => true
  | .now => true
  | .engage _ => true
  | .disengage _ => true
  | .charge _ _ => true
  | .runEnd _ => true
  | .callbackDone => true
  | .tmrWrReload _ _ => true
  | .tmrWrControl _ _ => true
  | .tmrRdCounter _ => true
  | .tmrRdControl _ => true
  | .tmrRdReload _ => true
  | .tmrRdNextOvf _ => true
  | .raiseIrq _ => true
  | .rdStatus sel => decide (sel.val < 12)
  | .rdLedger _ => true
  | .rdEventTime _ => true
  | .rdEventSeq _ => true
  | .clrFault => true
  | .start => true

end Sys2Proof
end

