-- ==== Sys2Proof/Decode.lean ====
section
/-! DEFINITION. The command encoding: the opcode map, the formats, a total decoder that names why it rejects, and the
encoder written from the same tables (30_encoding.md R80 to R86). -/

namespace Sys2Proof

/-- The formats of 30_encoding.md R81, which say what `SEL` means. -/
inductive Format where
  | c0 | ck | cd | ct | cs
  deriving DecidableEq, Repr

/-- The rows of the opcode map, 30_encoding.md R83. -/
inductive Opcode where
  | schedule
  | cancel
  | reschedule
  | now
  | engage
  | disengage
  | charge
  | runEnd
  | callbackDone
  | tmrWrReload
  | tmrWrControl
  | tmrRdCounter
  | tmrRdControl
  | tmrRdReload
  | tmrRdNextOvf
  | raiseIrq
  | rdStatus
  | rdLedger
  | rdEventTime
  | rdEventSeq
  | clrFault
  | start
  deriving DecidableEq, Repr

/-- Why a command word is illegal; one name per line of 30_encoding.md R85. -/
inductive DecodeError where
  /-- `CW[7:5]` or `CW[15:12]` is not zero. -/
  | reservedBits
  /-- Opcode `0x00` or `0x17` to `0x1F`. -/
  | unassignedOpcode
  /-- Format `C0` with `SEL != 0`. -/
  | selectorNotZero
  /-- Format `CD` with `SEL[3] = 1`. -/
  | driverSelectorHigh
  /-- Format `CT` with `SEL[3:2] != 0`. -/
  | timerSelectorHigh
  /-- Format `CS` with `SEL` 12 to 15. -/
  | statusSelectorHigh
  deriving DecidableEq, Repr

/-- The `OP` column of 30_encoding.md R83. -/
def Opcode.code : Opcode → Nat
  | .schedule => 0x01
  | .cancel => 0x02
  | .reschedule => 0x03
  | .now => 0x04
  | .engage => 0x05
  | .disengage => 0x06
  | .charge => 0x07
  | .runEnd => 0x08
  | .callbackDone => 0x09
  | .tmrWrReload => 0x0A
  | .tmrWrControl => 0x0B
  | .tmrRdCounter => 0x0C
  | .tmrRdControl => 0x0D
  | .tmrRdReload => 0x0E
  | .tmrRdNextOvf => 0x0F
  | .raiseIrq => 0x10
  | .rdStatus => 0x11
  | .rdLedger => 0x12
  | .rdEventTime => 0x13
  | .rdEventSeq => 0x14
  | .clrFault => 0x15
  | .start => 0x16

/-- The format column of 30_encoding.md R83. -/
def Opcode.format : Opcode → Format
  | .schedule => .ck
  | .cancel => .ck
  | .reschedule => .ck
  | .now => .c0
  | .engage => .cd
  | .disengage => .cd
  | .charge => .cd
  | .runEnd => .c0
  | .callbackDone => .c0
  | .tmrWrReload => .ct
  | .tmrWrControl => .ct
  | .tmrRdCounter => .ct
  | .tmrRdControl => .ct
  | .tmrRdReload => .ct
  | .tmrRdNextOvf => .ct
  | .raiseIrq => .c0
  | .rdStatus => .cs
  | .rdLedger => .cd
  | .rdEventTime => .ck
  | .rdEventSeq => .ck
  | .clrFault => .c0
  | .start => .c0

/-- The mnemonic column of 30_encoding.md R83. -/
def Opcode.mnemonic : Opcode → String
  | .schedule => "SCHEDULE"
  | .cancel => "CANCEL"
  | .reschedule => "RESCHEDULE"
  | .now => "NOW"
  | .engage => "ENGAGE"
  | .disengage => "DISENGAGE"
  | .charge => "CHARGE"
  | .runEnd => "RUN_END"
  | .callbackDone => "CALLBACK_DONE"
  | .tmrWrReload => "TMR_WR_RELOAD"
  | .tmrWrControl => "TMR_WR_CONTROL"
  | .tmrRdCounter => "TMR_RD_COUNTER"
  | .tmrRdControl => "TMR_RD_CONTROL"
  | .tmrRdReload => "TMR_RD_RELOAD"
  | .tmrRdNextOvf => "TMR_RD_NEXT_OVF"
  | .raiseIrq => "RAISE_IRQ"
  | .rdStatus => "RD_STATUS"
  | .rdLedger => "RD_LEDGER"
  | .rdEventTime => "RD_EVENT_TIME"
  | .rdEventSeq => "RD_EVENT_SEQ"
  | .clrFault => "CLR_FAULT"
  | .start => "START"

/-- The opcode map read from the `OP` field: `0x00` and everything from `0x17` up is unassigned (30_encoding.md R85). -/
def opcodeOf : Nat → Option Opcode
  | 0x01 => some .schedule
  | 0x02 => some .cancel
  | 0x03 => some .reschedule
  | 0x04 => some .now
  | 0x05 => some .engage
  | 0x06 => some .disengage
  | 0x07 => some .charge
  | 0x08 => some .runEnd
  | 0x09 => some .callbackDone
  | 0x0A => some .tmrWrReload
  | 0x0B => some .tmrWrControl
  | 0x0C => some .tmrRdCounter
  | 0x0D => some .tmrRdControl
  | 0x0E => some .tmrRdReload
  | 0x0F => some .tmrRdNextOvf
  | 0x10 => some .raiseIrq
  | 0x11 => some .rdStatus
  | 0x12 => some .rdLedger
  | 0x13 => some .rdEventTime
  | 0x14 => some .rdEventSeq
  | 0x15 => some .clrFault
  | 0x16 => some .start
  | _ => none

/-- `v[hi:lo]`: the field from bit `hi` down to bit `lo`, shifted down to bit 0 (00_scope.md R9). -/
def bitField (hi lo : Nat) (v : U16) : Nat :=
  v.toNat / 2 ^ lo % 2 ^ (hi + 1 - lo)

/-- `OP = CW[4:0]` (30_encoding.md R80). -/
def opField (cw : U16) : Nat := bitField 4 0 cw

/-- `SEL = CW[11:8]` (30_encoding.md R80). -/
def selField (cw : U16) : Fin 16 := Fin.ofNat 16 (bitField 11 8 cw)

/-- `DATA[15:0]`, the operand of the 16-bit commands (30_encoding.md R82; 20_memory.md R64). -/
def dataLow (data : U64) : U16 := data.setWidth 16

/-- `d = SEL[2:0]` (30_encoding.md R81, format `CD`). -/
def driverField (sel : Fin 16) : Fin 8 := Fin.ofNat 8 sel.val

/-- `n = SEL[1:0]` (30_encoding.md R81, format `CT`). -/
def timerField (sel : Fin 16) : Fin 4 := Fin.ofNat 4 sel.val

/-- The legal-`SEL` column of 30_encoding.md R81 in the order of R85: the reason a selector is illegal, if it is. -/
def selectorError : Format → Fin 16 → Option DecodeError
  | .c0, sel => if sel.val = 0 then none else some .selectorNotZero
  | .ck, _ => none
  | .cd, sel => if sel.val < 8 then none else some .driverSelectorHigh
  | .ct, sel => if sel.val < 4 then none else some .timerSelectorHigh
  | .cs, sel => if sel.val < 12 then none else some .statusSelectorHigh

/-- Operand assembly (30_encoding.md R82): the instruction of an opcode, a legal selector and `DATA`. A `DATA` value
that the command does not use is dropped (20_memory.md R64). -/
def assemble : Opcode → Fin 16 → U64 → Instr
  | .schedule, sel, data => .schedule sel data
  | .cancel, sel, _ => .cancel sel
  | .reschedule, sel, data => .reschedule sel data
  | .now, _, _ => .now
  | .engage, sel, _ => .engage (driverField sel)
  | .disengage, sel, _ => .disengage (driverField sel)
  | .charge, sel, data => .charge (driverField sel) data
  | .runEnd, _, data => .runEnd data
  | .callbackDone, _, _ => .callbackDone
  | .tmrWrReload, sel, data => .tmrWrReload (timerField sel) (dataLow data)
  | .tmrWrControl, sel, data => .tmrWrControl (timerField sel) (dataLow data)
  | .tmrRdCounter, sel, _ => .tmrRdCounter (timerField sel)
  | .tmrRdControl, sel, _ => .tmrRdControl (timerField sel)
  | .tmrRdReload, sel, _ => .tmrRdReload (timerField sel)
  | .tmrRdNextOvf, sel, _ => .tmrRdNextOvf (timerField sel)
  | .raiseIrq, _, data => .raiseIrq (dataLow data)
  | .rdStatus, sel, _ => .rdStatus sel
  | .rdLedger, sel, _ => .rdLedger (driverField sel)
  | .rdEventTime, sel, _ => .rdEventTime sel
  | .rdEventSeq, sel, _ => .rdEventSeq sel
  | .clrFault, _, _ => .clrFault
  | .start, _, _ => .start

/-- `Decode(CW)` of 30_encoding.md R85, total on every word, with the operand of the command taken along. -/
def decode (c : Command) : Except DecodeError Instr :=
  if bitField 7 5 c.cw ≠ 0 ∨ bitField 15 12 c.cw ≠ 0 then .error .reservedBits
  else
    match opcodeOf (opField c.cw) with
    | none => .error .unassignedOpcode
    | some o =>
      match selectorError o.format (selField c.cw) with
      | some e => .error e
      | none => .ok (assemble o (selField c.cw) c.data)

/-! The encoder. -/

/-- The row of 30_encoding.md R83 an instruction belongs to. -/
def Instr.opcode : Instr → Opcode
  | .schedule _ _ => .schedule
  | .cancel _ => .cancel
  | .reschedule _ _ => .reschedule
  | .now => .now
  | .engage _ => .engage
  | .disengage _ => .disengage
  | .charge _ _ => .charge
  | .runEnd _ => .runEnd
  | .callbackDone => .callbackDone
  | .tmrWrReload _ _ => .tmrWrReload
  | .tmrWrControl _ _ => .tmrWrControl
  | .tmrRdCounter _ => .tmrRdCounter
  | .tmrRdControl _ => .tmrRdControl
  | .tmrRdReload _ => .tmrRdReload
  | .tmrRdNextOvf _ => .tmrRdNextOvf
  | .raiseIrq _ => .raiseIrq
  | .rdStatus _ => .rdStatus
  | .rdLedger _ => .rdLedger
  | .rdEventTime _ => .rdEventTime
  | .rdEventSeq _ => .rdEventSeq
  | .clrFault => .clrFault
  | .start => .start

/-- The `SEL` field of an instruction (30_encoding.md R81); 0 in format `C0`. -/
def Instr.selector : Instr → Fin 16
  | .schedule k _ => k
  | .cancel k => k
  | .reschedule k _ => k
  | .now => 0
  | .engage d => d.castLE (by decide)
  | .disengage d => d.castLE (by decide)
  | .charge d _ => d.castLE (by decide)
  | .runEnd _ => 0
  | .callbackDone => 0
  | .tmrWrReload n _ => n.castLE (by decide)
  | .tmrWrControl n _ => n.castLE (by decide)
  | .tmrRdCounter n => n.castLE (by decide)
  | .tmrRdControl n => n.castLE (by decide)
  | .tmrRdReload n => n.castLE (by decide)
  | .tmrRdNextOvf n => n.castLE (by decide)
  | .raiseIrq _ => 0
  | .rdStatus sel => sel
  | .rdLedger d => d.castLE (by decide)
  | .rdEventTime k => k
  | .rdEventSeq k => k
  | .clrFault => 0
  | .start => 0

/-- The `DATA` operand of an instruction (20_memory.md R64): 16-bit operands zero-extended, 0 where none is used. -/
def Instr.operand : Instr → U64
  | .schedule _ x => x
  | .cancel _ => 0
  | .reschedule _ x => x
  | .now => 0
  | .engage _ => 0
  | .disengage _ => 0
  | .charge _ x => x
  | .runEnd x => x
  | .callbackDone => 0
  | .tmrWrReload _ x => x.setWidth 64
  | .tmrWrControl _ x => x.setWidth 64
  | .tmrRdCounter _ => 0
  | .tmrRdControl _ => 0
  | .tmrRdReload _ => 0
  | .tmrRdNextOvf _ => 0
  | .raiseIrq x => x.setWidth 64
  | .rdStatus _ => 0
  | .rdLedger _ => 0
  | .rdEventTime _ => 0
  | .rdEventSeq _ => 0
  | .clrFault => 0
  | .start => 0

/-- The command word with opcode `o` and selector `sel`: `OP` in bits 4:0, `SEL` in bits 11:8, reserved bits 0
(30_encoding.md R80). -/
def commandWord (o : Opcode) (sel : Fin 16) : U16 := BitVec.ofNat 16 (sel.val * 256 + o.code)

/-- The command word `CW` of an instruction. `FAULT_CMD` records it (60_exceptions.md R270; log entry 11). -/
def Instr.word (i : Instr) : U16 := commandWord i.opcode i.selector

/-- The encoder: the command word and operand that carry an instruction (30_encoding.md R80 to R83). -/
def encode (i : Instr) : Command := { cw := i.word, data := i.operand }

/-- The mask of fixed bits of a format (30_encoding.md R81). -/
def Format.mask : Format → U16
  | .c0 => 0xFFFF
  | .ck => 0xF0FF
  | .cd => 0xF8FF
  | .ct => 0xFCFF
  | .cs => 0xF0FF

/-- Row `o` matches the word `cw` (30_encoding.md R84): `(CW & mask(F)) = o`. -/
def Opcode.matchesWord (o : Opcode) (cw : U16) : Bool := cw &&& o.format.mask == BitVec.ofNat 16 o.code

/-- The command that the number `w` of `nbits` bits stands for, in the numbering of spec/opcode_table.json: bits 15:0
are the command word, the bits above are `DATA`, and every bit above `nbits` is 0 (log entry 12). -/
def tableCommand (nbits w : Nat) : Command :=
  { cw := BitVec.ofNat 16 (w % 2 ^ nbits), data := BitVec.ofNat 64 (w % 2 ^ nbits / 2 ^ 16) }

/-- What the decoder reads from an instruction whose bits are `w`. -/
def decodeTableWord (nbits w : Nat) : Option Instr :=
  match decode (tableCommand nbits w) with
  | .ok i => some i
  | .error _ => none

end Sys2Proof
end

