-- ==== Sys2Proof/Machine/State.lean ====
section
/-! DEFINITION. Everything the spec gives the TAE to hold (10_state.md, whole), as plain data, its value at reset, and
the two ways this model of it can stop. -/

namespace Sys2Proof.Machine

/-- `PHASE`, the sequencer state (10_state.md R21). Codes 5 to 7 never occur (log entry 10). -/
inductive Phase where
  | idle | running | callback | halted
  /-- Transient inside `Dispatch`: "no command ever observes it". -/
  | dispatch
  deriving DecidableEq, Repr

/-- The drivers, in ascending priority (10_state.md R31; log entry 10). -/
inductive Driver where
  | cpu | dma0 | dma1 | dma2 | dma3
  deriving DecidableEq, Repr

/-- One slot of the event table (10_state.md R28): pending, absolute fire time, insertion sequence number. -/
structure Slot where
  v : Bool
  t : U64
  s : U64
  deriving DecidableEq, Repr

/-- `TMR[n].CTRL` (10_state.md R36). -/
structure TimerCtrl where
  en : Bool
  cascade : Bool
  ps : BitVec 2
  irqen : Bool
  deriving DecidableEq, Repr

/-- `TMR[n]` (10_state.md R35 to R38). -/
structure Timer where
  reload : U16
  ctrl : TimerCtrl
  value : U16
  tref : U64
  deriving DecidableEq, Repr

/-- The output events of 00_scope.md R16. -/
inductive Output where
  | runGrant (d : Driver) (budget : U64)
  | suspend (d : Driver)
  | fire (k : Fin 16)
  | irqAssert (mask : U16)
  | faulted
  | halt
  deriving DecidableEq, Repr

/-- What an agent can put to the block: a command on the command port (30_encoding.md R80), or the reset input, which
lies outside the command stream (70_reset_and_hazards.md R300). -/
inductive Input where
  | command (c : Command)
  | reset
  deriving DecidableEq, Repr

/-- The state of one TAE instance. Field by field: 10_state.md R20 to R44 and the output trace of 00_scope.md R16;
the last three fields are the model's own (INVENTORY.md, "State"). -/
structure State where
  /-- `G`, the Time Base (R20). -/
  g : U64
  /-- `PHASE` (R21). -/
  phase : Phase
  /-- `RUN_DRV` (R22). -/
  runDrv : Driver
  /-- `RUN_BASE` (R23). -/
  runBase : U64
  /-- `RUN_ELAPSED` (R24). -/
  runElapsed : U64
  /-- `RUN_BUDGET` (R25). -/
  runBudget : U64
  /-- `SUSPEND_REQ` (R26). -/
  suspendReq : Bool
  /-- `CB_KIND` (R27). -/
  cbKind : Fin 16
  /-- `EVT[0..15]` (R28). -/
  evt : Vector Slot 16
  /-- `SEQ_NEXT` (R29). -/
  seqNext : U64
  /-- `ACTIVE` (R30), read through `State.activeMask`, which holds bit 0 at 1. -/
  active : BitVec 5
  /-- `LEDGER[0..4]` (R34). -/
  ledger : Vector U64 5
  /-- `TMR[0..3]` (R35 to R38). -/
  tmr : Vector Timer 4
  /-- `IRQ_PENDING` (R40). -/
  irqPending : U16
  /-- `FAULT_STATUS` (R41). -/
  faultStatus : U16
  /-- `FAULT_CMD` (R42). -/
  faultCmd : U16
  /-- `RESULT` (R44). -/
  result : U64
  /-- The output trace, oldest event first (00_scope.md R16; log entry 5). -/
  trace : List Output
  /-- Inputs placed on the block and not taken yet, next one first (20_memory.md R68; log entry 1). -/
  inbox : List Input
  /-- The instance's parameters, never written by a step (R46; log entry 3). -/
  params : Params
  /-- Index of the next free value (log entry 6). -/
  freeCtr : Nat
  deriving DecidableEq, Repr

/-- An event slot after reset (10_state.md R49). -/
def Slot.reset : Slot := { v := false, t := 0, s := 0 }

/-- A timer after reset (10_state.md R49). -/
def Timer.reset : Timer :=
  { reload := 0, ctrl := { en := false, cascade := false, ps := 0, irqen := false }, value := 0, tref := 0 }

/-- The machine right after reset (10_state.md R49, 70_reset_and_hazards.md R300): everything 0, the queue empty, only
`Cpu` active. The trace and the inbox are empty (log entries 1, 5), the parameters those of `Config.params`. -/
def State.reset : State :=
  { g := 0, phase := .idle, runDrv := .cpu, runBase := 0, runElapsed := 0, runBudget := 0, suspendReq := false,
    cbKind := 0, evt := Vector.replicate 16 Slot.reset, seqNext := 0, active := 0b00001#5,
    ledger := Vector.replicate 5 0, tmr := Vector.replicate 4 Timer.reset, irqPending := 0, faultStatus := 0,
    faultCmd := 0, result := 0, trace := [], inbox := [], params := Config.params, freeCtr := 0 }

/-- The stops of this model. The TAE's own faults (60_exceptions.md R271) are no stops: they are next states. Both
stops below are safe: they hold where the spec says the machine never is. -/
inductive Fault where
  /-- Raised by `command` when a command finds `PHASE = DISPATCH`: "no command ever observes it" (10_state.md R21), and
  the admission table has no column for it (30_encoding.md R88). Safe (log entry 8). -/
  | commandDuringDispatch
  /-- Raised by `dispatchLoop` if a `Dispatch` would pop more than nine internal events; 41_run_loop.md R150 shows that
  none does. Safe (log entry 7). -/
  | dispatchUnbounded
  deriving DecidableEq, Repr

/-- Refusals of the model. -/
inductive Refusal where
  /-- Raised by an arm of `exec` whose instruction has no meaning yet. No arm uses it. Safe. -/
  | notModelled (mnemonic : String)
  deriving DecidableEq, Repr

/-- The answer of one command or step. -/
abbrev Answer := Host.Outcome State Fault Refusal

end Sys2Proof.Machine
end

