-- ==== Sys2Proof/Machine/Operands.lean ====
section
/-! DEFINITION. Operand forms and number conventions: saturation, driver codes, event-kind classes, the timer control
word (00_scope.md R7, R10; 10_state.md R31; 43_timer_cascade.md R190). -/

namespace Sys2Proof.Machine

/-! Numbers. -/

/-- `MAX64` (00_scope.md R10). -/
def max64 : U64 := 0xFFFFFFFFFFFFFFFF

/-- `sat64(x) = min(x, MAX64)`, how a natural is stored into a `u64` (00_scope.md R10). -/
def sat64 (x : Nat) : U64 := BitVec.ofNat 64 (min x (2 ^ 64 - 1))

/-- `max` of two `u64` values. -/
def maxU64 (a b : U64) : U64 := if a < b then b else a

/-- `min` of two `u64` values. -/
def minU64 (a b : U64) : U64 := if b < a then b else a

/-! Drivers. -/

/-- Driver codes (10_state.md R31). -/
def Driver.code : Driver → Fin 5
  | .cpu => 0
  | .dma0 => 1
  | .dma1 => 2
  | .dma2 => 3
  | .dma3 => 4

/-- The driver a 3-bit code names; codes 5 to 7 name none (10_state.md R31, 30_encoding.md R86). -/
def driverOf (d : Fin 8) : Option Driver :=
  match d with
  | 0 => some .cpu
  | 1 => some .dma0
  | 2 => some .dma1
  | 3 => some .dma2
  | 4 => some .dma3
  | _ => none

/-! Event kinds. -/

/-- Kinds 0 to 4 are internal; clients may name only 5 to 15 in queue commands (00_scope.md R7, 20_memory.md R61). -/
def isInternalKind (k : Fin 16) : Bool := decide (k.val ≤ 4)

/-- The kind `TIMER<n>_OVF` (00_scope.md R7). -/
def timerKind (n : Fin 4) : Fin 16 := n.castLE (by decide)

/-- The kind `IRQ_DELIVER` (00_scope.md R7). -/
def irqKind : Fin 16 := 4

/-- The timer whose overflow a kind is, for kinds 0 to 3. -/
def timerOfKind (k : Fin 16) : Option (Fin 4) := if h : k.val < 4 then some ⟨k.val, h⟩ else none

/-! The timer control word. -/

/-- What `TMR_WR_CONTROL` stores of a control word: bits 1:0, 2, 6 and 7, the others ignored (43_timer_cascade.md R190). -/
def ctrlOfWord (w : U16) : TimerCtrl :=
  { ps := w.setWidth 2, cascade := w.getLsbD 2, irqen := w.getLsbD 6, en := w.getLsbD 7 }

/-- The control word `TMR_RD_CONTROL` answers: `(EN << 7) | (IRQEN << 6) | (CASCADE << 2) | PS` (R190, R203). -/
def ctrlToWord (c : TimerCtrl) : U64 :=
  BitVec.ofNat 64 (c.en.toNat * 128 + c.irqen.toNat * 64 + c.cascade.toNat * 4 + c.ps.toNat)

/-- `PRESCALE[ps]`, cycles per tick of a timer clocked by its prescaler (R191). -/
def prescaleOf (p : Params) (ps : BitVec 2) : Nat := p.prescale[ps.toFin].val

end Sys2Proof.Machine
end

