-- ==== Sys2Proof/Machine/Flags.lean ====
section
/-! DEFINITION. The one-bit state of the TAE and the words made of it: fault bits, the `PHASEWORD`, the `EVENT_VALID`
mask, the phase admission table (10_state.md R43, R48; 30_encoding.md R88; 60_exceptions.md R271). There are no
condition codes (10_state.md R48). -/

namespace Sys2Proof.Machine

/-- The fault codes of 60_exceptions.md R271. -/
inductive FaultCode where
  | illegalCommand | badPhase | badDriver | reservedKind | cpuDisengage | chargeNotRunning | runUnderreport | emptyQueue
  deriving DecidableEq, Repr

/-- The bit of `FAULT_STATUS` a fault sets (60_exceptions.md R271). -/
def FaultCode.bit : FaultCode → Nat
  | .illegalCommand => 0
  | .badPhase => 1
  | .badDriver => 2
  | .reservedKind => 3
  | .cpuDisengage => 4
  | .chargeNotRunning => 5
  | .runUnderreport => 6
  | .emptyQueue => 7

/-- `FAULT_STATUS` with the bit of `c` set (60_exceptions.md R270). -/
def withFaultBit (c : FaultCode) (status : U16) : U16 := status ||| (1#16 <<< c.bit)

/-- The codes of `PHASE` (10_state.md R21). -/
def Phase.code : Phase → Nat
  | .idle => 0
  | .running => 1
  | .callback => 2
  | .halted => 3
  | .dispatch => 4

/-- `PHASEWORD` (10_state.md R43, selector 2). -/
def phaseWord (s : State) : U64 :=
  BitVec.ofNat 64
    (s.phase.code + (if s.phase = .running then s.runDrv.code.val else 0) * 2 ^ 4
      + (if s.phase = .callback then s.cbKind.val else 0) * 2 ^ 8 + s.suspendReq.toNat * 2 ^ 12)

/-- `EVENT_VALID` (10_state.md R43, selector 5): bit `k` is `EVT[k].V`. -/
def eventValidWord (s : State) : U64 :=
  BitVec.ofNat 64 (((List.finRange 16).map fun k => s.evt[k].v.toNat * 2 ^ k.val).sum)

/-- `Admitted(OP, PHASE)`, the table of 30_encoding.md R88. It has no column for `DISPATCH`, whose commands `command`
stops before it asks (log entry 8). -/
def admitted : Opcode → Phase → Bool
  | _, .dispatch => false
  | .schedule, p => p != .halted
  | .cancel, p => p != .halted
  | .reschedule, p => p != .halted
  | .now, _ => true
  | .engage, p => p != .halted
  | .disengage, p => p != .halted
  | .charge, p => p != .halted
  | .runEnd, p => p == .running
  | .callbackDone, p => p == .callback
  | .tmrWrReload, p => p != .halted
  | .tmrWrControl, p => p != .halted
  | .tmrRdCounter, _ => true
  | .tmrRdControl, _ => true
  | .tmrRdReload, _ => true
  | .tmrRdNextOvf, _ => true
  | .raiseIrq, p => p != .halted
  | .rdStatus, _ => true
  | .rdLedger, _ => true
  | .rdEventTime, _ => true
  | .rdEventSeq, _ => true
  | .clrFault, _ => true
  | .start, p => p == .idle

end Sys2Proof.Machine
end

