-- ==== Sys2Proof/Machine/Ops.lean ====
section
/-! DEFINITION. The named operations every command is built from: outputs, the event queue, arbitration, raising a
fault (the TAE's form of taking an exception), the interrupt path, and the run-loop primitives. -/

namespace Sys2Proof.Machine

/-! Storage. -/

/-- `EVT[k]`. -/
def State.slot (s : State) (k : Fin 16) : Slot := s.evt[k]

/-- `EVT[k] <- e`. -/
def State.setSlot (s : State) (k : Fin 16) (e : Slot) : State := { s with evt := s.evt.set k e }

/-- `LEDGER[d]`. -/
def State.ledgerOf (s : State) (d : Driver) : U64 := s.ledger[d.code]

/-- `LEDGER[d] <- v`. -/
def State.setLedger (s : State) (d : Driver) (v : U64) : State := { s with ledger := s.ledger.set d.code v }

/-- `emit e`: append an output event (00_scope.md R12, R16). -/
def emit (e : Output) (s : State) : State := { s with trace := s.trace ++ [e] }

/-! Arbitration (10_state.md R30 to R32; 42_driver_arbitration.md R170). -/

/-- `ACTIVE` as it reads: bit 0, `Cpu`, is hard-wired to 1 (10_state.md R30; log entry 15). -/
def State.activeMask (s : State) : BitVec 5 := s.active ||| 0b00001#5

/-- `ACTIVE[d]`. -/
def State.isActive (s : State) (d : Driver) : Bool := s.activeMask.getLsbD d.code.val

/-- `ACTIVE[d] <- 1`. -/
def State.setActive (s : State) (d : Driver) : State := { s with active := s.active ||| (1#5 <<< d.code.val) }

/-- `ACTIVE[d] <- 0`. -/
def State.clearActive (s : State) (d : Driver) : State := { s with active := s.active &&& ~~~(1#5 <<< d.code.val) }

/-- `Front()`, the active driver of the highest code (10_state.md R32). -/
def front (s : State) : Driver :=
  if s.isActive .dma3 then .dma3
  else if s.isActive .dma2 then .dma2
  else if s.isActive .dma1 then .dma1
  else if s.isActive .dma0 then .dma0
  else .cpu

/-- `Suspend(d)` (42_driver_arbitration.md R170): the strobe always, `SUSPEND_REQ` only for the running driver. -/
def suspend (d : Driver) (s : State) : State :=
  { s with trace := s.trace ++ [.suspend d]
           suspendReq := s.suspendReq || (decide (s.phase = .running) && decide (d = s.runDrv)) }

/-- `if b: Suspend(Front())`. -/
def suspendFrontIf (b : Bool) (s : State) : State := if b then suspend (front s) s else s

/-! The event queue (10_state.md R33; 40_event_queue.md R100 to R102). -/

/-- The queue order: ascending by `T`, ties by `S` (10_state.md R33). -/
def Slot.before (a b : Slot) : Bool := decide (a.t < b.t) || (decide (a.t = b.t) && decide (a.s < b.s))

/-- The pending kinds, in code order. -/
def pendingKinds (s : State) : List (Fin 16) := (List.finRange 16).filter fun k => (s.slot k).v

/-- The pending kinds that no pending kind precedes: one kind, or several only when `SEQ_NEXT` has saturated
(10_state.md R29, R33). -/
def headKinds (s : State) : List (Fin 16) :=
  (pendingKinds s).filter fun k => (pendingKinds s).all fun j => !(s.slot j).before (s.slot k)

/-- `HeadKind()`, none for an empty queue (10_state.md R33). Among kinds equal in `(T, S)` the spec guarantees no order
(R29, I21): the free value `Config.tiePick` chooses (log entry 6). -/
def headKind (s : State) : Option (Fin 16) :=
  match headKinds s with
  | [] => none
  | [k] => some k
  | k :: l => some ((k :: l).getD (Config.tiePick s.freeCtr (k :: l) % (k :: l).length) k)

/-- `HeadTime()`, with none for `INF` (10_state.md R33). -/
def headTime (s : State) : Option U64 := (headKind s).map fun k => (s.slot k).t

/-- `min(x, HeadTime())`, where the head time of an empty queue is larger than every `u64` (00_scope.md R10). -/
def capAtHead (s : State) (x : U64) : U64 :=
  match headTime s with
  | none => x
  | some t => minU64 x t

/-- `Remove(k)` (40_event_queue.md R100). `T` and `S` stay (log entry 16). -/
def remove (k : Fin 16) (s : State) : State :=
  if (s.slot k).v then
    suspendFrontIf (decide (headKind s = some k)) (s.setSlot k { s.slot k with v := false })
  else s

/-- `EVT[k] <- (1, t, SEQ_NEXT)` and `SEQ_NEXT <- sat64(SEQ_NEXT + 1)`, the common part of R101 and R102. -/
def enqueue (k : Fin 16) (t : U64) (s : State) : State :=
  { s.setSlot k { v := true, t := t, s := s.seqNext } with seqNext := sat64 (s.seqNext.toNat + 1) }

/-- `Insert(k, t)`, for an absent kind (40_event_queue.md R101). -/
def insert (k : Fin 16) (t : U64) (s : State) : State :=
  suspendFrontIf (decide (headKind (enqueue k t s) = some k)) (enqueue k t s)

/-- `ScheduleAt(k, t)`: replace or create, with at most one suspension (40_event_queue.md R102). -/
def scheduleAt (k : Fin 16) (t : U64) (s : State) : State :=
  suspendFrontIf
    (((s.slot k).v && decide (headKind s = some k)) || decide (headKind (enqueue k t s) = some k))
    (enqueue k t s)

/-! Faults (60_exceptions.md R270 to R275). -/

/-- `Halt()` (60_exceptions.md R272). -/
def halt (s : State) : State := emit .halt { s with phase := .halted }

/-- `raise Fault(c)` for the command word `cw` (60_exceptions.md R270): `FAULT_CMD` and `FAULTED` for the first fault
only, the sticky bit always, `EMPTY_QUEUE` halts. The caller ends the command, or goes on where its rule records and
continues. -/
def raiseFault (c : FaultCode) (cw : U16) (s : State) : State :=
  let s1 := if s.faultStatus = 0 then emit .faulted { s with faultCmd := cw } else s
  let s2 := { s1 with faultStatus := withFaultBit c s1.faultStatus }
  if c = .emptyQueue then halt s2 else s2

/-- What re-arms the fault register; there is no return from a fault, because there was no entry
(60_exceptions.md R275, 45_status_irq.md R257). -/
def clearFaults (s : State) : State := { s with faultStatus := 0, faultCmd := 0 }

/-- Executing an illegal word (30_encoding.md R86, R87): `RESULT = 0`, the fault, nothing else. -/
def illegalCommand (cw : U16) (s : State) : State := raiseFault .illegalCommand cw { s with result := 0 }

/-! The interrupt path (60_exceptions.md R276 to R278). -/

/-- `RaiseSource(m)` (60_exceptions.md R277). -/
def raiseSource (m : U16) (s : State) : State :=
  if m = 0 then s
  else
    let s1 := { s with irqPending := s.irqPending ||| m }
    if (s1.slot irqKind).v then s1 else insert irqKind (sat64 (s1.g.toNat + s1.params.irqDelay)) s1

/-- `IrqDeliver()` (60_exceptions.md R278). -/
def irqDeliver (s : State) : State := { emit (.irqAssert s.irqPending) s with irqPending := 0 }

/-! Run-loop primitives (41_run_loop.md R140 to R145). -/

/-- `G <- max(G, min(sat64(RUN_BASE + consumed), HeadTime()))`, the commit of R140 and R147. -/
def commitTime (consumed : U64) (s : State) : State :=
  { s with g := maxU64 s.g (capAtHead s (sat64 (s.runBase.toNat + consumed.toNat))) }

/-- `Flush()` (41_run_loop.md R140). -/
def flush (s : State) : State := if s.phase = .running then commitTime s.runElapsed s else s

/-- `Grant(d, b)` (41_run_loop.md R142). -/
def grant (d : Driver) (b : U64) (s : State) : State :=
  emit (.runGrant d b)
    { s with phase := .running, runDrv := d, runBase := s.g, runElapsed := 0, runBudget := b, suspendReq := false }

/-- `Pop(k)` (41_run_loop.md R143). The index of the free value moves on, so that an open order among later events is
chosen anew (log entry 6). -/
def pop (k : Fin 16) (s : State) : State :=
  { s.setSlot k { s.slot k with v := false } with g := (s.slot k).t, freeCtr := s.freeCtr + 1 }

/-- An external event fires: `PHASE <- CALLBACK`, `CB_KIND <- k`, `emit FIRE(k)` (41_run_loop.md R141, R145). -/
def fireExternal (k : Fin 16) (s : State) : State :=
  emit (.fire k) { s with phase := .callback, cbKind := k }

/-! The common sequence of a command. -/

/-- `Execute(CW, DATA)` for a decoded instruction (30_encoding.md R87): `RESULT <- 0`, the phase check of R88, the flush
in `RUNNING`, then the command's own rule `body`. -/
def command (i : Instr) (body : State → Answer) (s : State) : Answer :=
  let s0 := { s with result := 0 }
  if s.phase = .dispatch then .fault .commandDuringDispatch
  else if admitted i.opcode s.phase then body (flush s0)
  else .next (raiseFault .badPhase i.word s0)

/-- `command` for a rule that always answers a next state. -/
def plainCommand (i : Instr) (body : State → State) (s : State) : Answer :=
  command i (fun s0 => .next (body s0)) s

end Sys2Proof.Machine
end

