-- ==== Sys2Proof/Machine/DriverCommands.lean ====
section
/-! DEFINITION. Driver arbitration (42_driver_arbitration.md R171, R172) and bus cycle accounting
(44_bus_accounting.md R240, R241). -/

namespace Sys2Proof.Machine

/-- The check shared by every driver command: codes 5 to 7 fault `BAD_DRIVER` (60_exceptions.md R271). -/
def onDriver (i : Instr) (d : Fin 8) (body : Driver → State → State) (s : State) : State :=
  match driverOf d with
  | none => raiseFault .badDriver i.word s
  | some drv => body drv s

/-- The rule of `ENGAGE` for a driver (R171). -/
def engageDriver (drv : Driver) (s : State) : State :=
  if s.isActive drv then s
  else
    let s1 := s.setActive drv
    if front s1 ≠ front s then suspend (front s) s1 else s1

/-- The rule of `DISENGAGE` for a driver other than `Cpu` (R172). -/
def disengageDriver (drv : Driver) (s : State) : State :=
  if s.isActive drv then
    let s1 := s.clearActive drv
    if front s = drv then suspend drv s1 else s1
  else s

/-- `ENGAGE d` (R171). -/
def execEngage (d : Fin 8) (s : State) : Answer :=
  plainCommand (.engage d) (onDriver (.engage d) d engageDriver) s

/-- `DISENGAGE d` (R172); removing `Cpu` faults `CPU_DISENGAGE`. -/
def execDisengage (d : Fin 8) (s : State) : Answer :=
  plainCommand (.disengage d)
    (onDriver (.disengage d) d fun drv s0 =>
      if drv = .cpu then raiseFault .cpuDisengage (Instr.disengage d).word s0 else disengageDriver drv s0) s

/-- `CHARGE d, n` (R240): only the running driver, only in `RUNNING`. -/
def execCharge (d : Fin 8) (n : U64) (s : State) : Answer :=
  plainCommand (.charge d n)
    (onDriver (.charge d n) d fun drv s0 =>
      if s0.phase = .running ∧ drv = s0.runDrv then
        { s0.setLedger drv (sat64 ((s0.ledgerOf drv).toNat + n.toNat)) with
          runElapsed := sat64 (s0.runElapsed.toNat + n.toNat) }
      else raiseFault .chargeNotRunning (Instr.charge d n).word s0) s

/-- `RD_LEDGER d` (R241). -/
def execRdLedger (d : Fin 8) (s : State) : Answer :=
  plainCommand (.rdLedger d)
    (onDriver (.rdLedger d) d fun drv s0 => { s0 with result := s0.ledgerOf drv }) s

end Sys2Proof.Machine
end

