-- ==== Sys2Proof/Machine/EventCommands.lean ====
section
/-! DEFINITION. The event-queue commands (40_event_queue.md R103 to R108). -/

namespace Sys2Proof.Machine

/-- The check of R103 to R105: a client naming an internal kind faults `RESERVED_KIND`. -/
def onExternalKind (i : Instr) (k : Fin 16) (body : State → State) (s : State) : State :=
  if isInternalKind k then raiseFault .reservedKind i.word s else body s

/-- `sat64(G + delay)` (R103, R105). -/
def fireTime (delay : U64) (s : State) : U64 := sat64 (s.g.toNat + delay.toNat)

/-- `SCHEDULE k, delay` (R103). -/
def execSchedule (k : Fin 16) (delay : U64) (s : State) : Answer :=
  plainCommand (.schedule k delay)
    (onExternalKind (.schedule k delay) k fun s0 => scheduleAt k (fireTime delay s0) s0) s

/-- `CANCEL k` (R104). -/
def execCancel (k : Fin 16) (s : State) : Answer :=
  plainCommand (.cancel k) (onExternalKind (.cancel k) k fun s0 => remove k s0) s

/-- `RESCHEDULE k, delay` (R105): an absent kind is a no-op. -/
def execReschedule (k : Fin 16) (delay : U64) (s : State) : Answer :=
  plainCommand (.reschedule k delay)
    (onExternalKind (.reschedule k delay) k fun s0 =>
      if (s0.slot k).v then scheduleAt k (fireTime delay s0) s0 else s0) s

/-- `NOW` (R106). -/
def execNow (s : State) : Answer := plainCommand .now (fun s0 => { s0 with result := s0.g }) s

/-- `RD_EVENT_TIME k` (R107). -/
def execRdEventTime (k : Fin 16) (s : State) : Answer :=
  plainCommand (.rdEventTime k)
    (fun s0 => { s0 with result := if (s0.slot k).v then (s0.slot k).t else max64 }) s

/-- `RD_EVENT_SEQ k` (R108). -/
def execRdEventSeq (k : Fin 16) (s : State) : Answer :=
  plainCommand (.rdEventSeq k)
    (fun s0 => { s0 with result := if (s0.slot k).v then (s0.slot k).s else max64 }) s

end Sys2Proof.Machine
end

