-- ==== Sys2Proof/Machine/Timers.lean ====
section
/-! DEFINITION. The timer cascade with its lazy counters (10_state.md R39; 43_timer_cascade.md R192 to R199, R206).
The derived functions are functions of the four timers and the parameters alone (R212). -/

namespace Sys2Proof.Machine

/-- The four timers `TMR[0..3]`. -/
abbrev TimerBank := Vector Timer 4

/-- `TMR[n]`. -/
def State.timer (s : State) (n : Fin 4) : Timer := s.tmr[n]

/-- `TMR[n] <- x`. -/
def State.setTimer (s : State) (n : Fin 4) (x : Timer) : State := { s with tmr := s.tmr.set n x }

/-! Derived functions (10_state.md R39). -/

/-- `PS(n)`, cycles per tick of timer `n` when its prescaler clocks it. -/
def psOf (p : Params) (ts : TimerBank) (n : Fin 4) : Nat := prescaleOf p ts[n].ctrl.ps

/-- `IsRoot(n)`: Timer0, or a timer whose cascade bit is clear. -/
def isRoot (ts : TimerBank) (n : Fin 4) : Bool := decide (n = 0) || !ts[n].ctrl.cascade

/-- `Counting(n)`, by recursion down the chain. -/
def countingFrom (ts : TimerBank) : (n : Nat) → n < 4 → Bool
  | 0, _ => ts[0].ctrl.en
  | n + 1, h => ts[n + 1].ctrl.en && (!ts[n + 1].ctrl.cascade || countingFrom ts n (by omega))

/-- `Counting(n)`. -/
def counting (ts : TimerBank) (n : Fin 4) : Bool := countingFrom ts n.val n.isLt

/-- `Root(n)`, by recursion down the chain. -/
def rootFrom (ts : TimerBank) : (n : Nat) → n < 4 → Fin 4
  | 0, _ => 0
  | n + 1, h => if ts[n + 1].ctrl.cascade then rootFrom ts n (by omega) else ⟨n + 1, h⟩

/-- `Root(n)`, the prescaler-clocked timer at the head of timer `n`'s chain. -/
def rootOf (ts : TimerBank) (n : Fin 4) : Fin 4 := rootFrom ts n.val n.isLt

/-- `CME(n) = 2^16 - RELOAD`, 1 to 65536. -/
def cme (ts : TimerBank) (n : Fin 4) : Nat := 2 ^ 16 - ts[n].reload.toNat

/-- `0x10000 - VALUE`, the ticks to timer `n`'s next overflow (43_timer_cascade.md R192, R194). -/
def ticksLeft (ts : TimerBank) (n : Fin 4) : Nat := 2 ^ 16 - ts[n].value.toNat

/-- `Period(n)` in cycles, by recursion down the chain; a natural that may exceed `MAX64`. -/
def periodFrom (p : Params) (ts : TimerBank) : (n : Nat) → n < 4 → Nat
  | 0, _ => cme ts 0 * psOf p ts 0
  | n + 1, h =>
    if ts[n + 1].ctrl.cascade then cme ts ⟨n + 1, h⟩ * periodFrom p ts n (by omega)
    else cme ts ⟨n + 1, h⟩ * psOf p ts ⟨n + 1, h⟩

/-- `Period(n)`. -/
def period (p : Params) (ts : TimerBank) (n : Fin 4) : Nat := periodFrom p ts n.val n.isLt

/-! The lazy fold (43_timer_cascade.md R192, R193). -/

/-- `Advance(v, R, k)`: `k` ticks of one counter; the new value and the number of overflows (R192). -/
def advance (v r : U16) (k : Nat) : U16 × Nat :=
  let r0 := 2 ^ 16 - v.toNat
  if k < r0 then (BitVec.ofNat 16 (v.toNat + k), 0)
  else
    let c := 2 ^ 16 - r.toNat
    (BitVec.ofNat 16 (r.toNat + (k - r0) % c), 1 + (k - r0) / c)

/-- The inner loop of R193: advance timer `n` by `k` ticks and carry its overflows into the timers that cascade from it.
The first argument bounds the steps up the chain; 3 suffices for four timers. -/
def foldChain : Nat → (n : Fin 4) → Nat → TimerBank → TimerBank
  | fuel, n, k, ts =>
    let a := advance ts[n].value ts[n].reload k
    let ts1 := ts.set n { ts[n] with value := a.1 }
    match fuel with
    | 0 => ts1
    | fuel' + 1 =>
      if h : n.val + 1 < 4 then
        if a.2 = 0 ∨ ts1[n.val + 1].ctrl.cascade = false ∨ ts1[n.val + 1].ctrl.en = false then ts1
        else foldChain fuel' ⟨n.val + 1, h⟩ a.2 ts1
      else ts1

/-- The whole prescaler ticks of root `r` between `TREF` and time `t` (R193; log entry 9). -/
def rootTicks (p : Params) (t : U64) (ts : TimerBank) (r : Fin 4) : Nat :=
  (t.toNat - ts[r].tref.toNat) / psOf p ts r

/-- One round of the outer loop of R193, for the timer `r`. -/
def syncRoot (p : Params) (t : U64) (ts : TimerBank) (r : Fin 4) : TimerBank :=
  if isRoot ts r && ts[r].ctrl.en then
    foldChain 3 r (rootTicks p t ts r)
      (ts.set r { ts[r] with tref := sat64 (ts[r].tref.toNat + rootTicks p t ts r * psOf p ts r) })
  else ts

/-- `TimerSyncAll(t)` on the timers (R193; log entry 14). -/
def syncBank (p : Params) (t : U64) (ts : TimerBank) : TimerBank :=
  [(0 : Fin 4), 1, 2, 3].foldl (syncRoot p t) ts

/-- `TimerSyncAll(t)` (R193). -/
def timerSyncAll (t : U64) (s : State) : State := { s with tmr := syncBank s.params t s.tmr }

/-! Overflow times (43_timer_cascade.md R194, R196, R197). -/

/-- The loop of R194: `need` ticks of timer `n` in cycles after the root's `TREF`, added to that `TREF`, as a natural. -/
def overflowFrom (p : Params) (ts : TimerBank) : (n : Nat) → n < 4 → Nat → Nat
  | 0, _, need => ts[0].tref.toNat + need * psOf p ts 0
  | n + 1, h, need =>
    if ts[n + 1].ctrl.cascade then
      overflowFrom p ts n (by omega)
        (ticksLeft ts ⟨n, by omega⟩ + (need - 1) * cme ts ⟨n, by omega⟩)
    else ts[n + 1].tref.toNat + need * psOf p ts ⟨n + 1, h⟩

/-- `NextOverflowTime(n)` (R194), for a counting timer; saturated. -/
def nextOverflowTime (p : Params) (ts : TimerBank) (n : Fin 4) : U64 :=
  sat64 (overflowFrom p ts n.val n.isLt (ticksLeft ts n))

/-- `Affected(n)` (R196), in increasing order. -/
def affected (ts : TimerBank) (n : Fin 4) : List (Fin 4) :=
  (List.finRange 4).filter fun m =>
    decide (n.val ≤ m.val) &&
      (List.finRange 4).all fun j => !(decide (n.val < j.val) && decide (j.val ≤ m.val)) || ts[j].ctrl.cascade

/-- The condition of R197 and R206 for timer `n` to have an event: counting, interrupt enabled, before the `MAX64`
horizon (R211). -/
def wantsEvent (p : Params) (ts : TimerBank) (n : Fin 4) : Bool :=
  counting ts n && ts[n].ctrl.irqen && decide (nextOverflowTime p ts n < max64)

/-- One round of R197, for timer `n`. -/
def rescheduleTimer (s : State) (n : Fin 4) : State :=
  if wantsEvent s.params s.tmr n then scheduleAt (timerKind n) (nextOverflowTime s.params s.tmr n) s
  else remove (timerKind n) s

/-- `TimerReschedule(S)` (R197), for the timers of `l` in order. -/
def timerReschedule (l : List (Fin 4)) (s : State) : State := l.foldl rescheduleTimer s

/-! The overflow callback (43_timer_cascade.md R206). -/

/-- `1 << TIMER_SRC_BIT[n]` (R206). -/
def timerSource (p : Params) (n : Fin 4) : U16 := 1#16 <<< p.timerSrcBit[n].val

/-- `TimerOverflowEvent(n)` (R206). -/
def timerOverflowEvent (n : Fin 4) (s : State) : State :=
  let s1 := raiseSource (timerSource s.params n) (timerSyncAll s.g s)
  if wantsEvent s1.params s1.tmr n then insert (timerKind n) (nextOverflowTime s1.params s1.tmr n) s1 else s1

end Sys2Proof.Machine
end

