-- ==== Sys2Proof/Machine/RunLoop.lean ====
section
/-! DEFINITION. The Run Loop sequencer `Dispatch` (41_run_loop.md R141, R149, R150). -/

namespace Sys2Proof.Machine

/-- An internal callback at the time of the event just popped (41_run_loop.md R144); none for an external kind. -/
def internalCallback (k : Fin 16) (s : State) : Option State :=
  match timerOfKind k with
  | some n => some (timerOverflowEvent n s)
  | none => if k = irqKind then some (irqDeliver s) else none

/-- The loop of `Dispatch` for the command word `cw` (41_run_loop.md R141). The first argument bounds the rounds: R150
shows that at most nine internal events are popped, so ten rounds are never all used up (log entry 7). -/
def dispatchLoop (cw : U16) : Nat → State → Answer
  | 0, _ => .fault .dispatchUnbounded
  | fuel + 1, s =>
    match headKind s with
    | none => .next (raiseFault .emptyQueue cw s)
    | some k =>
      if s.g < (s.slot k).t then .next (grant (front s) ((s.slot k).t - s.g) s)
      else
        match internalCallback k (pop k s) with
        | some s1 => dispatchLoop cw fuel s1
        | none => .next (fireExternal k (pop k s))

/-- `Dispatch()` (41_run_loop.md R141). -/
def dispatch (cw : U16) (s : State) : Answer := dispatchLoop cw 10 { s with phase := .dispatch }

end Sys2Proof.Machine
end

