-- ==== Sys2Proof/Machine/RunCommands.lean ====
section
/-! DEFINITION. The Run Loop commands (41_run_loop.md R146 to R148). -/

namespace Sys2Proof.Machine

/-- `START` (R146). -/
def execStart (s : State) : Answer := command .start (dispatch Instr.start.word) s

/-- The first statement of `RUN_END` (R147): the uncharged remainder goes to the running driver's ledger, or an
under-report is recorded and the charged count stands. -/
def settleRun (cw : U16) (c : U64) (s : State) : State :=
  if c < s.runElapsed then raiseFault .runUnderreport cw s
  else
    { s.setLedger s.runDrv (sat64 ((s.ledgerOf s.runDrv).toNat + (c.toNat - s.runElapsed.toNat))) with
      runElapsed := c }

/-- `RUN_END c` (R147): settle, commit `G`, clear `SUSPEND_REQ`, dispatch. After `settleRun`, `RUN_ELAPSED` is the
consumed count of the rule. -/
def execRunEnd (c : U64) (s : State) : Answer :=
  command (.runEnd c) (fun s0 =>
    let s1 := settleRun (Instr.runEnd c).word c s0
    dispatch (Instr.runEnd c).word { commitTime s1.runElapsed s1 with suspendReq := false }) s

/-- `CALLBACK_DONE` (R148). -/
def execCallbackDone (s : State) : Answer := command .callbackDone (dispatch Instr.callbackDone.word) s

end Sys2Proof.Machine
end

