-- ==== Sys2Proof/Machine/StatusCommands.lean ====
section
/-! DEFINITION. Interrupt raise, status and fault control (45_status_irq.md R255 to R257). -/

namespace Sys2Proof.Machine

/-- `HEAD` (10_state.md R43, selector 6): 0 for an empty queue, else `(1 << 4) | HeadKind()`. -/
def headWord (s : State) : U64 :=
  match headKind s with
  | none => 0
  | some k => BitVec.ofNat 64 (2 ^ 4 + k.val)

/-- The status map of 10_state.md R43; selectors 12 to 15 are reserved and name nothing. -/
def statusValue (sel : Fin 16) (s : State) : Option U64 :=
  match sel with
  | 0 => some (s.faultStatus.setWidth 64)
  | 1 => some (s.faultCmd.setWidth 64)
  | 2 => some (phaseWord s)
  | 3 => some (s.activeMask.setWidth 64)
  | 4 => some (BitVec.ofNat 64 (front s).code.val)
  | 5 => some (eventValidWord s)
  | 6 => some (headWord s)
  | 7 => some (s.irqPending.setWidth 64)
  | 8 => some s.runBase
  | 9 => some s.runElapsed
  | 10 => some s.runBudget
  | 11 => some s.seqNext
  | _ => none

/-- `RAISE_IRQ m` (R255). -/
def execRaiseIrq (m : U16) (s : State) : Answer := plainCommand (.raiseIrq m) (raiseSource m) s

/-- `RD_STATUS s` (R256). Selectors 12 to 15 are no well-formed instruction: their word is illegal and raises
`ILLEGAL_COMMAND` before anything else (30_encoding.md R86; log entry 18). -/
def execRdStatus (sel : Fin 16) (s : State) : Answer :=
  if sel.val < 12 then
    plainCommand (.rdStatus sel) (fun s0 => { s0 with result := (statusValue sel s0).getD 0 }) s
  else .next (illegalCommand (Instr.rdStatus sel).word s)

/-- `CLR_FAULT` (R257). -/
def execClrFault (s : State) : Answer := plainCommand .clrFault clearFaults s

end Sys2Proof.Machine
end

