-- ==== Sys2Proof/Machine/TimerCommands.lean ====
section
/-! DEFINITION. The timer commands (43_timer_cascade.md R200 to R205). -/

namespace Sys2Proof.Machine

/-- The timer after a control write at time `g` (R201, with R198 and R199): the new control, the counter loaded and the
phase anchored on enable, the phase restarted where a root changed its prescaler or has just become a root. -/
def writeCtrl (n : Fin 4) (w : U16) (g : U64) (old : Timer) : Timer :=
  let c := ctrlOfWord w
  let root (x : TimerCtrl) : Bool := decide (n = 0) || !x.cascade
  if !old.ctrl.en && c.en then { old with ctrl := c, value := old.reload, tref := g }
  else if c.en && root c && (decide (old.ctrl.ps ≠ c.ps) || !root old.ctrl) then { old with ctrl := c, tref := g }
  else { old with ctrl := c }

/-- `TMR_WR_RELOAD n, v` (R200). -/
def execTmrWrReload (n : Fin 4) (v : U16) (s : State) : Answer :=
  plainCommand (.tmrWrReload n v) (fun s0 =>
    let s1 := timerSyncAll s0.g s0
    let s2 := s1.setTimer n { s1.timer n with reload := v }
    timerReschedule (affected s2.tmr n) s2) s

/-- `TMR_WR_CONTROL n, w` (R201). -/
def execTmrWrControl (n : Fin 4) (w : U16) (s : State) : Answer :=
  plainCommand (.tmrWrControl n w) (fun s0 =>
    let s1 := timerSyncAll s0.g s0
    let s2 := s1.setTimer n (writeCtrl n w s1.g (s1.timer n))
    timerReschedule (affected s2.tmr n) s2) s

/-- `TMR_RD_COUNTER n` (R202). -/
def execTmrRdCounter (n : Fin 4) (s : State) : Answer :=
  plainCommand (.tmrRdCounter n) (fun s0 =>
    let s1 := timerSyncAll s0.g s0
    { s1 with result := (s1.timer n).value.setWidth 64 }) s

/-- `TMR_RD_CONTROL n` (R203). -/
def execTmrRdControl (n : Fin 4) (s : State) : Answer :=
  plainCommand (.tmrRdControl n) (fun s0 => { s0 with result := ctrlToWord (s0.timer n).ctrl }) s

/-- `TMR_RD_RELOAD n` (R204). -/
def execTmrRdReload (n : Fin 4) (s : State) : Answer :=
  plainCommand (.tmrRdReload n) (fun s0 => { s0 with result := (s0.timer n).reload.setWidth 64 }) s

/-- `TMR_RD_NEXT_OVF n` (R205). -/
def execTmrRdNextOvf (n : Fin 4) (s : State) : Answer :=
  plainCommand (.tmrRdNextOvf n) (fun s0 =>
    let s1 := timerSyncAll s0.g s0
    { s1 with result := if counting s1.tmr n then nextOverflowTime s1.params s1.tmr n else max64 }) s

end Sys2Proof.Machine
end

