-- ==== Sys2Proof/Machine/Dispatch.lean ====
section
/-! DEFINITION. The dispatch of a decoded command to its meaning, one arm per constructor of Instr. -/

namespace Sys2Proof.Machine

def exec (i : Instr) (s : State) : Host.Outcome State Fault Refusal :=
  match i with
  -- event queue (40_event_queue.md)
  | .schedule k delay => Sys2Proof.Machine.execSchedule k delay s
  | .cancel k => Sys2Proof.Machine.execCancel k s
  | .reschedule k delay => Sys2Proof.Machine.execReschedule k delay s
  | .now => Sys2Proof.Machine.execNow s
  -- arbitration and accounting (42_driver_arbitration.md, 44_bus_accounting.md)
  | .engage d => Sys2Proof.Machine.execEngage d s
  | .disengage d => Sys2Proof.Machine.execDisengage d s
  | .charge d n => Sys2Proof.Machine.execCharge d n s
  -- run loop (41_run_loop.md)
  | .runEnd c => Sys2Proof.Machine.execRunEnd c s
  | .callbackDone => Sys2Proof.Machine.execCallbackDone s
  -- timers (43_timer_cascade.md)
  | .tmrWrReload n v => Sys2Proof.Machine.execTmrWrReload n v s
  | .tmrWrControl n w => Sys2Proof.Machine.execTmrWrControl n w s
  | .tmrRdCounter n => Sys2Proof.Machine.execTmrRdCounter n s
  | .tmrRdControl n => Sys2Proof.Machine.execTmrRdControl n s
  | .tmrRdReload n => Sys2Proof.Machine.execTmrRdReload n s
  | .tmrRdNextOvf n => Sys2Proof.Machine.execTmrRdNextOvf n s
  -- interrupt raise, status, faults (45_status_irq.md), and the ledger and queue reads
  | .raiseIrq m => Sys2Proof.Machine.execRaiseIrq m s
  | .rdStatus sel => Sys2Proof.Machine.execRdStatus sel s
  | .rdLedger d => Sys2Proof.Machine.execRdLedger d s
  | .rdEventTime k => Sys2Proof.Machine.execRdEventTime k s
  | .rdEventSeq k => Sys2Proof.Machine.execRdEventSeq k s
  | .clrFault => Sys2Proof.Machine.execClrFault s
  -- the run loop's entry (41_run_loop.md R146)
  | .start => Sys2Proof.Machine.execStart s

end Sys2Proof.Machine
end

