-- ==== Sys2Proof/Machine/Ports.lean ====
section
/-! DEFINITION. The block's inputs: taking one from the inbox, and the reset input (20_memory.md R68;
70_reset_and_hazards.md R300). -/

namespace Sys2Proof.Machine

/-- The state in which a command just taken from the inbox runs: the rest of the inbox waits, and the index of the free
value moves on (log entries 1 and 6). -/
def takeCommand (rest : List Input) (s : State) : State := { s with inbox := rest, freeCtr := s.freeCtr + 1 }

/-- The reset input (70_reset_and_hazards.md R300): every state element takes its value of 10_state.md R49, and no output
event is emitted. What the trace already holds has been emitted and stays, the parameters are fixed, and later
inputs still wait (log entry 2). -/
def takeReset (rest : List Input) (s : State) : State :=
  { State.reset with trace := s.trace, inbox := rest, params := s.params, freeCtr := s.freeCtr + 1 }

/-- The instruction of `nbits` bits `w`, in the numbering of spec/opcode_table.json, put on the command port as the next
input. -/
def placeCommand (nbits w : Nat) (s : State) : State :=
  { s with inbox := .command (tableCommand nbits w) :: s.inbox }

end Sys2Proof.Machine
end

