-- ==== Sys2Proof/Machine/Step.lean ====
section
/-! DEFINITION. One step of the block: the next input is taken and performed whole (20_memory.md R65, R68). -/

namespace Sys2Proof.Machine

/-- One step. With no input the block waits; nothing is assumed of the inputs (log entry 17). A legal command word runs
its instruction, an illegal one raises `ILLEGAL_COMMAND` (30_encoding.md R85 to R87), the reset input resets
(70_reset_and_hazards.md R300). -/
def step (s : State) : Host.Outcome State Fault Refusal :=
  match s.inbox with
  | [] => .next s
  | .reset :: rest => .next (takeReset rest s)
  | .command c :: rest =>
    match decode c with
    | .ok i => exec i (takeCommand rest s)
    | .error _ => .next (illegalCommand c.cw (takeCommand rest s))

/-- `s` with that instruction as the next input on the command port, which is where `step` fetches (log entry 1). -/
def State.withFetchWord (s : State) (nbits w : Nat) : State := placeCommand nbits w s

end Sys2Proof.Machine
end

