-- ==== Sys2Proof/Safety.lean ====
section
/-! DEFINITION. What counts as a safe state and a safe run, in the terms the claims use: the invariants of 10_state.md
R45, the client protocol of 60_exceptions.md R287, the ledger equation of 44_bus_accounting.md R243, and the plain record
forms of what a fault, a strobe, a run of `Dispatch` and a timer write leave behind. -/

namespace Sys2Proof.Machine

/-- The invariants of 10_state.md R45 that hold between commands, numbered as there, item 8 only as far as it can be said of
the timers as they stand; `R45` below has all nine items. Item 2 is the table's structure.
Item 8 has three claims. That a timer which is to have an event has one is here whole. That a timer with an event counts,
has its interrupt enabled and overflows before `MAX64` is here with the event's own time in place of
`NextOverflowTime(n)`. That the event's time is `NextOverflowTime(n)` is in `TimerEventAsSet`, and of the timers as they stand
in `TimerEventAtNextOverflowOrDue` (log entry 14). -/
structure Inv (s : State) : Prop where
  /-- R21: `DISPATCH` is never seen between commands. -/
  phaseStable : s.phase ≠ .dispatch
  /-- Item 1. -/
  cpuActive : s.active.getLsbD 0 = true
  /-- Item 3. -/
  eventsAhead : ∀ k, (s.slot k).v = true → s.g ≤ (s.slot k).t
  /-- Item 4, first half. -/
  seqBelow : s.seqNext < max64 → ∀ k, (s.slot k).v = true → (s.slot k).s < s.seqNext
  /-- Item 4, second half. -/
  seqDistinct : s.seqNext < max64 → ∀ j k, (s.slot j).v = true → (s.slot k).v = true → (s.slot j).s = (s.slot k).s → j = k
  /-- Item 5. -/
  runWindow : s.phase = .running → s.runBase ≤ s.g ∧ s.g ≤ sat64 (s.runBase.toNat + s.runElapsed.toNat)
  /-- Item 6. -/
  rootsBehind : ∀ r, isRoot s.tmr r = true → (s.timer r).ctrl.en = true → (s.timer r).tref ≤ s.g
  /-- Item 7. -/
  irqPended : (s.slot irqKind).v = true ↔ s.irqPending ≠ 0
  /-- Item 8, from left to right, with `EVT[n].T < MAX64` for `NextOverflowTime(n) < MAX64` (log entry 14). -/
  timerEventWanted : ∀ n, (s.slot (timerKind n)).v = true →
    counting s.tmr n = true ∧ (s.timer n).ctrl.irqen = true ∧ (s.slot (timerKind n)).t < max64
  /-- Item 8, from right to left. -/
  timerEventPresent : ∀ n, wantsEvent s.params s.tmr n = true → (s.slot (timerKind n)).v = true
  /-- Item 9. -/
  idleAtZero : s.phase = .idle → s.g = 0
  /-- R27: the kind whose callback runs is external. -/
  callbackExternal : s.phase = .callback → 5 ≤ s.cbKind.val

/-- The claim of 10_state.md R45 item 8 about the time of a timer's event, as the spec words it. -/
def TimerEventAtNextOverflow (s : State) : Prop :=
  ∀ n, (s.slot (timerKind n)).v = true → (s.slot (timerKind n)).t = nextOverflowTime s.params s.tmr n

/-- 10_state.md R45 item 8 whole, word for word. -/
def TimerEventAsWorded (s : State) : Prop :=
  (∀ n, (s.slot (timerKind n)).v = true ↔
    counting s.tmr n = true ∧ (s.timer n).ctrl.irqen = true ∧ nextOverflowTime s.params s.tmr n < max64) ∧
  TimerEventAtNextOverflow s

/-- What the pseudocode keeps of the claim about the time: the event is at the next overflow; or it is due now, the timers
have been folded past it, and the next overflow is one period after it (log entry 14). -/
def TimerEventAtNextOverflowOrDue (s : State) : Prop :=
  ∀ n, (s.slot (timerKind n)).v = true →
    (s.slot (timerKind n)).t = nextOverflowTime s.params s.tmr n ∨
    ((s.slot (timerKind n)).t = s.g ∧
      nextOverflowTime s.params s.tmr n = sat64 (s.g.toNat + period s.params s.tmr n))

/-- Timer `n`'s chain in `ts`, from its root to itself, is its chain in `b` folded (43_timer_cascade.md R193) to some time
not after `g`. -/
def FoldedFrom (p : Params) (g : U64) (b ts : TimerBank) (n : Fin 4) : Prop :=
  ∃ t, (b[rootOf b n].ctrl.en = true → b[rootOf b n].tref ≤ t) ∧ t ≤ g ∧
    ∀ j, rootOf b n ≤ j → j ≤ n → ts[j] = (syncBank p t b)[j]

/-- 10_state.md R45 item 8 whole, both claims about `NextOverflowTime(n)` included, with that value taken as the item's last
sentence describes it: "That value does not change between reconfigurations". So for each timer `n` there are timers `b`,
those that the last reconfiguration or overflow of its chain left, from which its chain has only been folded since, and item
8 holds word for word with `NextOverflowTime(n)` of `b` (log entry 14). -/
def TimerEventAsSet (s : State) : Prop :=
  ∀ n, ∃ b, FoldedFrom s.params s.g b s.tmr n ∧
    ((s.slot (timerKind n)).v = true ↔
      counting b n = true ∧ b[n].ctrl.irqen = true ∧ nextOverflowTime s.params b n < max64) ∧
    ((s.slot (timerKind n)).v = true → (s.slot (timerKind n)).t = nextOverflowTime s.params b n)

/-- The invariants of 10_state.md R45, all nine items. -/
structure R45 (s : State) : Prop where
  /-- Items 1 to 7 and 9, and what of item 8 can be said of the timers as they stand. -/
  inv : Inv s
  /-- Item 8. -/
  timerEvents : TimerEventAsSet s

/-- The sum of the five ledgers. -/
def ledgerSum (s : State) : Nat := (s.ledger.toList.map BitVec.toNat).sum

/-- No ledger has saturated (44_bus_accounting.md R243, R246). -/
def LedgersUnsaturated (s : State) : Prop := ∀ d, s.ledgerOf d < max64

/-- 44_bus_accounting.md R243 with its `DISCARDED`, "a quantity of the proof", left out: what has been charged covers
the Time Base, and while a run is open what the run has been charged too. -/
def LedgersCoverTime (s : State) : Prop :=
  LedgersUnsaturated s →
    (if s.phase = .running then s.runBase.toNat + s.runElapsed.toNat else s.g.toNat) ≤ ledgerSum s

/-- The time a command sees (30_encoding.md R87, 41_run_loop.md R140): in `RUNNING`, `max(G, min(RUN_BASE + RUN_ELAPSED,
HeadTime()))` with the sum saturated; else `G`. -/
def seenTime (s : State) : U64 :=
  if s.phase = .running then
    maxU64 s.g (capAtHead s (sat64 (s.runBase.toNat + s.runElapsed.toNat)))
  else s.g

/-- An external event is pending, as the world tick must be (41_run_loop.md R148, 70_reset_and_hazards.md R302). -/
def ExternalPending (s : State) : Prop := ∃ k : Fin 16, 5 ≤ k.val ∧ (s.slot k).v = true

/-- Command `i` in state `s` follows the client protocol (60_exceptions.md R287). -/
def FollowsProtocol (s : State) : Instr → Prop
  | .schedule k _ => s.phase ≠ .halted ∧ 5 ≤ k.val
  | .cancel k => s.phase ≠ .halted ∧ 5 ≤ k.val
  | .reschedule k _ => s.phase ≠ .halted ∧ 5 ≤ k.val
  | .now => True
  | .engage d => s.phase ≠ .halted ∧ d.val ≤ 4
  | .disengage d => s.phase ≠ .halted ∧ 1 ≤ d.val ∧ d.val ≤ 4
  | .charge d _ => s.phase = .running ∧ driverOf d = some s.runDrv
  | .runEnd c => s.phase = .running ∧ s.runElapsed ≤ c ∧ ExternalPending s
  | .callbackDone => s.phase = .callback ∧ ExternalPending s
  | .tmrWrReload _ _ => s.phase ≠ .halted
  | .tmrWrControl _ _ => s.phase ≠ .halted
  | .tmrRdCounter _ => True
  | .tmrRdControl _ => True
  | .tmrRdReload _ => True
  | .tmrRdNextOvf _ => True
  | .raiseIrq _ => s.phase ≠ .halted
  | .rdStatus sel => sel.val < 12
  | .rdLedger d => d.val ≤ 4
  | .rdEventTime _ => True
  | .rdEventSeq _ => True
  | .clrFault => True
  | .start => s.phase = .idle ∧ ExternalPending s

/-! The words claims use for what a command leaves behind. Each is a plain record, not the model's own operation. -/

/-- The phases in which the commands that write state are admitted (30_encoding.md R88). -/
def Live (s : State) : Prop := s.phase = .idle ∨ s.phase = .running ∨ s.phase = .callback

/-- The state in which an admitted command's own rule runs (30_encoding.md R87): `RESULT` 0 and the time flushed. -/
def atEntry (s : State) : State := { s with result := 0, g := seenTime s }

/-- What a fault leaves of a state (60_exceptions.md R270): `RESULT` 0, the bit of `FAULT_STATUS` set, and for the first
fault the command word in `FAULT_CMD` and one `FAULTED`. -/
def faulted (bit cw : U16) (s : State) : State :=
  { s with result := 0
           faultStatus := s.faultStatus ||| bit
           faultCmd := if s.faultStatus = 0 then cw else s.faultCmd
           trace := s.trace ++ (if s.faultStatus = 0 then [.faulted] else []) }

/-- What the fatal fault leaves (60_exceptions.md R270, R272). -/
def emptyQueueHalt (cw : U16) (s : State) : State :=
  { s with phase := .halted
           faultStatus := s.faultStatus ||| 0x0080
           faultCmd := if s.faultStatus = 0 then cw else s.faultCmd
           trace := s.trace ++ (if s.faultStatus = 0 then [.faulted, .halt] else [.halt]) }

/-- `s` with `SUSPEND(d)` emitted if `b` holds, and `SUSPEND_REQ` set by it if `d` holds the run
(42_driver_arbitration.md R170). -/
def withStrobe (b : Bool) (d : Driver) (s : State) : State :=
  { s with trace := s.trace ++ (if b then [.suspend d] else [])
           suspendReq := s.suspendReq || (b && decide (s.phase = .running) && decide (d = s.runDrv)) }

/-- The illegal words, as 30_encoding.md R86 lists them. -/
def IllegalWord (cw : U16) : Prop :=
  let op := (cw.extractLsb' 0 5).toNat
  let sel := (cw.extractLsb' 8 4).toNat
  op = 0 ∨ 0x17 ≤ op ∨ cw.extractLsb' 5 3 ≠ 0 ∨ cw.extractLsb' 12 4 ≠ 0 ∨
    (op ∈ [0x04, 0x08, 0x09, 0x10, 0x15, 0x16] ∧ sel ≠ 0) ∨
    (op ∈ [0x05, 0x06, 0x07, 0x12] ∧ 8 ≤ sel) ∨
    (op ∈ [0x0A, 0x0B, 0x0C, 0x0D, 0x0E, 0x0F] ∧ 4 ≤ sel) ∨
    (op = 0x11 ∧ 12 ≤ sel)

/-- The phases with a B in the row of the admission table (30_encoding.md R88). -/
def barredPhases : Instr → List Phase
  | .schedule _ _ => [.halted]
  | .cancel _ => [.halted]
  | .reschedule _ _ => [.halted]
  | .now => []
  | .engage _ => [.halted]
  | .disengage _ => [.halted]
  | .charge _ _ => [.halted]
  | .runEnd _ => [.idle, .callback, .halted]
  | .callbackDone => [.idle, .running, .halted]
  | .tmrWrReload _ _ => [.halted]
  | .tmrWrControl _ _ => [.halted]
  | .tmrRdCounter _ => []
  | .tmrRdControl _ => []
  | .tmrRdReload _ => []
  | .tmrRdNextOvf _ => []
  | .raiseIrq _ => [.halted]
  | .rdStatus _ => []
  | .rdLedger _ => []
  | .rdEventTime _ => []
  | .rdEventSeq _ => []
  | .clrFault => []
  | .start => [.running, .callback, .halted]

/-- The commands that only read (20_memory.md R66). -/
def isRead : Instr → Bool
  | .schedule _ _ => false
  | .cancel _ => false
  | .reschedule _ _ => false
  | .now => true
  | .engage _ => false
  | .disengage _ => false
  | .charge _ _ => false
  | .runEnd _ => false
  | .callbackDone => false
  | .tmrWrReload _ _ => false
  | .tmrWrControl _ _ => false
  | .tmrRdCounter _ => true
  | .tmrRdControl _ => true
  | .tmrRdReload _ => true
  | .tmrRdNextOvf _ => true
  | .raiseIrq _ => false
  | .rdStatus _ => true
  | .rdLedger _ => true
  | .rdEventTime _ => true
  | .rdEventSeq _ => true
  | .clrFault => false
  | .start => false

/-- The commands that enter `Dispatch` (10_state.md R21). -/
def entersDispatch (i : Instr) : Prop := i = .start ∨ i = .callbackDone ∨ ∃ c, i = .runEnd c

/-- `Dispatch` as a relation (41_run_loop.md R141 to R145): from a state inside it, the state it leaves behind, with the
number of internal events it pops. `cw` is the word of the command that entered it. -/
inductive Dispatches (cw : U16) : Nat → State → State → Prop where
  /-- The queue is empty: `EMPTY_QUEUE`, `HALTED`. -/
  | empty (s : State) (h : ∀ k, (s.slot k).v = false) : Dispatches cw 0 s (emptyQueueHalt cw s)
  /-- The head lies ahead: the front driver gets the run up to it. -/
  | grant (s : State) (k : Fin 16) (hk : headKind s = some k) (h : s.g < (s.slot k).t) :
      Dispatches cw 0 s
        { s with phase := .running, runDrv := front s, runBase := s.g, runElapsed := 0
                 runBudget := (s.slot k).t - s.g, suspendReq := false
                 trace := s.trace ++ [.runGrant (front s) ((s.slot k).t - s.g)] }
  /-- An external head is due: it fires, and its callback runs. -/
  | fire (s : State) (k : Fin 16) (hk : headKind s = some k) (h : ¬ s.g < (s.slot k).t) (hext : 5 ≤ k.val) :
      Dispatches cw 0 s
        { s with evt := s.evt.set k { s.slot k with v := false }, g := (s.slot k).t, freeCtr := s.freeCtr + 1
                 phase := .callback, cbKind := k, trace := s.trace ++ [.fire k] }
  /-- A timer's overflow is due: its callback runs, and the loop goes on. -/
  | timer {m : Nat} {t : State} (s : State) (n : Fin 4) (hk : headKind s = some (timerKind n))
      (h : ¬ s.g < (s.slot (timerKind n)).t)
      (rest : Dispatches cw m (timerOverflowEvent n (pop (timerKind n) s)) t) : Dispatches cw (m + 1) s t
  /-- The interrupt delivery is due: it is asserted, and the loop goes on. -/
  | irq {m : Nat} {t : State} (s : State) (hk : headKind s = some irqKind) (h : ¬ s.g < (s.slot irqKind).t)
      (rest : Dispatches cw m (irqDeliver (pop irqKind s)) t) : Dispatches cw (m + 1) s t

/-- The enabled roots' `TREF` are not ahead of time `t`, the precondition of 43_timer_cascade.md R193. -/
def RootsBehind (t : U64) (ts : TimerBank) : Prop :=
  ∀ r, isRoot ts r = true → ts[r].ctrl.en = true → ts[r].tref ≤ t

/-- One counter counted up tick by tick: from `0xFFFF` it overflows and loads `r` (43_timer_cascade.md R192). The result
is the value and the number of overflows. -/
def countUp (r : U16) : Nat → U16 → U16 × Nat
  | 0, v => (v, 0)
  | k + 1, v =>
    let a := countUp r k v
    if a.1 = 0xFFFF then (r, a.2 + 1) else (a.1 + 1, a.2)

/-- `k` gives the ticks each timer takes in a fold to time `t`, as 43_timer_cascade.md R193 carries them: whole prescaler
periods since `TREF` for an enabled root, the overflows of timer `n-1` in the same fold for an enabled cascaded timer, none
for a disabled one. -/
structure FoldCounts (p : Params) (t : U64) (ts : TimerBank) (k : Fin 4 → Nat) : Prop where
  disabled : ∀ n, ts[n].ctrl.en = false → k n = 0
  root : ∀ n, isRoot ts n = true → ts[n].ctrl.en = true →
    k n = (t.toNat - ts[n].tref.toNat) / p.prescale[ts[n].ctrl.ps.toFin].val
  cascaded : ∀ m n : Fin 4, n.val = m.val + 1 → ts[n].ctrl.cascade = true → ts[n].ctrl.en = true →
    k n = (advance ts[m].value ts[m].reload (k m)).2

/-- `m ∈ Affected(n)` (43_timer_cascade.md R196). -/
abbrev InAffected (ts : TimerBank) (n m : Fin 4) : Prop :=
  n ≤ m ∧ ∀ j, n < j → j ≤ m → ts[j].ctrl.cascade = true

/-- The condition of 43_timer_cascade.md R197 and R206 for timer `m` of the bank `b` to have an event. -/
abbrev ToHaveEvent (p : Params) (b : TimerBank) (m : Fin 4) : Prop :=
  counting b m = true ∧ b[m].ctrl.irqen = true ∧ nextOverflowTime p b m < max64

/-- How many timers below `x` a write to timer `n` schedules (43_timer_cascade.md R197). -/
def scheduledBelow (p : Params) (b : TimerBank) (n : Fin 4) (x : Nat) : Nat :=
  (List.finRange 4).countP fun m => decide (m.val < x ∧ InAffected b n m ∧ ToHaveEvent p b m)

/-- Between two rounds of a loop over kinds in increasing order that leads from `s` to `t`: the slots of the kinds below
`x` are as in `t`, the others still as in `s`. -/
def midway (s t : State) (x : Nat) : State :=
  { s with evt := Vector.ofFn fun k : Fin 16 => if k.val < x then t.slot k else s.slot k }

/-- Round `m` of that loop strobes (40_event_queue.md R100, R102, R110): its kind was the head before the round, or is the
head after it. -/
abbrev HeadMoves (s t : State) (m : Fin 4) : Prop :=
  headKind (midway s t m.val) = some (timerKind m) ∨ headKind (midway s t (m.val + 1)) = some (timerKind m)

/-- What a write to timer `n` leaves behind when the timers become `b` (43_timer_cascade.md R197, R200, R201): the
overflow events of the affected timers are brought up to date in increasing order, and nothing else changes. -/
structure TimersRewritten (n : Fin 4) (b : TimerBank) (s t : State) : Prop where
  /-- Only the time, `RESULT`, the timers, the queue, the strobes and `SUSPEND_REQ` change; `SEQ_NEXT` moves on once for
  each timer scheduled. -/
  frame : t = { s with result := 0, g := seenTime s, tmr := b, evt := t.evt
                       seqNext := sat64 (s.seqNext.toNat + scheduledBelow s.params b n 4)
                       trace := t.trace, suspendReq := t.suspendReq }
  /-- The events of all other kinds stay. -/
  others : ∀ k, (∀ m, InAffected b n m → k ≠ timerKind m) → t.slot k = s.slot k
  /-- An affected timer that is to have an event has it, at its next overflow, with the sequence number its round finds. -/
  scheduled : ∀ m, InAffected b n m → ToHaveEvent s.params b m →
    t.slot (timerKind m) =
      { v := true, t := nextOverflowTime s.params b m
        s := sat64 (s.seqNext.toNat + scheduledBelow s.params b n m.val) }
  /-- Any other affected timer has none. -/
  removed : ∀ m, InAffected b n m → ¬ ToHaveEvent s.params b m →
    t.slot (timerKind m) = { s.slot (timerKind m) with v := false }
  /-- The front driver is strobed once for each affected timer whose kind was or becomes the head, and asked to stop if it
  holds the run. -/
  strobes : ∃ rounds : List (Fin 4), rounds.Nodup ∧ (∀ m, m ∈ rounds ↔ InAffected b n m ∧ HeadMoves s t m) ∧
    t.trace = s.trace ++ rounds.map (fun _ => .suspend (front s)) ∧
    t.suspendReq = (s.suspendReq || (!rounds.isEmpty && decide (s.phase = .running) && decide (front s = s.runDrv)))

end Sys2Proof.Machine
end

