-- ==== Sys2Proof/Certificates/Slice0/Obligations.lean ====
section
/-! DEFINITION. The statements for the provers. Each docstring names the rule of spec/ it formalises, or says that it rests
on a choice of the model and names the log entry. -/

open Sys2Proof Sys2Proof.Machine

/-! Encoding and the step. -/

/-- 30_encoding.md R91: the table of encoding examples, legal and illegal words. -/
def Obligations.DecodeOfWrittenWords : Prop :=
  decode { cw := 0x0501, data := 10 } = .ok (.schedule 5 10) ∧
  decode { cw := 0x0602, data := 0 } = .ok (.cancel 6) ∧
  decode { cw := 0x0004, data := 0 } = .ok .now ∧
  decode { cw := 0x0405, data := 0 } = .ok (.engage 4) ∧
  decode { cw := 0x0106, data := 0 } = .ok (.disengage 1) ∧
  decode { cw := 0x0007, data := 5 } = .ok (.charge 0 5) ∧
  decode { cw := 0x0008, data := 5 } = .ok (.runEnd 5) ∧
  decode { cw := 0x010B, data := 0x00C4 } = .ok (.tmrWrControl 1 0x00C4) ∧
  decode { cw := 0x030C, data := 0 } = .ok (.tmrRdCounter 3) ∧
  decode { cw := 0x0611, data := 0 } = .ok (.rdStatus 6) ∧
  decode { cw := 0x0412, data := 0 } = .ok (.rdLedger 4) ∧
  decode { cw := 0x0016, data := 0 } = .ok .start ∧
  decode { cw := 0x0100, data := 0 } = .error .unassignedOpcode ∧
  decode { cw := 0x0104, data := 0 } = .error .selectorNotZero ∧
  decode { cw := 0x0C11, data := 0 } = .error .statusSelectorHigh

/-- 30_encoding.md R80 to R83: no operand bit of a command is lost on the way through its encoding. -/
def Obligations.DecodeEncodeRoundTrip : Prop :=
  ∀ i : Instr, i.wf = true → decode (encode i) = .ok i

/-- 30_encoding.md R85: decoding is total, rejects exactly the illegal words, answers the word's own row and selector,
and no two rows match one word. -/
def Obligations.EveryWordIsOneCommandOrIllegal : Prop :=
  ∀ c : Command,
    ((∃ e, decode c = .error e) ↔ IllegalWord c.cw) ∧
    (∀ i, decode c = .ok i → i.wf = true ∧ i.word = c.cw ∧ i.opcode.code = (c.cw.extractLsb' 0 5).toNat ∧
      i.selector.val = (c.cw.extractLsb' 8 4).toNat) ∧
    (∀ o p : Opcode, o.matchesWord c.cw = true → p.matchesWord c.cw = true → o = p)

/-- The step around `exec`: the next input is taken from the inbox, a legal word runs its instruction, and with no input
the block waits. The inbox and the counter are the model's choice (log entries 1 and 6). -/
def Obligations.StepRunsDecodedCommand : Prop :=
  (∀ (s : State) c rest i, s.inbox = .command c :: rest → decode c = .ok i →
    step s = exec i { s with inbox := rest, freeCtr := s.freeCtr + 1 }) ∧
  (∀ s : State, s.inbox = [] → step s = .next s)

/-- 30_encoding.md R86: an illegal word raises `ILLEGAL_COMMAND` and has no other effect; selector values that decode but
name nothing are faults of their commands. That the word comes from the inbox is the model's choice (log entry 1), and so
is what `exec` answers for a term that no word carries, `RD_STATUS` with selector 12 to 15 (log entry 18). -/
def Obligations.IllegalWordOnlyFaults : Prop :=
  (∀ (s : State) c rest, s.inbox = .command c :: rest → IllegalWord c.cw →
    step s = .next (faulted 0x0001 c.cw { s with inbox := rest, freeCtr := s.freeCtr + 1 })) ∧
  (∀ (s : State) (d : Fin 8) n, Live s → 5 ≤ d.val →
    exec (.engage d) s = .next (faulted 0x0004 (Instr.engage d).word (atEntry s)) ∧
    exec (.disengage d) s = .next (faulted 0x0004 (Instr.disengage d).word (atEntry s)) ∧
    exec (.charge d n) s = .next (faulted 0x0004 (Instr.charge d n).word (atEntry s)) ∧
    exec (.rdLedger d) s = .next (faulted 0x0004 (Instr.rdLedger d).word (atEntry s))) ∧
  (∀ (s : State) (k : Fin 16) x, Live s → k.val ≤ 4 →
    exec (.schedule k x) s = .next (faulted 0x0008 (Instr.schedule k x).word (atEntry s)) ∧
    exec (.cancel k) s = .next (faulted 0x0008 (Instr.cancel k).word (atEntry s)) ∧
    exec (.reschedule k x) s = .next (faulted 0x0008 (Instr.reschedule k x).word (atEntry s))) ∧
  (∀ (s : State) (sel : Fin 16), 12 ≤ sel.val →
    exec (.rdStatus sel) s = .next (faulted 0x0001 (Instr.rdStatus sel).word s))

/-! Reset. -/

/-- 10_state.md R49: the value of every state element in the machine right after reset. -/
def Obligations.ResetStateValues : Prop :=
  let s := State.reset
  s.g = 0 ∧ s.phase = .idle ∧ s.runDrv = .cpu ∧ s.runBase = 0 ∧ s.runElapsed = 0 ∧ s.runBudget = 0 ∧
  s.suspendReq = false ∧ s.cbKind = 0 ∧ (∀ k, s.slot k = { v := false, t := 0, s := 0 }) ∧ s.seqNext = 0 ∧
  s.active = 0b00001 ∧ (∀ d, s.ledgerOf d = 0) ∧
  (∀ n, s.timer n =
    { reload := 0, ctrl := { en := false, cascade := false, ps := 0, irqen := false }, value := 0, tref := 0 }) ∧
  s.irqPending = 0 ∧ s.faultStatus = 0 ∧ s.faultCmd = 0 ∧ s.result = 0

/-- 70_reset_and_hazards.md R300: the reset input, in any phase, gives every element its reset value and emits nothing,
and no command leaves `HALTED`. What stays of the model's own fields is its choice (log entry 2). -/
def Obligations.ResetInputRestoresEveryElement : Prop :=
  (∀ (s : State) rest, s.inbox = .reset :: rest →
    step s = .next
      { g := 0, phase := .idle, runDrv := .cpu, runBase := 0, runElapsed := 0, runBudget := 0, suspendReq := false
        cbKind := 0, evt := Vector.replicate 16 { v := false, t := 0, s := 0 }, seqNext := 0, active := 0b00001
        ledger := Vector.replicate 5 0
        tmr := Vector.replicate 4
          { reload := 0, ctrl := { en := false, cascade := false, ps := 0, irqen := false }, value := 0, tref := 0 }
        irqPending := 0, faultStatus := 0, faultCmd := 0, result := 0, trace := s.trace, inbox := rest
        params := s.params, freeCtr := s.freeCtr + 1 }) ∧
  (∀ s t : State, s.phase = .halted → step s = .next t → t.phase = .halted ∨ ∃ rest, s.inbox = .reset :: rest)

/-! Faults. -/

/-- 30_encoding.md R88: a command in a phase its row bars faults `BAD_PHASE` with no effect and no flush; in the other
phases it does not; `CHARGE` in `IDLE` and `CALLBACK` then faults `CHARGE_NOT_RUNNING`; no command leaves `DISPATCH` for
the next one to meet. -/
def Obligations.CommandOutsideItsPhaseFaults : Prop :=
  (∀ (i : Instr) (s : State), s.phase ∈ barredPhases i → exec i s = .next (faulted 0x0002 i.word s)) ∧
  (∀ (i : Instr) (s t : State), s.phase ∉ barredPhases i → exec i s = .next t →
    t.faultStatus.getLsbD 1 = true → s.faultStatus.getLsbD 1 = true) ∧
  (∀ (s : State) (d : Fin 8) n, s.phase = .idle ∨ s.phase = .callback → d.val ≤ 4 →
    exec (.charge d n) s = .next (faulted 0x0020 (Instr.charge d n).word s)) ∧
  (∀ (i : Instr) (s t : State), s.phase ≠ .dispatch → exec i s = .next t → t.phase ≠ .dispatch)

/-- 60_exceptions.md R270: for the six precise faults, a command that sets the fault's bit has no other effect, but for
the flush when the fault comes after it. -/
def Obligations.FaultsArePrecise : Prop :=
  ∀ (i : Instr) (s t : State) (b : Nat), b ≤ 5 → exec i s = .next t →
    s.faultStatus.getLsbD b = false → t.faultStatus.getLsbD b = true →
    t = faulted (1#16 <<< b) i.word s ∨ t = faulted (1#16 <<< b) i.word (atEntry s)

/-- 60_exceptions.md R275, 10_state.md R42: fault bits are sticky and bits 8 to 15 never set; the first faulting word
stays in `FAULT_CMD`; `FAULTED` is emitted once, when the register leaves zero; `CLR_FAULT` re-arms it. -/
def Obligations.FaultRegisterKeepsTheFirst : Prop :=
  (∀ s t : State, exec .clrFault s = .next t → t.faultStatus = 0 ∧ t.faultCmd = 0) ∧
  ∀ (i : Instr) (s t : State), i ≠ .clrFault → exec i s = .next t →
    s.faultStatus &&& ~~~t.faultStatus = 0 ∧ t.faultStatus &&& 0xFF00 = s.faultStatus &&& 0xFF00 ∧
    (s.faultStatus ≠ 0 → t.faultCmd = s.faultCmd) ∧
    (s.faultStatus = 0 → t.faultCmd = if t.faultStatus = 0 then s.faultCmd else i.word) ∧
    ∃ new, t.trace = s.trace ++ new ∧
      new.count .faulted = if s.faultStatus = 0 ∧ t.faultStatus ≠ 0 then 1 else 0

/-- 60_exceptions.md R272: `Halt()`; in `HALTED` the time, the queue, the stack, the ledgers and the sequencer are frozen,
a timer is at most folded to the frozen time, the only output is a `FAULTED`, and the commands not admitted fault. -/
def Obligations.HaltedIsFrozen : Prop :=
  (∀ s : State, halt s = { s with phase := .halted, trace := s.trace ++ [.halt] }) ∧
  (∀ (i : Instr) (s : State), s.phase = .halted → .halted ∈ barredPhases i →
    exec i s = .next (faulted 0x0002 i.word s)) ∧
  (∀ (i : Instr) (s t : State), s.phase = .halted → exec i s = .next t →
    (∃ b, (b = s.tmr ∨ b = syncBank s.params s.g s.tmr) ∧
      t = { s with tmr := b, result := t.result, faultStatus := t.faultStatus, faultCmd := t.faultCmd
                   trace := t.trace }) ∧
    ∃ new, t.trace = s.trace ++ new ∧ ∀ o ∈ new, o = .faulted)

/-- Where the model stops: a command that finds `PHASE = DISPATCH`, which 10_state.md R21 says never happens. The stop is
the model's choice (log entry 8). -/
def Obligations.CommandDuringDispatchStops : Prop :=
  ∀ (i : Instr) (s : State), i.wf = true → s.phase = .dispatch → exec i s = .fault .commandDuringDispatch

/-! The event queue. -/

/-- 10_state.md R33: until `SEQ_NEXT` saturates, the head is the one pending kind least in `(T, S)`, and there is none
exactly when the queue is empty. -/
def Obligations.HeadIsLeastPending : Prop :=
  ∀ s : State, Inv s → s.seqNext < max64 →
    (∀ k, headKind s = some k ↔
      (s.slot k).v = true ∧ ∀ j, j ≠ k → (s.slot j).v = true →
        (s.slot k).t < (s.slot j).t ∨ ((s.slot k).t = (s.slot j).t ∧ (s.slot k).s < (s.slot j).s)) ∧
    (headTime s = none ↔ ∀ k, (s.slot k).v = false) ∧
    (∀ k, headKind s = some k → headTime s = some (s.slot k).t)

/-- 40_event_queue.md R103: `SCHEDULE`. -/
def Obligations.ScheduleCommand : Prop :=
  ∀ (k : Fin 16) (delay : U64) (s : State),
    (s.phase = .halted → exec (.schedule k delay) s = .next (faulted 0x0002 (Instr.schedule k delay).word s)) ∧
    (Live s → k.val ≤ 4 →
      exec (.schedule k delay) s = .next (faulted 0x0008 (Instr.schedule k delay).word (atEntry s))) ∧
    (Live s → 5 ≤ k.val →
      let evt := s.evt.set k { v := true, t := sat64 ((seenTime s).toNat + delay.toNat), s := s.seqNext }
      exec (.schedule k delay) s = .next
        (withStrobe (decide (headKind s = some k) || decide (headKind { s with evt := evt } = some k)) (front s)
          { s with result := 0, g := seenTime s, evt := evt, seqNext := sat64 (s.seqNext.toNat + 1) }))

/-- 40_event_queue.md R104: `CANCEL`. Of the slot it writes `V` only, as the pseudocode of R100 does (log entry 16). -/
def Obligations.CancelCommand : Prop :=
  ∀ (k : Fin 16) (s : State),
    (s.phase = .halted → exec (.cancel k) s = .next (faulted 0x0002 (Instr.cancel k).word s)) ∧
    (Live s → k.val ≤ 4 → exec (.cancel k) s = .next (faulted 0x0008 (Instr.cancel k).word (atEntry s))) ∧
    (Live s → 5 ≤ k.val → (s.slot k).v = false → exec (.cancel k) s = .next (atEntry s)) ∧
    (Live s → 5 ≤ k.val → (s.slot k).v = true →
      exec (.cancel k) s = .next
        (withStrobe (decide (headKind s = some k)) (front s)
          { s with result := 0, g := seenTime s, evt := s.evt.set k { s.slot k with v := false } }))

/-- 40_event_queue.md R105: `RESCHEDULE`. -/
def Obligations.RescheduleCommand : Prop :=
  ∀ (k : Fin 16) (delay : U64) (s : State),
    (s.phase = .halted → exec (.reschedule k delay) s = .next (faulted 0x0002 (Instr.reschedule k delay).word s)) ∧
    (Live s → k.val ≤ 4 →
      exec (.reschedule k delay) s = .next (faulted 0x0008 (Instr.reschedule k delay).word (atEntry s))) ∧
    (Live s → 5 ≤ k.val → (s.slot k).v = false → exec (.reschedule k delay) s = .next (atEntry s)) ∧
    (Live s → 5 ≤ k.val → (s.slot k).v = true →
      let evt := s.evt.set k { v := true, t := sat64 ((seenTime s).toNat + delay.toNat), s := s.seqNext }
      exec (.reschedule k delay) s = .next
        (withStrobe (decide (headKind s = some k) || decide (headKind { s with evt := evt } = some k)) (front s)
          { s with result := 0, g := seenTime s, evt := evt, seqNext := sat64 (s.seqNext.toNat + 1) }))

/-- 40_event_queue.md R106: `NOW` answers the flushed time, in every phase; in `RUNNING` that is
`max(G, min(RUN_BASE + RUN_ELAPSED, HeadTime()))`, else `G`. -/
def Obligations.NowCommand : Prop :=
  ∀ s : State, s.phase ≠ .dispatch →
    ∃ now : U64, exec .now s = .next { s with g := now, result := now } ∧
      (s.phase ≠ .running → now = s.g) ∧
      (s.phase = .running → (∀ k, (s.slot k).v = false) →
        now.toNat = max s.g.toNat (min (s.runBase.toNat + s.runElapsed.toNat) (2 ^ 64 - 1))) ∧
      (s.phase = .running → ∀ k, headKind s = some k →
        now.toNat = max s.g.toNat (min (s.runBase.toNat + s.runElapsed.toNat) (s.slot k).t.toNat))

/-- 40_event_queue.md R107, R108: `RD_EVENT_TIME` and `RD_EVENT_SEQ`. -/
def Obligations.RdEventCommands : Prop :=
  ∀ (k : Fin 16) (s : State), s.phase ≠ .dispatch →
    exec (.rdEventTime k) s =
      .next { s with g := seenTime s, result := if (s.slot k).v then (s.slot k).t else 0xFFFFFFFFFFFFFFFF } ∧
    exec (.rdEventSeq k) s =
      .next { s with g := seenTime s, result := if (s.slot k).v then (s.slot k).s else 0xFFFFFFFFFFFFFFFF }

/-! The Run Loop. -/

/-- 41_run_loop.md R150: `Dispatch` returns from every state, as R141 describes, after at most nine internal pops. -/
def Obligations.DispatchEndsWithinNinePops : Prop :=
  ∀ (cw : U16) (s : State), ∃ m t, m ≤ 9 ∧ Dispatches cw m { s with phase := .dispatch } t ∧ dispatch cw s = .next t

/-- 41_run_loop.md R146: `START`. -/
def Obligations.StartCommand : Prop :=
  ∀ s : State,
    (s.phase = .idle → ∃ m t, exec .start s = .next t ∧
      Dispatches 0x0016 m { s with result := 0, phase := .dispatch } t) ∧
    (s.phase = .running ∨ s.phase = .callback ∨ s.phase = .halted → exec .start s = .next (faulted 0x0002 0x0016 s))

/-- 41_run_loop.md R147: `RUN_END`. The remainder goes to the running driver's ledger, or the under-report is recorded
and the charged count stands; `G` commits at most to the head's fire time; then `Dispatch`. -/
def Obligations.RunEndCommand : Prop :=
  ∀ (c : U64) (s : State),
    (s.phase = .running →
      let consumed := if s.runElapsed ≤ c then c else s.runElapsed
      let settled :=
        if s.runElapsed ≤ c then
          { s with ledger := s.ledger.set s.runDrv.code
                     (sat64 ((s.ledgerOf s.runDrv).toNat + (c.toNat - s.runElapsed.toNat))) }
        else faulted 0x0040 0x0008 s
      ∃ m t, exec (.runEnd c) s = .next t ∧
        Dispatches 0x0008 m
          { settled with
            result := 0, runElapsed := consumed, suspendReq := false, phase := .dispatch
            g := maxU64 s.g (capAtHead s (sat64 (s.runBase.toNat + consumed.toNat))) } t) ∧
    (s.phase = .idle ∨ s.phase = .callback ∨ s.phase = .halted → exec (.runEnd c) s = .next (faulted 0x0002 0x0008 s))

/-- 41_run_loop.md R148: `CALLBACK_DONE`. -/
def Obligations.CallbackDoneCommand : Prop :=
  ∀ s : State,
    (s.phase = .callback → ∃ m t, exec .callbackDone s = .next t ∧
      Dispatches 0x0009 m { s with result := 0, phase := .dispatch } t) ∧
    (s.phase = .idle ∨ s.phase = .running ∨ s.phase = .halted →
      exec .callbackDone s = .next (faulted 0x0002 0x0009 s))

/-- 41_run_loop.md R142, 10_state.md R23, R25: a run is granted to the active driver of the highest priority
(42_driver_arbitration.md R173), up to the head event, and nothing but a grant writes the run's registers. -/
def Obligations.GrantGoesToHighestDriver : Prop :=
  (∀ (i : Instr) (s t : State), entersDispatch i → s.phase ∉ barredPhases i → exec i s = .next t → t.phase = .running →
    t.runBase = t.g ∧ t.runElapsed = 0 ∧ t.suspendReq = false ∧
    t.isActive t.runDrv = true ∧ (∀ d, t.isActive d = true → d.code ≤ t.runDrv.code) ∧
    ∃ k pre, headKind t = some k ∧ t.g < (t.slot k).t ∧ t.runBudget = (t.slot k).t - t.g ∧
      t.trace = s.trace ++ pre ++ [.runGrant t.runDrv t.runBudget]) ∧
  (∀ (i : Instr) (s t : State), exec i s = .next t →
    ¬ (entersDispatch i ∧ s.phase ∉ barredPhases i ∧ t.phase = .running) →
    t.runDrv = s.runDrv ∧ t.runBase = s.runBase ∧ t.runBudget = s.runBudget) ∧
  (∀ (i : Instr) (s t : State), exec i s = .next t → ¬ (entersDispatch i ∧ s.phase ∉ barredPhases i) →
    t.phase = s.phase ∧ t.cbKind = s.cbKind)

/-- 41_run_loop.md R149: a `Dispatch` that finds no pending event raises `EMPTY_QUEUE` and halts the block. -/
def Obligations.EmptyQueueHalts : Prop :=
  ∀ s : State, (∀ k, (s.slot k).v = false) →
    (s.phase = .idle → exec .start s = .next (emptyQueueHalt 0x0016 { s with result := 0 })) ∧
    (s.phase = .callback → exec .callbackDone s = .next (emptyQueueHalt 0x0009 { s with result := 0 })) ∧
    (s.phase = .running → ∀ c, ∃ t pre, exec (.runEnd c) s = .next t ∧ t.phase = .halted ∧
      t.faultStatus.getLsbD 7 = true ∧ t.trace = s.trace ++ pre ++ [.halt])

/-- 41_run_loop.md R141 to R145: what a `Dispatch` leaves alone: the stack, the timers' settings, the other drivers'
ledgers, every external event but the one that fires, the other fault bits, the parameters. -/
def Obligations.DispatchFrame : Prop :=
  ∀ (i : Instr) (s t : State), entersDispatch i → s.phase ∉ barredPhases i → exec i s = .next t →
    t.result = 0 ∧ t.active = s.active ∧ t.params = s.params ∧ t.inbox = s.inbox ∧
    (∀ n, (t.timer n).reload = (s.timer n).reload ∧ (t.timer n).ctrl = (s.timer n).ctrl) ∧
    (∀ d, d ≠ s.runDrv → t.ledgerOf d = s.ledgerOf d) ∧
    ((¬ ∃ c, i = .runEnd c) → t.ledger = s.ledger) ∧
    (∀ k : Fin 16, 5 ≤ k.val →
      t.slot k = s.slot k ∨ (t.phase = .callback ∧ t.cbKind = k ∧ t.slot k = { s.slot k with v := false })) ∧
    (t.phase ≠ .callback → t.cbKind = s.cbKind) ∧
    (t.phase ≠ .running → t.runDrv = s.runDrv ∧ t.runBase = s.runBase ∧ t.runBudget = s.runBudget) ∧
    t.faultStatus &&& 0xFF3F = s.faultStatus &&& 0xFF3F

/-- 41_run_loop.md R151: `G` never decreases, whatever the command. -/
def Obligations.TimeNeverDecreases : Prop :=
  ∀ (i : Instr) (s t : State), Inv s → exec i s = .next t → s.g ≤ t.g

/-! Driver arbitration. -/

/-- 42_driver_arbitration.md R171: `ENGAGE`. -/
def Obligations.EngageCommand : Prop :=
  ∀ (d : Fin 8) (s : State),
    (s.phase = .halted → exec (.engage d) s = .next (faulted 0x0002 (Instr.engage d).word s)) ∧
    (Live s → 5 ≤ d.val → exec (.engage d) s = .next (faulted 0x0004 (Instr.engage d).word (atEntry s))) ∧
    (Live s → ∀ drv, driverOf d = some drv →
      (s.isActive drv = true → exec (.engage d) s = .next (atEntry s)) ∧
      (s.isActive drv = false →
        exec (.engage d) s = .next
          (withStrobe (decide ((front s).code < drv.code)) (front s)
            { s with result := 0, g := seenTime s, active := s.active ||| (1#5 <<< drv.code.val) })))

/-- 42_driver_arbitration.md R172: `DISENGAGE`. -/
def Obligations.DisengageCommand : Prop :=
  ∀ (d : Fin 8) (s : State),
    (s.phase = .halted → exec (.disengage d) s = .next (faulted 0x0002 (Instr.disengage d).word s)) ∧
    (Live s → 5 ≤ d.val → exec (.disengage d) s = .next (faulted 0x0004 (Instr.disengage d).word (atEntry s))) ∧
    (Live s → d = 0 → exec (.disengage d) s = .next (faulted 0x0010 (Instr.disengage d).word (atEntry s))) ∧
    (Live s → ∀ drv, driverOf d = some drv → drv ≠ .cpu →
      (s.isActive drv = false → exec (.disengage d) s = .next (atEntry s)) ∧
      (s.isActive drv = true →
        exec (.disengage d) s = .next
          (withStrobe (decide (front s = drv)) drv
            { s with result := 0, g := seenTime s, active := s.active &&& ~~~(1#5 <<< drv.code.val) })))

/-! Bus cycle accounting. -/

/-- 44_bus_accounting.md R240: `CHARGE`. -/
def Obligations.ChargeCommand : Prop :=
  ∀ (d : Fin 8) (n : U64) (s : State),
    (s.phase = .halted → exec (.charge d n) s = .next (faulted 0x0002 (Instr.charge d n).word s)) ∧
    (Live s → 5 ≤ d.val → exec (.charge d n) s = .next (faulted 0x0004 (Instr.charge d n).word (atEntry s))) ∧
    (Live s → ∀ drv, driverOf d = some drv → ¬ (s.phase = .running ∧ drv = s.runDrv) →
      exec (.charge d n) s = .next (faulted 0x0020 (Instr.charge d n).word (atEntry s))) ∧
    (s.phase = .running → driverOf d = some s.runDrv →
      exec (.charge d n) s = .next
        { s with result := 0, g := seenTime s
                 ledger := s.ledger.set s.runDrv.code (sat64 ((s.ledgerOf s.runDrv).toNat + n.toNat))
                 runElapsed := sat64 (s.runElapsed.toNat + n.toNat) })

/-- 44_bus_accounting.md R241: `RD_LEDGER`. -/
def Obligations.RdLedgerCommand : Prop :=
  ∀ (d : Fin 8) (s : State), s.phase ≠ .dispatch →
    (5 ≤ d.val → exec (.rdLedger d) s = .next (faulted 0x0004 (Instr.rdLedger d).word (atEntry s))) ∧
    (∀ drv, driverOf d = some drv → exec (.rdLedger d) s = .next { s with g := seenTime s, result := s.ledgerOf drv })

/-- 42_driver_arbitration.md R174, 10_state.md R34: a ledger changes only by the running driver's `CHARGE` or by
`RUN_END`, it is the running driver's, and no ledger decreases. -/
def Obligations.OnlyTheRunningLedgerGrows : Prop :=
  ∀ (i : Instr) (s t : State), exec i s = .next t → ∀ d,
    s.ledgerOf d ≤ t.ledgerOf d ∧
    (t.ledgerOf d ≠ s.ledgerOf d →
      s.phase = .running ∧ d = s.runDrv ∧
        ((∃ e n, i = .charge e n ∧ driverOf e = some s.runDrv) ∨ ∃ c, i = .runEnd c))

/-- 44_bus_accounting.md R243, without its proof quantity `DISCARDED`: while no ledger has saturated, the ledgers cover
the Time Base, and every step keeps that. -/
def Obligations.LedgersCoverTimeKept : Prop :=
  ∀ s t : State, Inv s → LedgersCoverTime s → step s = .next t → LedgersCoverTime t

/-! Timers. -/

/-- 43_timer_cascade.md R192: `Advance` is `k` single counts, each from `0xFFFF` an overflow that loads the reload. -/
def Obligations.AdvanceIsRepeatedCount : Prop :=
  ∀ (v r : U16) (k : Nat), advance v r k = countUp r k v

/-- 43_timer_cascade.md R209, its first claim: a fold on the way changes nothing of a later fold. -/
def Obligations.FoldInvariance : Prop :=
  ∀ (p : Params) (ts : TimerBank) (t u : U64), RootsBehind t ts → t ≤ u →
    syncBank p u (syncBank p t ts) = syncBank p u ts

/-- 43_timer_cascade.md R209 and R194: the next overflow time is the first time to which a fold makes the timer overflow;
a fold to a time before it leaves it alone, and after a fold it lies ahead. The spec claims the second for every fold; its
own pseudocode gives it only before the overflow (log entry 14). -/
def Obligations.NextOverflowAndFold : Prop :=
  ∀ (p : Params) (ts : TimerBank) (t : U64) (n : Fin 4), RootsBehind t ts → counting ts n = true → t < max64 →
    (∃ k, FoldCounts p t ts k) ∧
    (∀ k, FoldCounts p t ts k →
      (t < nextOverflowTime p ts n ↔ (advance ts[n].value ts[n].reload (k n)).2 = 0)) ∧
    (t < nextOverflowTime p ts n → nextOverflowTime p (syncBank p t ts) n = nextOverflowTime p ts n) ∧
    t < nextOverflowTime p (syncBank p t ts) n

/-- 43_timer_cascade.md R195: at its overflow every timer of the chain holds its reload, and the next overflow is one
period later. -/
def Obligations.PeriodAfterOverflow : Prop :=
  ∀ (p : Params) (ts : TimerBank) (n : Fin 4) (f : U64), RootsBehind f ts → counting ts n = true →
    nextOverflowTime p ts n = f → f < max64 →
    (∀ j, rootOf ts n ≤ j → j ≤ n → (syncBank p f ts)[j].value = ts[j].reload) ∧
    nextOverflowTime p (syncBank p f ts) n = sat64 (f.toNat + period p ts n)

/-- 43_timer_cascade.md R202 with the fold of R193: `TMR_RD_COUNTER`. Every timer takes its ticks of the fold, an enabled
root moves its `TREF` by them; the value of a timer that does not count is the old one, and that of an enabled root is
given as a formula. -/
def Obligations.TmrRdCounterCommand : Prop :=
  ∀ (n : Fin 4) (s : State), s.phase ≠ .dispatch →
    let b := syncBank s.params (seenTime s) s.tmr
    exec (.tmrRdCounter n) s = .next { s with g := seenTime s, tmr := b, result := b[n].value.setWidth 64 } ∧
    (counting s.tmr n = false → b[n].value = (s.timer n).value) ∧
    (isRoot s.tmr n = true → (s.timer n).ctrl.en = true →
      let ticks := ((seenTime s).toNat - (s.timer n).tref.toNat) / s.params.prescale[(s.timer n).ctrl.ps.toFin].val
      let sum := (s.timer n).value.toNat + ticks
      b[n].value.toNat =
        if sum < 0x10000 then sum
        else (s.timer n).reload.toNat + (sum - 0x10000) % (0x10000 - (s.timer n).reload.toNat)) ∧
    (∃ k, FoldCounts s.params (seenTime s) s.tmr k ∧
      ∀ j : Fin 4, b[j] =
        { s.timer j with
          value := (advance (s.timer j).value (s.timer j).reload (k j)).1
          tref :=
            if isRoot s.tmr j = true ∧ (s.timer j).ctrl.en = true then
              sat64 ((s.timer j).tref.toNat + k j * s.params.prescale[(s.timer j).ctrl.ps.toFin].val)
            else (s.timer j).tref })

/-- 43_timer_cascade.md R203, R204: `TMR_RD_CONTROL` and `TMR_RD_RELOAD`, with no sync. -/
def Obligations.TmrRdControlAndReload : Prop :=
  ∀ (n : Fin 4) (s : State), s.phase ≠ .dispatch →
    (∃ w : U64, exec (.tmrRdControl n) s = .next { s with g := seenTime s, result := w } ∧
      w.toNat = (s.timer n).ctrl.en.toNat * 0x80 + (s.timer n).ctrl.irqen.toNat * 0x40 +
        (s.timer n).ctrl.cascade.toNat * 4 + (s.timer n).ctrl.ps.toNat) ∧
    exec (.tmrRdReload n) s = .next { s with g := seenTime s, result := (s.timer n).reload.setWidth 64 }

/-- 43_timer_cascade.md R205: `TMR_RD_NEXT_OVF`. -/
def Obligations.TmrRdNextOvfCommand : Prop :=
  ∀ (n : Fin 4) (s : State), s.phase ≠ .dispatch →
    let b := syncBank s.params (seenTime s) s.tmr
    exec (.tmrRdNextOvf n) s = .next
      { s with g := seenTime s, tmr := b
               result := if counting s.tmr n then nextOverflowTime s.params b n else 0xFFFFFFFFFFFFFFFF }

/-- 43_timer_cascade.md R200: `TMR_WR_RELOAD`: the reload is stored, the counter is not, and the affected overflow events
are brought up to date. -/
def Obligations.TmrWrReloadCommand : Prop :=
  ∀ (n : Fin 4) (v : U16) (s : State),
    (s.phase = .halted → exec (.tmrWrReload n v) s = .next (faulted 0x0002 (Instr.tmrWrReload n v).word s)) ∧
    (Live s →
      let b := syncBank s.params (seenTime s) s.tmr
      ∃ t, exec (.tmrWrReload n v) s = .next t ∧ TimersRewritten n (b.set n { b[n] with reload := v }) s t)

/-- 43_timer_cascade.md R201, with R198 and R199: `TMR_WR_CONTROL`: the control is stored; enabling loads the counter and
anchors the phase; a timer left enabled restarts its phase if it is a root after the write and its prescaler changed
or it was no root before; the affected overflow events are brought up to date. -/
def Obligations.TmrWrControlCommand : Prop :=
  ∀ (n : Fin 4) (w : U16) (s : State),
    (s.phase = .halted → exec (.tmrWrControl n w) s = .next (faulted 0x0002 (Instr.tmrWrControl n w).word s)) ∧
    (Live s →
      let b := syncBank s.params (seenTime s) s.tmr
      let c : TimerCtrl :=
        { en := w.getLsbD 7, cascade := w.getLsbD 2, ps := w.extractLsb' 0 2, irqen := w.getLsbD 6 }
      let enable := b[n].ctrl.en = false ∧ c.en = true
      let restart := c.en = true ∧ (n = 0 ∨ c.cascade = false) ∧
        (b[n].ctrl.ps ≠ c.ps ∨ ¬ (n = 0 ∨ b[n].ctrl.cascade = false))
      ∃ x t, exec (.tmrWrControl n w) s = .next t ∧ TimersRewritten n (b.set n x) s t ∧
        x.ctrl = c ∧ x.reload = b[n].reload ∧
        (enable → x.value = b[n].reload ∧ x.tref = seenTime s) ∧
        (¬ enable → x.value = b[n].value) ∧
        (¬ enable → restart → x.tref = seenTime s) ∧
        (¬ enable → ¬ restart → x.tref = b[n].tref))

/-- 43_timer_cascade.md R190: of a control word written, bits 1:0, 2, 6 and 7 read back, the others as 0. -/
def Obligations.ControlWordReadsBack : Prop :=
  ∀ (n : Fin 4) (w : U16) (s : State), Live s →
    ∃ t u, exec (.tmrWrControl n w) s = .next t ∧ exec (.tmrRdControl n) t = .next u ∧
      u.result = (w &&& 0x00C7).setWidth 64

/-- 43_timer_cascade.md R206, with R277 and R101: the overflow callback: the timers are folded to now, the timer's source is
raised, which inserts a delivery if none is pending, and after it the timer's event is set again, later than now, if it
counts, has its interrupt enabled and overflows before the horizon; each insertion takes the next sequence number and
strobes the front driver if it becomes the head. Nothing else changes. -/
def Obligations.TimerOverflowCallback : Prop :=
  ∀ (n : Fin 4) (s : State), (s.slot (timerKind n)).v = false →
    let t := timerOverflowEvent n s
    let b := syncBank s.params s.g s.tmr
    let raised := { s with tmr := b, irqPending := s.irqPending ||| (1#16 <<< s.params.timerSrcBit[n].val) }
    let delivery : Slot := { v := true, t := sat64 (s.g.toNat + s.params.irqDelay), s := s.seqNext }
    let evt := s.evt.set irqKind delivery
    let posted :=
      if (s.slot irqKind).v = true then raised
      else
        withStrobe (decide (headKind { s with evt := evt } = some irqKind)) (front s)
          { raised with evt := evt, seqNext := sat64 (s.seqNext.toNat + 1) }
    let again : Slot := { v := true, t := nextOverflowTime s.params b n, s := posted.seqNext }
    let evt' := posted.evt.set (timerKind n) again
    (ToHaveEvent s.params b n →
      s.g < again.t ∧
      t = withStrobe (decide (headKind { s with evt := evt' } = some (timerKind n))) (front s)
        { posted with evt := evt', seqNext := sat64 (posted.seqNext.toNat + 1) }) ∧
    (¬ ToHaveEvent s.params b n → t = posted)

/-! Interrupts, status, fault control. -/

/-- 60_exceptions.md R278: a due delivery asserts the pending mask and clears it, first of all the `Dispatch` does. -/
def Obligations.InterruptDelivery : Prop :=
  (∀ s : State, irqDeliver s = { s with trace := s.trace ++ [.irqAssert s.irqPending], irqPending := 0 }) ∧
  (∀ s : State, s.phase = .callback → headKind s = some irqKind → (s.slot irqKind).t ≤ s.g →
    ∃ t rest, exec .callbackDone s = .next t ∧ t.trace = s.trace ++ .irqAssert s.irqPending :: rest)

/-- 45_status_irq.md R255, 60_exceptions.md R277: `RAISE_IRQ`. The delay is whatever the instance's `IRQ_DELAY` is. -/
def Obligations.RaiseIrqCommand : Prop :=
  ∀ (m : U16) (s : State),
    (s.phase = .halted → exec (.raiseIrq m) s = .next (faulted 0x0002 0x0010 s)) ∧
    (Live s → m = 0 → exec (.raiseIrq m) s = .next (atEntry s)) ∧
    (Live s → m ≠ 0 → (s.slot irqKind).v = true →
      exec (.raiseIrq m) s = .next { s with result := 0, g := seenTime s, irqPending := s.irqPending ||| m }) ∧
    (Live s → m ≠ 0 → (s.slot irqKind).v = false →
      let evt := s.evt.set irqKind
        { v := true, t := sat64 ((seenTime s).toNat + s.params.irqDelay), s := s.seqNext }
      exec (.raiseIrq m) s = .next
        (withStrobe (decide (headKind { s with evt := evt } = some irqKind)) (front s)
          { s with result := 0, g := seenTime s, irqPending := s.irqPending ||| m, evt := evt
                   seqNext := sat64 (s.seqNext.toNat + 1) }))

/-- 45_status_irq.md R256 with the status map of 10_state.md R43. Selectors 12 to 15 are no command: their word is
illegal. -/
def Obligations.RdStatusCommand : Prop :=
  ∀ (sel : Fin 16) (s : State),
    s.phase ≠ .dispatch → sel.val < 12 →
      ∃ v : U64, exec (.rdStatus sel) s = .next { s with g := seenTime s, result := v } ∧
        (sel = 0 → v = s.faultStatus.setWidth 64) ∧
        (sel = 1 → v = s.faultCmd.setWidth 64) ∧
        (sel = 2 →
          (v.extractLsb' 0 3).toNat =
            (match s.phase with | .idle => 0 | .running => 1 | .callback => 2 | .halted => 3 | .dispatch => 4) ∧
          (v.extractLsb' 4 3).toNat = (if s.phase = .running then s.runDrv.code.val else 0) ∧
          (v.extractLsb' 8 4).toNat = (if s.phase = .callback then s.cbKind.val else 0) ∧
          v.getLsbD 12 = s.suspendReq ∧ v &&& ~~~0x1F77#64 = 0) ∧
        (sel = 3 → v = s.activeMask.setWidth 64 ∧ v.getLsbD 0 = true) ∧
        (sel = 4 → v.toNat = (front s).code.val) ∧
        (sel = 5 → v.toNat < 0x10000 ∧ ∀ k : Fin 16, v.getLsbD k.val = (s.slot k).v) ∧
        (sel = 6 → ((∀ k, (s.slot k).v = false) → v = 0) ∧ ∀ k, headKind s = some k → v.toNat = 16 + k.val) ∧
        (sel = 7 → v = s.irqPending.setWidth 64) ∧
        (sel = 8 → v = s.runBase) ∧
        (sel = 9 → v = s.runElapsed) ∧
        (sel = 10 → v = s.runBudget) ∧
        (sel = 11 → v = s.seqNext)

/-- 45_status_irq.md R257: `CLR_FAULT`, in every phase. -/
def Obligations.ClrFaultCommand : Prop :=
  ∀ s : State, s.phase ≠ .dispatch →
    exec .clrFault s = .next { s with result := 0, g := seenTime s, faultStatus := 0, faultCmd := 0 }

/-! The whole machine. -/

/-- 20_memory.md R65 and 41_run_loop.md R150: every command completes, in every phase a command can meet, and never leaves
the block inside `Dispatch`. -/
def Obligations.EveryCommandCompletes : Prop :=
  ∀ (i : Instr) (s : State), s.phase ≠ .dispatch → ∃ t, exec i s = .next t ∧ t.phase ≠ .dispatch

/-- 20_memory.md R66: a read command issued again with no command between changes nothing and answers the same. -/
def Obligations.ReadsAreIdempotent : Prop :=
  ∀ (i : Instr) (s t : State), isRead i = true → exec i s = .next t → exec i t = .next t

/-- 00_scope.md R16: the trace only grows; a granted budget is at least one cycle, a fired kind is external, an asserted
mask is not zero. -/
def Obligations.OutputsAreWellFormed : Prop :=
  ∀ (i : Instr) (s t : State), Inv s → exec i s = .next t →
    ∃ new, t.trace = s.trace ++ new ∧
      (∀ d b, .runGrant d b ∈ new → 1 ≤ b.toNat) ∧ (∀ k, .fire k ∈ new → 5 ≤ k.val) ∧
      (∀ m, .irqAssert m ∈ new → m ≠ 0)

/-- 60_exceptions.md R287: a client that follows the protocol raises no fault. The protocol's last point, an event always
pending when the Run Loop looks, is taken here as an external event pending when the command is issued. -/
def Obligations.ProtocolRaisesNoFault : Prop :=
  ∀ (i : Instr) (s : State), s.phase ≠ .dispatch → FollowsProtocol s i →
    ∃ t, exec i s = .next t ∧ t.faultStatus = (if i = .clrFault then 0 else s.faultStatus) ∧
      (t.phase = .halted → s.phase = .halted)

/-- 10_state.md R46: no step writes the parameters, and a step takes at most one input. -/
def Obligations.ParamsNeverWritten : Prop :=
  ∀ s t : State, step s = .next t → t.params = s.params ∧ t.inbox = s.inbox.tail

/-- 70_reset_and_hazards.md R303: the invariants of 10_state.md R45 hold after reset, item 8 also of the timers as they
stand. -/
def Obligations.InvAtReset : Prop := R45 State.reset ∧ TimerEventAsWorded State.reset

/-- 70_reset_and_hazards.md R303: every step keeps the invariants of 10_state.md R45, all nine items. In item 8
`NextOverflowTime(n)` is the value that "does not change between reconfigurations", as the item itself says (log entry
14). -/
def Obligations.EveryStepKeepsR45 : Prop :=
  ∀ s t : State, R45 s → step s = .next t → R45 t

/-- 10_state.md R45 item 8, its last sentence: a timer's event changes only when a timer is written or the event fires, and
then item 8 holds word for word of that timer as it stands. -/
def Obligations.TimerEventSetAsWorded : Prop :=
  ∀ (i : Instr) (s t : State) (n : Fin 4), Inv s → exec i s = .next t →
    t.slot (timerKind n) ≠ s.slot (timerKind n) →
    ((∃ m v, i = .tmrWrReload m v ∨ i = .tmrWrControl m v) ∨
      (entersDispatch i ∧ (s.slot (timerKind n)).v = true ∧ (s.slot (timerKind n)).t = t.g)) ∧
    ((t.slot (timerKind n)).v = true ↔
      counting t.tmr n = true ∧ (t.timer n).ctrl.irqen = true ∧ nextOverflowTime t.params t.tmr n < max64) ∧
    ((t.slot (timerKind n)).v = true → (t.slot (timerKind n)).t = nextOverflowTime t.params t.tmr n)

/-- 10_state.md R45, 70_reset_and_hazards.md R303: every step keeps the invariants. Of item 8, `NextOverflowTime(n) < MAX64`
from left to right stands as `EVT[n].T < MAX64`, and `EVT[n].T = NextOverflowTime(n)` is left to `EveryStepKeepsR45`,
`TimerEventAtNextOverflowOrDueKept` and `TimerEventAsWordedUnlessDue` (log entry 14). -/
def Obligations.EveryStepKeepsInv : Prop :=
  ∀ s t : State, Inv s → step s = .next t → Inv t

/-- What the pseudocode keeps of R45 item 8's claim about `EVT[n].T`: the event is at the timer's next overflow, or it is
due now and the next overflow is one period later (log entry 14). -/
def Obligations.TimerEventAtNextOverflowOrDueKept : Prop :=
  ∀ s t : State, Inv s → TimerEventAtNextOverflowOrDue s → step s = .next t → TimerEventAtNextOverflowOrDue t

/-- 10_state.md R45 item 8, 70_reset_and_hazards.md R303: item 8 holds word for word after every step that leaves no timer's
event due; a due one is what log entry 14 is about. -/
def Obligations.TimerEventAsWordedUnlessDue : Prop :=
  ∀ s t : State, Inv s → TimerEventAtNextOverflowOrDue s → step s = .next t →
    (∀ n, (t.slot (timerKind n)).v = true → t.g < (t.slot (timerKind n)).t) → TimerEventAsWorded t

/-- R45 item 8, read of the timers as they stand, is not kept by the spec's own pseudocode: a counter read whose flush
reaches the overflow folds past it while its event is still pending, so that `EVT[n].T` is not `NextOverflowTime(n)`; and for
a chain whose period reaches the horizon, `NextOverflowTime(n) < MAX64` fails with the event pending (log entry 14). -/
def Obligations.TimerEventClaimBreaks : Prop :=
  (∃ s t : State, Inv s ∧ TimerEventAsWorded s ∧ step s = .next t ∧ ¬ TimerEventAtNextOverflow t) ∧
  (∃ s t : State, Inv s ∧ TimerEventAsWorded s ∧ step s = .next t ∧
    ∃ n, (t.slot (timerKind n)).v = true ∧ ¬ nextOverflowTime t.params t.tmr n < max64)
end

