-- ==== Sys2Proof/Laws/State.lean ====
section
/-! SUPPORT. One lemma per field of State for each named update of one field, true by rfl, and what the accessors read
after an update. -/

namespace Sys2Proof.Machine

@[simp] theorem State.setSlot_g (s : State) (k : Fin 16) (e : Slot) : (s.setSlot k e).g = s.g := rfl
@[simp] theorem State.setSlot_phase (s : State) (k : Fin 16) (e : Slot) : (s.setSlot k e).phase = s.phase := rfl
@[simp] theorem State.setSlot_runDrv (s : State) (k : Fin 16) (e : Slot) : (s.setSlot k e).runDrv = s.runDrv := rfl
@[simp] theorem State.setSlot_runBase (s : State) (k : Fin 16) (e : Slot) : (s.setSlot k e).runBase = s.runBase := rfl
@[simp] theorem State.setSlot_runElapsed (s : State) (k : Fin 16) (e : Slot) : (s.setSlot k e).runElapsed = s.runElapsed := rfl
@[simp] theorem State.setSlot_runBudget (s : State) (k : Fin 16) (e : Slot) : (s.setSlot k e).runBudget = s.runBudget := rfl
@[simp] theorem State.setSlot_suspendReq (s : State) (k : Fin 16) (e : Slot) : (s.setSlot k e).suspendReq = s.suspendReq := rfl
@[simp] theorem State.setSlot_cbKind (s : State) (k : Fin 16) (e : Slot) : (s.setSlot k e).cbKind = s.cbKind := rfl
@[simp] theorem State.setSlot_evt (s : State) (k : Fin 16) (e : Slot) : (s.setSlot k e).evt = s.evt.set k e := rfl
@[simp] theorem State.setSlot_seqNext (s : State) (k : Fin 16) (e : Slot) : (s.setSlot k e).seqNext = s.seqNext := rfl
@[simp] theorem State.setSlot_active (s : State) (k : Fin 16) (e : Slot) : (s.setSlot k e).active = s.active := rfl
@[simp] theorem State.setSlot_ledger (s : State) (k : Fin 16) (e : Slot) : (s.setSlot k e).ledger = s.ledger := rfl
@[simp] theorem State.setSlot_tmr (s : State) (k : Fin 16) (e : Slot) : (s.setSlot k e).tmr = s.tmr := rfl
@[simp] theorem State.setSlot_irqPending (s : State) (k : Fin 16) (e : Slot) : (s.setSlot k e).irqPending = s.irqPending := rfl
@[simp] theorem State.setSlot_faultStatus (s : State) (k : Fin 16) (e : Slot) : (s.setSlot k e).faultStatus = s.faultStatus := rfl
@[simp] theorem State.setSlot_faultCmd (s : State) (k : Fin 16) (e : Slot) : (s.setSlot k e).faultCmd = s.faultCmd := rfl
@[simp] theorem State.setSlot_result (s : State) (k : Fin 16) (e : Slot) : (s.setSlot k e).result = s.result := rfl
@[simp] theorem State.setSlot_trace (s : State) (k : Fin 16) (e : Slot) : (s.setSlot k e).trace = s.trace := rfl
@[simp] theorem State.setSlot_inbox (s : State) (k : Fin 16) (e : Slot) : (s.setSlot k e).inbox = s.inbox := rfl
@[simp] theorem State.setSlot_params (s : State) (k : Fin 16) (e : Slot) : (s.setSlot k e).params = s.params := rfl
@[simp] theorem State.setSlot_freeCtr (s : State) (k : Fin 16) (e : Slot) : (s.setSlot k e).freeCtr = s.freeCtr := rfl

@[simp] theorem State.setLedger_g (s : State) (d : Driver) (v : U64) : (s.setLedger d v).g = s.g := rfl
@[simp] theorem State.setLedger_phase (s : State) (d : Driver) (v : U64) : (s.setLedger d v).phase = s.phase := rfl
@[simp] theorem State.setLedger_runDrv (s : State) (d : Driver) (v : U64) : (s.setLedger d v).runDrv = s.runDrv := rfl
@[simp] theorem State.setLedger_runBase (s : State) (d : Driver) (v : U64) : (s.setLedger d v).runBase = s.runBase := rfl
@[simp] theorem State.setLedger_runElapsed (s : State) (d : Driver) (v : U64) : (s.setLedger d v).runElapsed = s.runElapsed := rfl
@[simp] theorem State.setLedger_runBudget (s : State) (d : Driver) (v : U64) : (s.setLedger d v).runBudget = s.runBudget := rfl
@[simp] theorem State.setLedger_suspendReq (s : State) (d : Driver) (v : U64) : (s.setLedger d v).suspendReq = s.suspendReq := rfl
@[simp] theorem State.setLedger_cbKind (s : State) (d : Driver) (v : U64) : (s.setLedger d v).cbKind = s.cbKind := rfl
@[simp] theorem State.setLedger_evt (s : State) (d : Driver) (v : U64) : (s.setLedger d v).evt = s.evt := rfl
@[simp] theorem State.setLedger_seqNext (s : State) (d : Driver) (v : U64) : (s.setLedger d v).seqNext = s.seqNext := rfl
@[simp] theorem State.setLedger_active (s : State) (d : Driver) (v : U64) : (s.setLedger d v).active = s.active := rfl
@[simp] theorem State.setLedger_ledger (s : State) (d : Driver) (v : U64) : (s.setLedger d v).ledger = s.ledger.set d.code v := rfl
@[simp] theorem State.setLedger_tmr (s : State) (d : Driver) (v : U64) : (s.setLedger d v).tmr = s.tmr := rfl
@[simp] theorem State.setLedger_irqPending (s : State) (d : Driver) (v : U64) : (s.setLedger d v).irqPending = s.irqPending := rfl
@[simp] theorem State.setLedger_faultStatus (s : State) (d : Driver) (v : U64) : (s.setLedger d v).faultStatus = s.faultStatus := rfl
@[simp] theorem State.setLedger_faultCmd (s : State) (d : Driver) (v : U64) : (s.setLedger d v).faultCmd = s.faultCmd := rfl
@[simp] theorem State.setLedger_result (s : State) (d : Driver) (v : U64) : (s.setLedger d v).result = s.result := rfl
@[simp] theorem State.setLedger_trace (s : State) (d : Driver) (v : U64) : (s.setLedger d v).trace = s.trace := rfl
@[simp] theorem State.setLedger_inbox (s : State) (d : Driver) (v : U64) : (s.setLedger d v).inbox = s.inbox := rfl
@[simp] theorem State.setLedger_params (s : State) (d : Driver) (v : U64) : (s.setLedger d v).params = s.params := rfl
@[simp] theorem State.setLedger_freeCtr (s : State) (d : Driver) (v : U64) : (s.setLedger d v).freeCtr = s.freeCtr := rfl

@[simp] theorem State.setTimer_g (s : State) (n : Fin 4) (x : Timer) : (s.setTimer n x).g = s.g := rfl
@[simp] theorem State.setTimer_phase (s : State) (n : Fin 4) (x : Timer) : (s.setTimer n x).phase = s.phase := rfl
@[simp] theorem State.setTimer_runDrv (s : State) (n : Fin 4) (x : Timer) : (s.setTimer n x).runDrv = s.runDrv := rfl
@[simp] theorem State.setTimer_runBase (s : State) (n : Fin 4) (x : Timer) : (s.setTimer n x).runBase = s.runBase := rfl
@[simp] theorem State.setTimer_runElapsed (s : State) (n : Fin 4) (x : Timer) : (s.setTimer n x).runElapsed = s.runElapsed := rfl
@[simp] theorem State.setTimer_runBudget (s : State) (n : Fin 4) (x : Timer) : (s.setTimer n x).runBudget = s.runBudget := rfl
@[simp] theorem State.setTimer_suspendReq (s : State) (n : Fin 4) (x : Timer) : (s.setTimer n x).suspendReq = s.suspendReq := rfl
@[simp] theorem State.setTimer_cbKind (s : State) (n : Fin 4) (x : Timer) : (s.setTimer n x).cbKind = s.cbKind := rfl
@[simp] theorem State.setTimer_evt (s : State) (n : Fin 4) (x : Timer) : (s.setTimer n x).evt = s.evt := rfl
@[simp] theorem State.setTimer_seqNext (s : State) (n : Fin 4) (x : Timer) : (s.setTimer n x).seqNext = s.seqNext := rfl
@[simp] theorem State.setTimer_active (s : State) (n : Fin 4) (x : Timer) : (s.setTimer n x).active = s.active := rfl
@[simp] theorem State.setTimer_ledger (s : State) (n : Fin 4) (x : Timer) : (s.setTimer n x).ledger = s.ledger := rfl
@[simp] theorem State.setTimer_tmr (s : State) (n : Fin 4) (x : Timer) : (s.setTimer n x).tmr = s.tmr.set n x := rfl
@[simp] theorem State.setTimer_irqPending (s : State) (n : Fin 4) (x : Timer) : (s.setTimer n x).irqPending = s.irqPending := rfl
@[simp] theorem State.setTimer_faultStatus (s : State) (n : Fin 4) (x : Timer) : (s.setTimer n x).faultStatus = s.faultStatus := rfl
@[simp] theorem State.setTimer_faultCmd (s : State) (n : Fin 4) (x : Timer) : (s.setTimer n x).faultCmd = s.faultCmd := rfl
@[simp] theorem State.setTimer_result (s : State) (n : Fin 4) (x : Timer) : (s.setTimer n x).result = s.result := rfl
@[simp] theorem State.setTimer_trace (s : State) (n : Fin 4) (x : Timer) : (s.setTimer n x).trace = s.trace := rfl
@[simp] theorem State.setTimer_inbox (s : State) (n : Fin 4) (x : Timer) : (s.setTimer n x).inbox = s.inbox := rfl
@[simp] theorem State.setTimer_params (s : State) (n : Fin 4) (x : Timer) : (s.setTimer n x).params = s.params := rfl
@[simp] theorem State.setTimer_freeCtr (s : State) (n : Fin 4) (x : Timer) : (s.setTimer n x).freeCtr = s.freeCtr := rfl

@[simp] theorem State.setActive_g (s : State) (d : Driver) : (s.setActive d).g = s.g := rfl
@[simp] theorem State.setActive_phase (s : State) (d : Driver) : (s.setActive d).phase = s.phase := rfl
@[simp] theorem State.setActive_runDrv (s : State) (d : Driver) : (s.setActive d).runDrv = s.runDrv := rfl
@[simp] theorem State.setActive_runBase (s : State) (d : Driver) : (s.setActive d).runBase = s.runBase := rfl
@[simp] theorem State.setActive_runElapsed (s : State) (d : Driver) : (s.setActive d).runElapsed = s.runElapsed := rfl
@[simp] theorem State.setActive_runBudget (s : State) (d : Driver) : (s.setActive d).runBudget = s.runBudget := rfl
@[simp] theorem State.setActive_suspendReq (s : State) (d : Driver) : (s.setActive d).suspendReq = s.suspendReq := rfl
@[simp] theorem State.setActive_cbKind (s : State) (d : Driver) : (s.setActive d).cbKind = s.cbKind := rfl
@[simp] theorem State.setActive_evt (s : State) (d : Driver) : (s.setActive d).evt = s.evt := rfl
@[simp] theorem State.setActive_seqNext (s : State) (d : Driver) : (s.setActive d).seqNext = s.seqNext := rfl
@[simp] theorem State.setActive_active (s : State) (d : Driver) : (s.setActive d).active = s.active ||| (1#5 <<< d.code.val) := rfl
@[simp] theorem State.setActive_ledger (s : State) (d : Driver) : (s.setActive d).ledger = s.ledger := rfl
@[simp] theorem State.setActive_tmr (s : State) (d : Driver) : (s.setActive d).tmr = s.tmr := rfl
@[simp] theorem State.setActive_irqPending (s : State) (d : Driver) : (s.setActive d).irqPending = s.irqPending := rfl
@[simp] theorem State.setActive_faultStatus (s : State) (d : Driver) : (s.setActive d).faultStatus = s.faultStatus := rfl
@[simp] theorem State.setActive_faultCmd (s : State) (d : Driver) : (s.setActive d).faultCmd = s.faultCmd := rfl
@[simp] theorem State.setActive_result (s : State) (d : Driver) : (s.setActive d).result = s.result := rfl
@[simp] theorem State.setActive_trace (s : State) (d : Driver) : (s.setActive d).trace = s.trace := rfl
@[simp] theorem State.setActive_inbox (s : State) (d : Driver) : (s.setActive d).inbox = s.inbox := rfl
@[simp] theorem State.setActive_params (s : State) (d : Driver) : (s.setActive d).params = s.params := rfl
@[simp] theorem State.setActive_freeCtr (s : State) (d : Driver) : (s.setActive d).freeCtr = s.freeCtr := rfl

@[simp] theorem State.clearActive_g (s : State) (d : Driver) : (s.clearActive d).g = s.g := rfl
@[simp] theorem State.clearActive_phase (s : State) (d : Driver) : (s.clearActive d).phase = s.phase := rfl
@[simp] theorem State.clearActive_runDrv (s : State) (d : Driver) : (s.clearActive d).runDrv = s.runDrv := rfl
@[simp] theorem State.clearActive_runBase (s : State) (d : Driver) : (s.clearActive d).runBase = s.runBase := rfl
@[simp] theorem State.clearActive_runElapsed (s : State) (d : Driver) : (s.clearActive d).runElapsed = s.runElapsed := rfl
@[simp] theorem State.clearActive_runBudget (s : State) (d : Driver) : (s.clearActive d).runBudget = s.runBudget := rfl
@[simp] theorem State.clearActive_suspendReq (s : State) (d : Driver) : (s.clearActive d).suspendReq = s.suspendReq := rfl
@[simp] theorem State.clearActive_cbKind (s : State) (d : Driver) : (s.clearActive d).cbKind = s.cbKind := rfl
@[simp] theorem State.clearActive_evt (s : State) (d : Driver) : (s.clearActive d).evt = s.evt := rfl
@[simp] theorem State.clearActive_seqNext (s : State) (d : Driver) : (s.clearActive d).seqNext = s.seqNext := rfl
@[simp] theorem State.clearActive_active (s : State) (d : Driver) : (s.clearActive d).active = s.active &&& ~~~(1#5 <<< d.code.val) := rfl
@[simp] theorem State.clearActive_ledger (s : State) (d : Driver) : (s.clearActive d).ledger = s.ledger := rfl
@[simp] theorem State.clearActive_tmr (s : State) (d : Driver) : (s.clearActive d).tmr = s.tmr := rfl
@[simp] theorem State.clearActive_irqPending (s : State) (d : Driver) : (s.clearActive d).irqPending = s.irqPending := rfl
@[simp] theorem State.clearActive_faultStatus (s : State) (d : Driver) : (s.clearActive d).faultStatus = s.faultStatus := rfl
@[simp] theorem State.clearActive_faultCmd (s : State) (d : Driver) : (s.clearActive d).faultCmd = s.faultCmd := rfl
@[simp] theorem State.clearActive_result (s : State) (d : Driver) : (s.clearActive d).result = s.result := rfl
@[simp] theorem State.clearActive_trace (s : State) (d : Driver) : (s.clearActive d).trace = s.trace := rfl
@[simp] theorem State.clearActive_inbox (s : State) (d : Driver) : (s.clearActive d).inbox = s.inbox := rfl
@[simp] theorem State.clearActive_params (s : State) (d : Driver) : (s.clearActive d).params = s.params := rfl
@[simp] theorem State.clearActive_freeCtr (s : State) (d : Driver) : (s.clearActive d).freeCtr = s.freeCtr := rfl

@[simp] theorem emit_g (e : Output) (s : State) : (emit e s).g = s.g := rfl
@[simp] theorem emit_phase (e : Output) (s : State) : (emit e s).phase = s.phase := rfl
@[simp] theorem emit_runDrv (e : Output) (s : State) : (emit e s).runDrv = s.runDrv := rfl
@[simp] theorem emit_runBase (e : Output) (s : State) : (emit e s).runBase = s.runBase := rfl
@[simp] theorem emit_runElapsed (e : Output) (s : State) : (emit e s).runElapsed = s.runElapsed := rfl
@[simp] theorem emit_runBudget (e : Output) (s : State) : (emit e s).runBudget = s.runBudget := rfl
@[simp] theorem emit_suspendReq (e : Output) (s : State) : (emit e s).suspendReq = s.suspendReq := rfl
@[simp] theorem emit_cbKind (e : Output) (s : State) : (emit e s).cbKind = s.cbKind := rfl
@[simp] theorem emit_evt (e : Output) (s : State) : (emit e s).evt = s.evt := rfl
@[simp] theorem emit_seqNext (e : Output) (s : State) : (emit e s).seqNext = s.seqNext := rfl
@[simp] theorem emit_active (e : Output) (s : State) : (emit e s).active = s.active := rfl
@[simp] theorem emit_ledger (e : Output) (s : State) : (emit e s).ledger = s.ledger := rfl
@[simp] theorem emit_tmr (e : Output) (s : State) : (emit e s).tmr = s.tmr := rfl
@[simp] theorem emit_irqPending (e : Output) (s : State) : (emit e s).irqPending = s.irqPending := rfl
@[simp] theorem emit_faultStatus (e : Output) (s : State) : (emit e s).faultStatus = s.faultStatus := rfl
@[simp] theorem emit_faultCmd (e : Output) (s : State) : (emit e s).faultCmd = s.faultCmd := rfl
@[simp] theorem emit_result (e : Output) (s : State) : (emit e s).result = s.result := rfl
@[simp] theorem emit_trace (e : Output) (s : State) : (emit e s).trace = s.trace ++ [e] := rfl
@[simp] theorem emit_inbox (e : Output) (s : State) : (emit e s).inbox = s.inbox := rfl
@[simp] theorem emit_params (e : Output) (s : State) : (emit e s).params = s.params := rfl
@[simp] theorem emit_freeCtr (e : Output) (s : State) : (emit e s).freeCtr = s.freeCtr := rfl

@[simp] theorem timerSyncAll_g (t : U64) (s : State) : (timerSyncAll t s).g = s.g := rfl
@[simp] theorem timerSyncAll_phase (t : U64) (s : State) : (timerSyncAll t s).phase = s.phase := rfl
@[simp] theorem timerSyncAll_runDrv (t : U64) (s : State) : (timerSyncAll t s).runDrv = s.runDrv := rfl
@[simp] theorem timerSyncAll_runBase (t : U64) (s : State) : (timerSyncAll t s).runBase = s.runBase := rfl
@[simp] theorem timerSyncAll_runElapsed (t : U64) (s : State) : (timerSyncAll t s).runElapsed = s.runElapsed := rfl
@[simp] theorem timerSyncAll_runBudget (t : U64) (s : State) : (timerSyncAll t s).runBudget = s.runBudget := rfl
@[simp] theorem timerSyncAll_suspendReq (t : U64) (s : State) : (timerSyncAll t s).suspendReq = s.suspendReq := rfl
@[simp] theorem timerSyncAll_cbKind (t : U64) (s : State) : (timerSyncAll t s).cbKind = s.cbKind := rfl
@[simp] theorem timerSyncAll_evt (t : U64) (s : State) : (timerSyncAll t s).evt = s.evt := rfl
@[simp] theorem timerSyncAll_seqNext (t : U64) (s : State) : (timerSyncAll t s).seqNext = s.seqNext := rfl
@[simp] theorem timerSyncAll_active (t : U64) (s : State) : (timerSyncAll t s).active = s.active := rfl
@[simp] theorem timerSyncAll_ledger (t : U64) (s : State) : (timerSyncAll t s).ledger = s.ledger := rfl
@[simp] theorem timerSyncAll_tmr (t : U64) (s : State) : (timerSyncAll t s).tmr = syncBank s.params t s.tmr := rfl
@[simp] theorem timerSyncAll_irqPending (t : U64) (s : State) : (timerSyncAll t s).irqPending = s.irqPending := rfl
@[simp] theorem timerSyncAll_faultStatus (t : U64) (s : State) : (timerSyncAll t s).faultStatus = s.faultStatus := rfl
@[simp] theorem timerSyncAll_faultCmd (t : U64) (s : State) : (timerSyncAll t s).faultCmd = s.faultCmd := rfl
@[simp] theorem timerSyncAll_result (t : U64) (s : State) : (timerSyncAll t s).result = s.result := rfl
@[simp] theorem timerSyncAll_trace (t : U64) (s : State) : (timerSyncAll t s).trace = s.trace := rfl
@[simp] theorem timerSyncAll_inbox (t : U64) (s : State) : (timerSyncAll t s).inbox = s.inbox := rfl
@[simp] theorem timerSyncAll_params (t : U64) (s : State) : (timerSyncAll t s).params = s.params := rfl
@[simp] theorem timerSyncAll_freeCtr (t : U64) (s : State) : (timerSyncAll t s).freeCtr = s.freeCtr := rfl

/-! Reading after writing. -/

@[simp] theorem State.slot_setSlot_self (s : State) (k : Fin 16) (e : Slot) : (s.setSlot k e).slot k = e := by
  simp [State.slot]

theorem State.slot_setSlot_ne (s : State) {j k : Fin 16} (e : Slot) (h : j ≠ k) :
    (s.setSlot k e).slot j = s.slot j := by
  have : k.val ≠ j.val := fun hv => h (Fin.ext hv.symm)
  simp [State.slot, this]

theorem State.slot_setSlot (s : State) (j k : Fin 16) (e : Slot) :
    (s.setSlot k e).slot j = if j = k then e else s.slot j := by
  by_cases h : j = k
  · subst h; simp
  · simp [h, State.slot_setSlot_ne]

theorem Driver.code_injective {a b : Driver} (h : a.code = b.code) : a = b := by
  cases a <;> cases b <;> first | rfl | exact absurd h (by decide)

@[simp] theorem State.ledgerOf_setLedger_self (s : State) (d : Driver) (v : U64) :
    (s.setLedger d v).ledgerOf d = v := by
  simp [State.ledgerOf]

theorem State.ledgerOf_setLedger_ne (s : State) {d e : Driver} (v : U64) (h : e ≠ d) :
    (s.setLedger d v).ledgerOf e = s.ledgerOf e := by
  have : d.code.val ≠ e.code.val := fun hv => h (Driver.code_injective (Fin.ext hv.symm))
  simp [State.ledgerOf, this]

@[simp] theorem State.timer_setTimer_self (s : State) (n : Fin 4) (x : Timer) : (s.setTimer n x).timer n = x := by
  simp [State.timer]

theorem State.timer_setTimer_ne (s : State) {m n : Fin 4} (x : Timer) (h : m ≠ n) :
    (s.setTimer n x).timer m = s.timer m := by
  have : n.val ≠ m.val := fun hv => h (Fin.ext hv.symm)
  simp [State.timer, this]

/-- Two states with the same event table read the same slots. -/
theorem State.slot_of_evt {s t : State} (h : t.evt = s.evt) (k : Fin 16) : t.slot k = s.slot k := by
  simp [State.slot, h]

end Sys2Proof.Machine
end

