-- ==== Sys2Proof/Laws/Ops.lean ====
section
/-! SUPPORT. What each shared operation can do, said once: an operation on State as one record update, the number
conventions, the queue order. Later proofs cite these and unfold no operation. -/

namespace Sys2Proof.Machine

/-! Numbers (00_scope.md R10). -/

theorem sat64_toNat (x : Nat) : (sat64 x).toNat = min x (2 ^ 64 - 1) := by
  simp only [sat64, BitVec.toNat_ofNat]
  omega

theorem sat64_of_lt {x : Nat} (h : x < 2 ^ 64) : (sat64 x).toNat = x := by
  rw [sat64_toNat]; omega

theorem sat64_toNat_self (x : U64) : sat64 x.toNat = x := by
  apply BitVec.eq_of_toNat_eq
  rw [sat64_toNat]
  have := x.isLt
  omega

/-- Saturating twice is saturating once. -/
theorem sat64_add (x y : Nat) : sat64 ((sat64 x).toNat + y) = sat64 (x + y) := by
  apply BitVec.eq_of_toNat_eq
  simp only [sat64_toNat]
  omega

theorem max64_toNat : max64.toNat = 2 ^ 64 - 1 := rfl

theorem le_max64 (x : U64) : x ≤ max64 := by
  rw [BitVec.le_def, max64_toNat]
  have := x.isLt
  omega

theorem maxU64_toNat (a b : U64) : (maxU64 a b).toNat = max a.toNat b.toNat := by
  unfold maxU64
  split <;> rename_i h <;> rw [BitVec.lt_def] at h <;> omega

theorem minU64_toNat (a b : U64) : (minU64 a b).toNat = min a.toNat b.toNat := by
  unfold minU64
  split <;> rename_i h <;> rw [BitVec.lt_def] at h <;> omega

theorem le_maxU64_left (a b : U64) : a ≤ maxU64 a b := by
  rw [BitVec.le_def, maxU64_toNat]; omega

theorem maxU64_idem (a b : U64) : maxU64 (maxU64 a b) b = maxU64 a b := by
  apply BitVec.eq_of_toNat_eq
  simp only [maxU64_toNat]
  omega

/-! Operations as record updates. -/

theorem suspendFrontIf_eq (b : Bool) (s : State) :
    suspendFrontIf b s =
      { s with trace := s.trace ++ (if b then [.suspend (front s)] else [])
               suspendReq := s.suspendReq || (b && (decide (s.phase = .running) && decide (front s = s.runDrv))) } := by
  cases b <;> simp [suspendFrontIf, suspend]

/-- `Remove(k)` clears `EVT[k].V` and may strobe; nothing else changes (40_event_queue.md R100). -/
theorem remove_eq (k : Fin 16) (s : State) :
    remove k s =
      { s with evt := if (s.slot k).v then s.evt.set k { s.slot k with v := false } else s.evt
               trace := s.trace ++ (if (s.slot k).v && decide (headKind s = some k) then [.suspend (front s)] else [])
               suspendReq := s.suspendReq || ((s.slot k).v && decide (headKind s = some k) &&
                 (decide (s.phase = .running) && decide (front s = s.runDrv))) } := by
  unfold remove
  cases (s.slot k).v
  · simp
  · simp only [if_true, suspendFrontIf_eq, Bool.true_and]
    rfl

/-- `ScheduleAt(k, t)` writes `EVT[k]` and `SEQ_NEXT` and may strobe (40_event_queue.md R102). -/
theorem scheduleAt_eq (k : Fin 16) (t : U64) (s : State) :
    scheduleAt k t s =
      let b := ((s.slot k).v && decide (headKind s = some k)) || decide (headKind (enqueue k t s) = some k)
      { s with evt := s.evt.set k { v := true, t := t, s := s.seqNext }
               seqNext := sat64 (s.seqNext.toNat + 1)
               trace := s.trace ++ (if b then [.suspend (front s)] else [])
               suspendReq := s.suspendReq || (b && (decide (s.phase = .running) && decide (front s = s.runDrv))) } := by
  unfold scheduleAt
  rw [suspendFrontIf_eq]
  rfl

/-- `Insert(k, t)` writes `EVT[k]` and `SEQ_NEXT` and may strobe (40_event_queue.md R101). -/
theorem insert_eq (k : Fin 16) (t : U64) (s : State) :
    insert k t s =
      let b := decide (headKind (enqueue k t s) = some k)
      { s with evt := s.evt.set k { v := true, t := t, s := s.seqNext }
               seqNext := sat64 (s.seqNext.toNat + 1)
               trace := s.trace ++ (if b then [.suspend (front s)] else [])
               suspendReq := s.suspendReq || (b && (decide (s.phase = .running) && decide (front s = s.runDrv))) } := by
  unfold insert
  rw [suspendFrontIf_eq]
  rfl

/-- Raising a fault that does not halt (60_exceptions.md R270). -/
theorem raiseFault_eq {c : FaultCode} (hc : c ≠ .emptyQueue) (cw : U16) (s : State) :
    raiseFault c cw s =
      { s with faultStatus := withFaultBit c s.faultStatus
               faultCmd := if s.faultStatus = 0 then cw else s.faultCmd
               trace := s.trace ++ (if s.faultStatus = 0 then [.faulted] else []) } := by
  unfold raiseFault
  simp only [hc, if_false]
  by_cases h : s.faultStatus = 0
  · simp only [if_pos h, emit]
  · simp only [if_neg h, List.append_nil]

/-- Raising the fatal fault (60_exceptions.md R270, R272). -/
theorem raiseFault_emptyQueue_eq (cw : U16) (s : State) :
    raiseFault .emptyQueue cw s =
      { s with phase := .halted
               faultStatus := withFaultBit .emptyQueue s.faultStatus
               faultCmd := if s.faultStatus = 0 then cw else s.faultCmd
               trace := s.trace ++ (if s.faultStatus = 0 then [.faulted, .halt] else [.halt]) } := by
  unfold raiseFault halt
  by_cases h : s.faultStatus = 0
  · simp only [if_pos h, if_true, emit, List.append_assoc, List.singleton_append]
  · simp only [if_neg h, if_true, emit]

/-- An illegal word writes `RESULT`, the fault registers and the trace, nothing else (30_encoding.md R86). -/
theorem illegalCommand_eq (cw : U16) (s : State) :
    illegalCommand cw s =
      { s with result := 0
               faultStatus := withFaultBit .illegalCommand s.faultStatus
               faultCmd := if s.faultStatus = 0 then cw else s.faultCmd
               trace := s.trace ++ (if s.faultStatus = 0 then [.faulted] else []) } := by
  unfold illegalCommand
  rw [raiseFault_eq (by decide)]

/-- `RaiseSource(m)` with no delivery pending, or with one (60_exceptions.md R277). -/
theorem raiseSource_cases (m : U16) (s : State) :
    (m = 0 ∧ raiseSource m s = s) ∨
    (m ≠ 0 ∧ (s.slot irqKind).v = true ∧ raiseSource m s = { s with irqPending := s.irqPending ||| m }) ∨
    (m ≠ 0 ∧ (s.slot irqKind).v = false ∧
      raiseSource m s =
        insert irqKind (sat64 (s.g.toNat + s.params.irqDelay)) { s with irqPending := s.irqPending ||| m }) := by
  unfold raiseSource
  by_cases h : m = 0
  · exact .inl ⟨h, by simp [h]⟩
  · cases hv : (s.slot irqKind).v
    · refine .inr (.inr ⟨h, rfl, ?_⟩)
      have : State.slot { s with irqPending := s.irqPending ||| m } irqKind = s.slot irqKind := rfl
      simp only [if_neg h, this, hv, Bool.false_eq_true, if_false]
    · refine .inr (.inl ⟨h, rfl, ?_⟩)
      have : State.slot { s with irqPending := s.irqPending ||| m } irqKind = s.slot irqKind := rfl
      simp only [if_neg h, this, hv, if_true]

/-- `Flush()` writes `G` only (41_run_loop.md R140). -/
theorem flush_eq (s : State) : flush s = { s with g := seenTime s } := by
  unfold flush seenTime commitTime
  split <;> rfl

/-- The common sequence answers in three ways (30_encoding.md R87). -/
theorem command_cases (i : Instr) (body : State → Answer) (s : State) :
    (s.phase = .dispatch ∧ command i body s = .fault .commandDuringDispatch) ∨
    (s.phase ≠ .dispatch ∧ admitted i.opcode s.phase = true ∧
      command i body s = body { s with result := 0, g := seenTime s }) ∨
    (s.phase ≠ .dispatch ∧ admitted i.opcode s.phase = false ∧
      command i body s = .next (raiseFault .badPhase i.word { s with result := 0 })) := by
  unfold command
  by_cases hd : s.phase = .dispatch
  · exact .inl ⟨hd, by simp [hd]⟩
  · cases ha : admitted i.opcode s.phase
    · exact .inr (.inr ⟨hd, rfl, by simp [hd]⟩)
    · refine .inr (.inl ⟨hd, rfl, ?_⟩)
      simp only [hd, if_false, if_true, flush_eq]
      rfl

/-- A command that its phase admits runs its own rule, on the flushed state with `RESULT` 0. -/
theorem command_admitted {i : Instr} {s : State} (body : State → Answer) (hd : s.phase ≠ .dispatch)
    (ha : admitted i.opcode s.phase = true) :
    command i body s = body { s with result := 0, g := seenTime s } := by
  rcases command_cases i body s with ⟨h, -⟩ | ⟨-, -, h⟩ | ⟨-, h, -⟩
  · exact absurd h hd
  · exact h
  · rw [ha] at h; exact absurd h (by decide)

/-- A command that its phase does not admit only faults `BAD_PHASE`. -/
theorem command_barred {i : Instr} {s : State} (body : State → Answer) (hd : s.phase ≠ .dispatch)
    (ha : admitted i.opcode s.phase = false) :
    command i body s = .next (raiseFault .badPhase i.word { s with result := 0 }) := by
  rcases command_cases i body s with ⟨h, -⟩ | ⟨-, h, -⟩ | ⟨-, -, h⟩
  · exact absurd h hd
  · rw [ha] at h; exact absurd h (by decide)
  · exact h

/-! The queue order (10_state.md R33). -/

theorem mem_pendingKinds {s : State} {k : Fin 16} : k ∈ pendingKinds s ↔ (s.slot k).v = true := by
  simp [pendingKinds, List.mem_finRange]

theorem mem_headKinds {s : State} {k : Fin 16} :
    k ∈ headKinds s ↔ (s.slot k).v = true ∧ ∀ j, (s.slot j).v = true → (s.slot j).before (s.slot k) = false := by
  simp [headKinds, mem_pendingKinds]

theorem headKind_mem {s : State} {k : Fin 16} (h : headKind s = some k) : k ∈ headKinds s := by
  unfold headKind at h
  split at h
  · exact absurd h (by simp)
  · rename_i j hl
    rw [hl]; simp_all
  · rename_i j l _ hl
    rw [hl]
    simp only [Option.some.injEq] at h
    rw [← h, List.getD_eq_getElem _ _ (Nat.mod_lt _ (by simp))]
    exact List.getElem_mem _

/-- The queue order is transitive in the form an exchange of minima needs. -/
theorem Slot.not_before_trans {a b c : Slot} (h1 : a.before b = false) (h2 : b.before c = false) :
    a.before c = false := by
  simp only [Slot.before, Bool.or_eq_false_iff, Bool.and_eq_false_iff, decide_eq_false_iff_not, BitVec.lt_def] at *
  have e1 : a.t = b.t ↔ a.t.toNat = b.t.toNat := BitVec.toNat_inj.symm
  have e2 : b.t = c.t ↔ b.t.toNat = c.t.toNat := BitVec.toNat_inj.symm
  have e3 : a.t = c.t ↔ a.t.toNat = c.t.toNat := BitVec.toNat_inj.symm
  rw [e1] at h1; rw [e2] at h2; rw [e3]
  omega

theorem Slot.before_irrefl (a : Slot) : a.before a = false := by
  simp [Slot.before]

/-- A list of slots' kinds that is not empty has a kind no other precedes. -/
theorem exists_minimal (f : Fin 16 → Slot) :
    ∀ l : List (Fin 16), l ≠ [] → ∃ k ∈ l, ∀ j ∈ l, (f j).before (f k) = false
  | [], h => absurd rfl h
  | [k], _ => ⟨k, by simp, by simp [Slot.before_irrefl]⟩
  | k :: j :: l, _ => by
    obtain ⟨m, hm, hmin⟩ := exists_minimal f (j :: l) (by simp)
    cases hk : (f k).before (f m)
    · refine ⟨m, List.mem_cons_of_mem _ hm, fun i hi => ?_⟩
      rcases List.mem_cons.mp hi with rfl | hi
      · exact hk
      · exact hmin i hi
    · refine ⟨k, by simp, fun i hi => ?_⟩
      rcases List.mem_cons.mp hi with rfl | hi
      · exact Slot.before_irrefl _
      · have hmk : (f m).before (f k) = false := by
          simp only [Slot.before, Bool.or_eq_true, Bool.and_eq_true, decide_eq_true_eq, Bool.or_eq_false_iff,
            Bool.and_eq_false_iff, decide_eq_false_iff_not, BitVec.lt_def] at *
          have e1 : (f k).t = (f m).t ↔ (f k).t.toNat = (f m).t.toNat := BitVec.toNat_inj.symm
          have e2 : (f m).t = (f k).t ↔ (f m).t.toNat = (f k).t.toNat := BitVec.toNat_inj.symm
          rw [e1] at hk; rw [e2]
          omega
        exact Slot.not_before_trans (hmin i hi) hmk

/-- `HeadKind()` is none exactly on an empty queue. -/
theorem headKind_eq_none {s : State} : headKind s = none ↔ ∀ k, (s.slot k).v = false := by
  constructor
  · intro h k
    by_contra hk
    have hv : (s.slot k).v = true := by simpa using hk
    obtain ⟨m, hm, hmin⟩ := exists_minimal s.slot (pendingKinds s) (List.ne_nil_of_mem (mem_pendingKinds.mpr hv))
    have hmem : m ∈ headKinds s :=
      mem_headKinds.mpr ⟨mem_pendingKinds.mp hm, fun j hj => hmin j (mem_pendingKinds.mpr hj)⟩
    unfold headKind at h
    split at h <;> simp_all
  · intro h
    cases hk : headKind s with
    | none => rfl
    | some k =>
      have := (mem_headKinds.mp (headKind_mem hk)).1
      rw [h k] at this
      exact absurd this (by decide)

/-- `HeadKind()` is pending, and no pending kind precedes it (10_state.md R33). -/
theorem headKind_spec {s : State} {k : Fin 16} (h : headKind s = some k) :
    (s.slot k).v = true ∧ ∀ j, (s.slot j).v = true → (s.slot j).before (s.slot k) = false :=
  mem_headKinds.mp (headKind_mem h)

/-- Nothing pending fires before the head. -/
theorem headKind_le {s : State} {j k : Fin 16} (h : headKind s = some k) (hj : (s.slot j).v = true) :
    (s.slot k).t ≤ (s.slot j).t := by
  have := (headKind_spec h).2 j hj
  simp only [Slot.before, Bool.or_eq_false_iff, decide_eq_false_iff_not, BitVec.lt_def] at this
  rw [BitVec.le_def]
  omega

/-- The head depends on the event table and the index of the free value only. -/
theorem headKind_congr {s t : State} (he : t.evt = s.evt) (hc : t.freeCtr = s.freeCtr) : headKind t = headKind s := by
  have hs : t.slot = s.slot := funext fun k => State.slot_of_evt he k
  simp only [headKind, headKinds, pendingKinds, hs, hc]

theorem headTime_congr {s t : State} (he : t.evt = s.evt) (hc : t.freeCtr = s.freeCtr) : headTime t = headTime s := by
  simp only [headTime, headKind_congr he hc, State.slot_of_evt he]

/-- `min(x, HeadTime())` is at most `x` and at most every pending time (41_run_loop.md R140). -/
theorem capAtHead_le (s : State) (x : U64) :
    capAtHead s x ≤ x ∧ ∀ k, (s.slot k).v = true → capAtHead s x ≤ (s.slot k).t := by
  unfold capAtHead headTime
  cases hk : headKind s with
  | none =>
    refine ⟨by simp, fun k hv => ?_⟩
    rw [headKind_eq_none.mp hk k] at hv
    exact absurd hv (by decide)
  | some k =>
    simp only [Option.map_some, BitVec.le_def, minU64_toNat]
    refine ⟨by omega, fun j hv => ?_⟩
    have := headKind_le hk hv
    rw [BitVec.le_def] at this
    omega

/-! Arbitration (10_state.md R32). -/

theorem isActive_cpu (s : State) : s.isActive .cpu = true := by
  simp [State.isActive, State.activeMask, Driver.code]

/-- `Front()` is active, and no active driver has a higher code. -/
theorem front_spec (s : State) :
    s.isActive (front s) = true ∧ ∀ d, s.isActive d = true → d.code.val ≤ (front s).code.val := by
  unfold front
  split_ifs with h3 h2 h1 h0
  · exact ⟨h3, fun d _ => by cases d <;> decide⟩
  · exact ⟨h2, fun d hd => by cases d <;> first | decide | exact absurd hd h3⟩
  · exact ⟨h1, fun d hd => by cases d <;> first | decide | exact absurd hd h2 | exact absurd hd h3⟩
  · exact ⟨h0, fun d hd => by
      cases d <;> first | decide | exact absurd hd h1 | exact absurd hd h2 | exact absurd hd h3⟩
  · exact ⟨isActive_cpu s, fun d hd => by
      cases d <;> first | decide | exact absurd hd h0 | exact absurd hd h1 | exact absurd hd h2 | exact absurd hd h3⟩

/-! Taking an input. -/

/-- One step is one of four things. -/
theorem step_cases (s : State) :
    (s.inbox = [] ∧ step s = .next s) ∨
    (∃ rest, s.inbox = .reset :: rest ∧ step s = .next (takeReset rest s)) ∨
    (∃ c rest i, s.inbox = .command c :: rest ∧ decode c = .ok i ∧ step s = exec i (takeCommand rest s)) ∨
    (∃ c rest e, s.inbox = .command c :: rest ∧ decode c = .error e ∧
      step s = .next (illegalCommand c.cw (takeCommand rest s))) := by
  unfold step
  cases s.inbox with
  | nil => exact .inl ⟨rfl, rfl⟩
  | cons x rest =>
    cases x with
    | reset => exact .inr (.inl ⟨rest, rfl, rfl⟩)
    | command c =>
      cases hd : decode c with
      | ok i => exact .inr (.inr (.inl ⟨c, rest, i, rfl, hd, by simp only [hd]⟩))
      | error e => exact .inr (.inr (.inr ⟨c, rest, e, rfl, hd, by simp only [hd]⟩))

end Sys2Proof.Machine
end

