-- ==== Sys2Proof/Laws/Timers.lean ====
section
/-! SUPPORT. The theory of the lazy fold (43_timer_cascade.md R192 to R194, R209): what `Advance` keeps in balance, the
fold of all chains as one formula per timer, and what a fold does to the overflow times. -/

namespace Sys2Proof.Machine

/-! `Advance` (R192). -/

/-- Ticks spent and ticks gained balance: each overflow gives back one reload period. -/
theorem advance_balance (v r : U16) (k : Nat) :
    (2 ^ 16 - (advance v r k).1.toNat) + k = (2 ^ 16 - v.toNat) + (advance v r k).2 * (2 ^ 16 - r.toNat) := by
  have hv := v.isLt
  have hr := r.isLt
  unfold advance
  simp only
  split
  · rename_i h
    simp only [BitVec.toNat_ofNat]
    rw [Nat.mod_eq_of_lt (by omega)]
    omega
  · rename_i h
    have hc : 0 < 2 ^ 16 - r.toNat := by omega
    have hm := Nat.mod_lt (k - (2 ^ 16 - v.toNat)) hc
    have hd := Nat.div_add_mod (k - (2 ^ 16 - v.toNat)) (2 ^ 16 - r.toNat)
    simp only [BitVec.toNat_ofNat]
    rw [Nat.mod_eq_of_lt (by omega)]
    rw [Nat.mul_comm] at hd
    rw [Nat.add_mul, Nat.one_mul]
    omega

/-- Timer `v` overflows at least `m` times in `k` ticks exactly when `k` covers its rest and `m - 1` periods. -/
theorem advance_overflows_lt (v r : U16) (k m : Nat) (hm : 1 ≤ m) :
    (advance v r k).2 < m ↔ k < (2 ^ 16 - v.toNat) + (m - 1) * (2 ^ 16 - r.toNat) := by
  have hr := r.isLt
  have hc : 0 < 2 ^ 16 - r.toNat := by omega
  unfold advance
  simp only
  split
  · rename_i h
    exact ⟨fun _ => by omega, fun _ => by omega⟩
  · rename_i h
    have := Nat.div_lt_iff_lt_mul (x := k - (2 ^ 16 - v.toNat)) (y := m - 1) hc
    constructor
    · intro h1
      have := this.mp (by omega)
      omega
    · intro h1
      have := this.mpr (by omega)
      omega

/-- No tick changes nothing. -/
@[simp] theorem advance_zero (v r : U16) : advance v r 0 = (v, 0) := by
  have := v.isLt
  unfold advance
  simp only
  rw [if_pos (by omega)]
  simp

/-- Once it has overflowed a counter is not below its reload. -/
theorem advance_bound (v r : U16) (k : Nat) :
    (advance v r k).2 = 0 ∨ 2 ^ 16 - (advance v r k).1.toNat ≤ 2 ^ 16 - r.toNat := by
  have hv := v.isLt; have hr := r.isLt
  unfold advance; simp only
  split
  · left; rfl
  · right
    have hm := Nat.mod_lt (k - (2 ^ 16 - v.toNat)) (y := 2 ^ 16 - r.toNat) (by omega)
    simp only [BitVec.toNat_ofNat]
    rw [Nat.mod_eq_of_lt (by omega)]; omega

/-- Value and overflows are determined by the balance and that bound. -/
theorem advance_unique {v r v1 v2 : U16} {k o1 o2 : Nat}
    (h1 : (2 ^ 16 - v1.toNat) + k = (2 ^ 16 - v.toNat) + o1 * (2 ^ 16 - r.toNat))
    (b1 : o1 = 0 ∨ 2 ^ 16 - v1.toNat ≤ 2 ^ 16 - r.toNat)
    (h2 : (2 ^ 16 - v2.toNat) + k = (2 ^ 16 - v.toNat) + o2 * (2 ^ 16 - r.toNat))
    (b2 : o2 = 0 ∨ 2 ^ 16 - v2.toNat ≤ 2 ^ 16 - r.toNat) :
    v1 = v2 ∧ o1 = o2 := by
  have hr := r.isLt; have l1 := v1.isLt; have l2 := v2.isLt
  have key : o1 = o2 := by
    rcases Nat.lt_trichotomy o1 o2 with h | h | h
    · exfalso
      have := Nat.mul_le_mul_right (2 ^ 16 - r.toNat) (show o1 + 1 ≤ o2 from h)
      rw [Nat.add_mul] at this
      omega
    · exact h
    · exfalso
      have := Nat.mul_le_mul_right (2 ^ 16 - r.toNat) (show o2 + 1 ≤ o1 from h)
      rw [Nat.add_mul] at this
      omega
  subst key
  exact ⟨BitVec.eq_of_toNat_eq (by omega), rfl⟩

/-- `Advance` adds up: in value, with the overflow counts adding (R209). -/
theorem advance_add (v r : U16) (a b : Nat) :
    advance v r (a + b) =
      ((advance (advance v r a).1 r b).1, (advance v r a).2 + (advance (advance v r a).1 r b).2) := by
  have h1 := advance_balance v r (a + b)
  have b1 := advance_bound v r (a + b)
  have h2 := advance_balance v r a
  have h3 := advance_balance (advance v r a).1 r b
  have b2 := advance_bound v r a
  have b3 := advance_bound (advance v r a).1 r b
  have hs := ((advance v r a).1).isLt
  have hb : (advance v r a).2 + (advance (advance v r a).1 r b).2 = 0 ∨
      2 ^ 16 - (advance (advance v r a).1 r b).1.toNat ≤ 2 ^ 16 - r.toNat := by
    rcases b3 with b3 | b3
    · rcases b2 with b2 | b2
      · left; omega
      · right; rw [b3] at h3; omega
    · right; exact b3
  have := advance_unique h1 b1 (by rw [Nat.add_mul]; omega) hb
  exact Prod.ext this.1 this.2

/-! The fold as one formula per timer (R193). -/

/-- A timer after `k` ticks. -/
def Timer.ticked (x : Timer) (k : Nat) : Timer := { x with value := (advance x.value x.reload k).1 }

/-- The overflows of a timer in `k` ticks. -/
def Timer.overflows (x : Timer) (k : Nat) : Nat := (advance x.value x.reload k).2

/-- The ticks timer `n` receives in a fold to time `t`: whole prescaler ticks for an enabled root, the predecessor's
overflows for an enabled cascaded timer, none for a disabled one. -/
def foldTicks (p : Params) (t : U64) (ts : TimerBank) : (n : Nat) → n < 4 → Nat
  | 0, _ => if ts[0].ctrl.en then rootTicks p t ts 0 else 0
  | n + 1, h =>
    if ts[n + 1].ctrl.en then
      if ts[n + 1].ctrl.cascade then ts[n].overflows (foldTicks p t ts n (by omega))
      else rootTicks p t ts ⟨n + 1, h⟩
    else 0

/-- `TREF` of timer `n` after a fold. -/
def foldTref (p : Params) (t : U64) (ts : TimerBank) (n : Fin 4) : U64 :=
  if isRoot ts n && ts[n].ctrl.en then sat64 (ts[n].tref.toNat + rootTicks p t ts n * psOf p ts n) else ts[n].tref

@[simp] theorem Timer.ticked_zero (x : Timer) : x.ticked 0 = x := by simp [Timer.ticked]
@[simp] theorem Timer.overflows_zero (x : Timer) : x.overflows 0 = 0 := by simp [Timer.overflows]
@[simp] theorem Timer.ticked_ctrl (x : Timer) (k : Nat) : (x.ticked k).ctrl = x.ctrl := rfl
@[simp] theorem Timer.ticked_reload (x : Timer) (k : Nat) : (x.ticked k).reload = x.reload := rfl
@[simp] theorem Timer.ticked_tref (x : Timer) (k : Nat) : (x.ticked k).tref = x.tref := rfl


/-- One round of the inner loop, in terms of `ticked` and `overflows`. -/
theorem foldChain_succ (fuel : Nat) (n : Fin 4) (k : Nat) (ts : TimerBank) :
    foldChain (fuel + 1) n k ts =
      if h : n.val + 1 < 4 then
        if ts[n].overflows k = 0 ∨ (ts.set n (ts[n].ticked k))[n.val + 1].ctrl.cascade = false ∨
            (ts.set n (ts[n].ticked k))[n.val + 1].ctrl.en = false then ts.set n (ts[n].ticked k)
        else foldChain fuel ⟨n.val + 1, h⟩ (ts[n].overflows k) (ts.set n (ts[n].ticked k))
      else ts.set n (ts[n].ticked k) := rfl

/-- The ticks a timer takes from its predecessor's overflows. -/
def Timer.carried (x : Timer) (o : Nat) : Nat := if x.ctrl.cascade && x.ctrl.en then o else 0

theorem foldChain_from3 (fuel k : Nat) (a b c d : Timer) :
    foldChain fuel 3 k #v[a, b, c, d] = #v[a, b, c, d.ticked k] := by
  cases fuel with
  | zero => rfl
  | succ f => rw [foldChain_succ]; rfl

theorem foldChain_from2 (fuel k : Nat) (a b c d : Timer) :
    foldChain (fuel + 1) 2 k #v[a, b, c, d] = #v[a, b, c.ticked k, d.ticked (d.carried (c.overflows k))] := by
  rw [foldChain_succ]
  change (if c.overflows k = 0 ∨ d.ctrl.cascade = false ∨ d.ctrl.en = false then #v[a, b, c.ticked k, d]
    else foldChain fuel 3 (c.overflows k) #v[a, b, c.ticked k, d]) = _
  rw [foldChain_from3]
  by_cases ho : c.overflows k = 0 <;> cases hc : d.ctrl.cascade <;> cases he : d.ctrl.en <;>
    simp [Timer.carried, ho, hc, he]

theorem foldChain_from1 (fuel k : Nat) (a b c d : Timer) :
    foldChain (fuel + 2) 1 k #v[a, b, c, d] =
      let kc := c.carried (b.overflows k)
      #v[a, b.ticked k, c.ticked kc, d.ticked (d.carried (c.overflows kc))] := by
  rw [foldChain_succ]
  change (if b.overflows k = 0 ∨ c.ctrl.cascade = false ∨ c.ctrl.en = false then #v[a, b.ticked k, c, d]
    else foldChain (fuel + 1) 2 (b.overflows k) #v[a, b.ticked k, c, d]) = _
  rw [foldChain_from2]
  by_cases ho : b.overflows k = 0 <;> cases hc : c.ctrl.cascade <;> cases he : c.ctrl.en <;>
    simp [Timer.carried, ho, hc, he]

theorem foldChain_from0 (k : Nat) (a b c d : Timer) :
    foldChain 3 0 k #v[a, b, c, d] =
      let kb := b.carried (a.overflows k)
      let kc := c.carried (b.overflows kb)
      #v[a.ticked k, b.ticked kb, c.ticked kc, d.ticked (d.carried (c.overflows kc))] := by
  rw [foldChain_succ]
  change (if a.overflows k = 0 ∨ b.ctrl.cascade = false ∨ b.ctrl.en = false then #v[a.ticked k, b, c, d]
    else foldChain 2 1 (a.overflows k) #v[a.ticked k, b, c, d]) = _
  rw [foldChain_from1 0]
  by_cases ho : a.overflows k = 0 <;> cases hc : b.ctrl.cascade <;> cases he : b.ctrl.en <;>
    simp [Timer.carried, ho, hc, he]

/-- The whole prescaler ticks of a root timer up to time `t`. -/
def Timer.rootTicks (p : Params) (t : U64) (x : Timer) : Nat := (t.toNat - x.tref.toNat) / prescaleOf p x.ctrl.ps

/-- A root timer with `TREF` moved by its whole ticks. -/
def Timer.anchored (p : Params) (t : U64) (x : Timer) : Timer :=
  { x with tref := sat64 (x.tref.toNat + x.rootTicks p t * prescaleOf p x.ctrl.ps) }

@[simp] theorem Timer.anchored_ctrl (p : Params) (t : U64) (x : Timer) : (x.anchored p t).ctrl = x.ctrl := rfl
@[simp] theorem Timer.anchored_overflows (p : Params) (t : U64) (x : Timer) (k : Nat) :
    (x.anchored p t).overflows k = x.overflows k := rfl

theorem syncRoot_at0 (p : Params) (t : U64) (a b c d : Timer) :
    syncRoot p t #v[a, b, c, d] 0 =
      if a.ctrl.en then foldChain 3 0 (a.rootTicks p t) #v[a.anchored p t, b, c, d] else #v[a, b, c, d] := by
  cases h : a.ctrl.en <;> (unfold syncRoot isRoot; simp [h]); rfl

theorem syncRoot_at1 (p : Params) (t : U64) (a b c d : Timer) :
    syncRoot p t #v[a, b, c, d] 1 =
      if !b.ctrl.cascade && b.ctrl.en then foldChain 3 1 (b.rootTicks p t) #v[a, b.anchored p t, c, d]
      else #v[a, b, c, d] := by
  cases h : b.ctrl.en <;> cases h' : b.ctrl.cascade <;> (unfold syncRoot isRoot; simp [h, h']); rfl

theorem syncRoot_at2 (p : Params) (t : U64) (a b c d : Timer) :
    syncRoot p t #v[a, b, c, d] 2 =
      if !c.ctrl.cascade && c.ctrl.en then foldChain 3 2 (c.rootTicks p t) #v[a, b, c.anchored p t, d]
      else #v[a, b, c, d] := by
  cases h : c.ctrl.en <;> cases h' : c.ctrl.cascade <;> (unfold syncRoot isRoot; simp [h, h']); rfl

theorem syncRoot_at3 (p : Params) (t : U64) (a b c d : Timer) :
    syncRoot p t #v[a, b, c, d] 3 =
      if !d.ctrl.cascade && d.ctrl.en then foldChain 3 3 (d.rootTicks p t) #v[a, b, c, d.anchored p t]
      else #v[a, b, c, d] := by
  cases h : d.ctrl.en <;> cases h' : d.ctrl.cascade <;> (unfold syncRoot isRoot; simp [h, h']); rfl

theorem syncBank_eq (p : Params) (t : U64) (a b c d : Timer) :
    syncBank p t #v[a, b, c, d] =
      let ka := if a.ctrl.en then a.rootTicks p t else 0
      let kb := if b.ctrl.en then (if b.ctrl.cascade then a.overflows ka else b.rootTicks p t) else 0
      let kc := if c.ctrl.en then (if c.ctrl.cascade then b.overflows kb else c.rootTicks p t) else 0
      let kd := if d.ctrl.en then (if d.ctrl.cascade then c.overflows kc else d.rootTicks p t) else 0
      #v[(if a.ctrl.en then a.anchored p t else a).ticked ka,
        (if !b.ctrl.cascade && b.ctrl.en then b.anchored p t else b).ticked kb,
        (if !c.ctrl.cascade && c.ctrl.en then c.anchored p t else c).ticked kc,
        (if !d.ctrl.cascade && d.ctrl.en then d.anchored p t else d).ticked kd] := by
  unfold syncBank
  simp only [List.foldl_cons, List.foldl_nil]
  rw [syncRoot_at0]
  cases ha : a.ctrl.en <;> cases hb : b.ctrl.en <;> cases hb' : b.ctrl.cascade <;> cases hc : c.ctrl.en <;>
    cases hc' : c.ctrl.cascade <;> cases hd : d.ctrl.en <;> cases hd' : d.ctrl.cascade <;>
    simp [syncRoot_at1, syncRoot_at2, syncRoot_at3, foldChain_from0, foldChain_from1 1, foldChain_from2 2,
      foldChain_from3 3, Timer.carried, hb, hb', hc, hc', hd, hd']

theorem bank_cases (ts : TimerBank) : ∃ a b c d, ts = #v[a, b, c, d] := by
  refine ⟨ts[0], ts[1], ts[2], ts[3], ?_⟩
  ext i h
  interval_cases i <;> rfl

/-- What one timer is after a fold of all chains to time `t` (R193). -/
theorem syncBank_get (p : Params) (t : U64) (ts : TimerBank) (n : Fin 4) :
    (syncBank p t ts)[n] = Timer.ticked { ts[n] with tref := foldTref p t ts n } (foldTicks p t ts n.val n.isLt) := by
  obtain ⟨a, b, c, d, rfl⟩ := bank_cases ts
  rw [syncBank_eq]
  fin_cases n
  · (cases h : a.ctrl.en <;> simp [foldTref, foldTicks, isRoot, h]); rfl
  · cases h : b.ctrl.en <;> cases h' : b.ctrl.cascade <;> simp [foldTref, foldTicks, isRoot, h, h'] <;> rfl
  · cases h : c.ctrl.en <;> cases h' : c.ctrl.cascade <;> simp [foldTref, foldTicks, isRoot, h, h'] <;> rfl
  · cases h : d.ctrl.en <;> cases h' : d.ctrl.cascade <;> simp [foldTref, foldTicks, isRoot, h, h'] <;> rfl

/-! What a fold keeps (R209). -/

theorem syncBank_getElem (p : Params) (t : U64) (ts : TimerBank) (n : Nat) (h : n < 4) :
    (syncBank p t ts)[n] = Timer.ticked { ts[n] with tref := foldTref p t ts ⟨n, h⟩ } (foldTicks p t ts n h) :=
  syncBank_get p t ts ⟨n, h⟩

@[simp] theorem syncBank_ctrl (p : Params) (t : U64) (ts : TimerBank) (n : Nat) (h : n < 4) :
    (syncBank p t ts)[n].ctrl = ts[n].ctrl := by rw [syncBank_getElem p t ts n h]; rfl

@[simp] theorem syncBank_reload (p : Params) (t : U64) (ts : TimerBank) (n : Nat) (h : n < 4) :
    (syncBank p t ts)[n].reload = ts[n].reload := by rw [syncBank_getElem p t ts n h]; rfl

/-- Two banks with the same controls have the same roots and count alike. -/
theorem countingFrom_congr {ts us : TimerBank} (h : ∀ n (hn : n < 4), us[n].ctrl = ts[n].ctrl) :
    ∀ n hn, countingFrom us n hn = countingFrom ts n hn
  | 0, _ => by simp [countingFrom, h]
  | n + 1, hn => by simp [countingFrom, h, countingFrom_congr h n]

theorem counting_syncBank (p : Params) (t : U64) (ts : TimerBank) (n : Fin 4) :
    counting (syncBank p t ts) n = counting ts n :=
  countingFrom_congr (fun m hm => syncBank_ctrl p t ts m hm) _ _

theorem isRoot_congr {ts us : TimerBank} (h : ∀ n (hn : n < 4), us[n].ctrl = ts[n].ctrl) (n : Fin 4) :
    isRoot us n = isRoot ts n := by
  simp [isRoot, h]

theorem isRoot_syncBank (p : Params) (t : U64) (ts : TimerBank) (n : Fin 4) :
    isRoot (syncBank p t ts) n = isRoot ts n :=
  isRoot_congr (fun m hm => syncBank_ctrl p t ts m hm) n

@[simp] theorem psOf_syncBank (p : Params) (t : U64) (ts : TimerBank) (n : Fin 4) :
    psOf p (syncBank p t ts) n = psOf p ts n := by
  simp [psOf]

@[simp] theorem cme_syncBank (p : Params) (t : U64) (ts : TimerBank) (n : Fin 4) :
    cme (syncBank p t ts) n = cme ts n := by
  simp [cme]

theorem psOf_pos (p : Params) (ts : TimerBank) (n : Fin 4) : 0 < psOf p ts n := (p.prescale[ts[n].ctrl.ps.toFin]).pos

theorem cme_pos (ts : TimerBank) (n : Fin 4) : 0 < cme ts n := by
  have := ts[n].reload.isLt
  unfold cme
  omega

theorem ticksLeft_pos (ts : TimerBank) (n : Fin 4) : 0 < ticksLeft ts n := by
  have := ts[n].value.isLt
  unfold ticksLeft
  omega

/-- After the fold an enabled root's `TREF` is at most `t` and less than one prescaler period before it (R194). -/
theorem foldTref_bounds {p : Params} {t : U64} {ts : TimerBank} (hb : RootsBehind t ts) {r : Fin 4}
    (hr : isRoot ts r = true) (he : ts[r].ctrl.en = true) :
    (foldTref p t ts r).toNat = ts[r].tref.toNat + rootTicks p t ts r * psOf p ts r ∧
      (foldTref p t ts r).toNat ≤ t.toNat ∧ t.toNat < (foldTref p t ts r).toNat + psOf p ts r := by
  have hle := hb r hr he
  rw [BitVec.le_def] at hle
  have hps := psOf_pos p ts r
  have hdm := Nat.div_add_mod (t.toNat - ts[r].tref.toNat) (psOf p ts r)
  have hm := Nat.mod_lt (t.toNat - ts[r].tref.toNat) hps
  have ht := t.isLt
  have hval : (foldTref p t ts r).toNat = ts[r].tref.toNat + rootTicks p t ts r * psOf p ts r := by
    unfold foldTref
    rw [hr, he]
    simp only [Bool.and_self, if_true]
    apply sat64_of_lt
    unfold rootTicks
    rw [Nat.mul_comm] at hdm
    omega
  rw [hval]
  unfold rootTicks
  rw [Nat.mul_comm] at hdm
  refine ⟨rfl, by omega, by omega⟩

/-! Overflow times and the fold (R194, R195, R209). -/

/-- The cycles of one tick of timer `n`: its prescaler's, or its predecessor's period (10_state.md R39). -/
def tickCycles (p : Params) (ts : TimerBank) : (n : Nat) → n < 4 → Nat
  | 0, _ => psOf p ts 0
  | n + 1, h => if ts[n + 1].ctrl.cascade then periodFrom p ts n (by omega) else psOf p ts ⟨n + 1, h⟩

theorem periodFrom_eq (p : Params) (ts : TimerBank) :
    ∀ n h, periodFrom p ts n h = cme ts ⟨n, h⟩ * tickCycles p ts n h
  | 0, _ => rfl
  | n + 1, h => by
    simp only [periodFrom, tickCycles]
    split <;> rfl

/-- A timer's own balance over a fold: its rest after, plus the ticks it took, is its rest before plus its periods. -/
theorem ticksLeft_syncBank (p : Params) (t : U64) (ts : TimerBank) (n : Nat) (h : n < 4) :
    ticksLeft (syncBank p t ts) ⟨n, h⟩ + foldTicks p t ts n h =
      ticksLeft ts ⟨n, h⟩ + ts[n].overflows (foldTicks p t ts n h) * cme ts ⟨n, h⟩ := by
  unfold ticksLeft cme
  have := syncBank_get p t ts ⟨n, h⟩
  rw [this]
  exact advance_balance _ _ _

/-- Ticks needed before and after a fold that balance up to `e` ticks give overflow times that differ by `e` ticks. -/
theorem overflowFrom_syncBank {p : Params} {t : U64} {ts : TimerBank} (hb : RootsBehind t ts) :
    ∀ n h need need' e, 1 ≤ need → 1 ≤ need' → countingFrom ts n h = true →
      need' + foldTicks p t ts n h = need + e →
      overflowFrom p (syncBank p t ts) n h need' = overflowFrom p ts n h need + e * tickCycles p ts n h := by
  intro n
  induction n with
  | zero =>
    intro h need need' e _ _ hc hbal
    have he : ts[0].ctrl.en = true := hc
    have hroot := (foldTref_bounds (p := p) hb (r := 0) (by simp [isRoot]) he).1
    have hk : foldTicks p t ts 0 h = rootTicks p t ts 0 := by simp [foldTicks, he]
    rw [hk] at hbal
    have htr : (syncBank p t ts)[0].tref.toNat = ts[0].tref.toNat + rootTicks p t ts 0 * psOf p ts 0 := by
      rw [syncBank_getElem p t ts 0 (by decide)]; exact hroot
    have hlin : (need' + rootTicks p t ts 0) * psOf p ts 0 = (need + e) * psOf p ts 0 := by rw [hbal]
    rw [Nat.add_mul, Nat.add_mul] at hlin
    simp only [overflowFrom, tickCycles]
    rw [psOf_syncBank, htr]
    omega
  | succ n ih =>
    intro h need need' e hn hn' hc hbal
    have he : ts[n + 1].ctrl.en = true := by
      simp only [countingFrom, Bool.and_eq_true] at hc; exact hc.1
    cases hcas : ts[n + 1].ctrl.cascade with
    | false =>
      have hr : isRoot ts ⟨n + 1, h⟩ = true := by simp [isRoot, hcas]
      have hroot := (foldTref_bounds (p := p) hb (r := ⟨n + 1, h⟩) hr he).1
      have hk : foldTicks p t ts (n + 1) h = rootTicks p t ts ⟨n + 1, h⟩ := by simp [foldTicks, he, hcas]
      rw [hk] at hbal
      have htr : (syncBank p t ts)[n + 1].tref.toNat =
          ts[n + 1].tref.toNat + rootTicks p t ts ⟨n + 1, h⟩ * psOf p ts ⟨n + 1, h⟩ := by
        rw [syncBank_getElem p t ts (n + 1) h]; exact hroot
      have hlin : (need' + rootTicks p t ts ⟨n + 1, h⟩) * psOf p ts ⟨n + 1, h⟩ = (need + e) * psOf p ts ⟨n + 1, h⟩ := by
        rw [hbal]
      rw [Nat.add_mul, Nat.add_mul] at hlin
      simp only [overflowFrom, tickCycles]
      rw [syncBank_ctrl, hcas, psOf_syncBank, htr]
      simp only [Bool.false_eq_true, if_false]
      omega
    | true =>
      have hprev : countingFrom ts n (by omega) = true := by
        simp only [countingFrom, hcas, Bool.and_eq_true, Bool.not_true, Bool.false_or] at hc; exact hc.2
      have hk : foldTicks p t ts (n + 1) h = ts[n].overflows (foldTicks p t ts n (by omega)) := by
        simp [foldTicks, he, hcas]
      rw [hk] at hbal
      have hown := ticksLeft_syncBank p t ts n (by omega)
      have hx := ticksLeft_pos ts ⟨n, by omega⟩
      have hx' := ticksLeft_pos (syncBank p t ts) ⟨n, by omega⟩
      have hlin : (need' - 1 + ts[n].overflows (foldTicks p t ts n (by omega))) * cme ts ⟨n, by omega⟩ =
          (need - 1 + e) * cme ts ⟨n, by omega⟩ := by congr 1; omega
      rw [Nat.add_mul, Nat.add_mul] at hlin
      simp only [overflowFrom, tickCycles]
      rw [syncBank_ctrl, hcas]
      simp only [if_true, cme_syncBank]
      rw [ih (by omega) (ticksLeft ts ⟨n, by omega⟩ + (need - 1) * cme ts ⟨n, by omega⟩) _ (e * cme ts ⟨n, by omega⟩)
        (by omega) (by omega) hprev (by omega), periodFrom_eq, Nat.mul_assoc]

/-- A fold to time `t` takes fewer than `need` ticks of timer `n` exactly when `t` is before those ticks are done. -/
theorem foldTicks_lt {p : Params} {t : U64} {ts : TimerBank} (hb : RootsBehind t ts) :
    ∀ n h need, 1 ≤ need → countingFrom ts n h = true →
      (foldTicks p t ts n h < need ↔ t.toNat < overflowFrom p ts n h need) := by
  intro n
  induction n with
  | zero =>
    intro h need _ hc
    have he : ts[0].ctrl.en = true := hc
    have hle := hb 0 (by simp [isRoot]) he
    rw [BitVec.le_def] at hle
    have hk : foldTicks p t ts 0 h = rootTicks p t ts 0 := by simp [foldTicks, he]
    rw [hk]
    unfold rootTicks overflowFrom
    rw [Nat.div_lt_iff_lt_mul (psOf_pos p ts 0)]
    have : (ts[(0 : Fin 4)]) = ts[0] := rfl
    rw [this] at hle ⊢
    omega
  | succ n ih =>
    intro h need hn hc
    have he : ts[n + 1].ctrl.en = true := by
      simp only [countingFrom, Bool.and_eq_true] at hc; exact hc.1
    cases hcas : ts[n + 1].ctrl.cascade with
    | false =>
      have hr : isRoot ts ⟨n + 1, h⟩ = true := by simp [isRoot, hcas]
      have hle := hb ⟨n + 1, h⟩ hr he
      rw [BitVec.le_def] at hle
      have hk : foldTicks p t ts (n + 1) h = rootTicks p t ts ⟨n + 1, h⟩ := by simp [foldTicks, he, hcas]
      rw [hk]
      unfold rootTicks overflowFrom
      rw [hcas, Nat.div_lt_iff_lt_mul (psOf_pos p ts _)]
      simp only [Bool.false_eq_true, if_false]
      have : ts[(⟨n + 1, h⟩ : Fin 4)] = ts[n + 1] := rfl
      rw [this] at hle ⊢
      omega
    | true =>
      have hprev : countingFrom ts n (by omega) = true := by
        simp only [countingFrom, hcas, Bool.and_eq_true, Bool.not_true, Bool.false_or] at hc; exact hc.2
      have hk : foldTicks p t ts (n + 1) h = ts[n].overflows (foldTicks p t ts n (by omega)) := by
        simp [foldTicks, he, hcas]
      have hx := ticksLeft_pos ts ⟨n, by omega⟩
      rw [hk]
      unfold overflowFrom
      rw [hcas]
      simp only [if_true]
      rw [← ih (by omega) _ (by omega) hprev]
      exact advance_overflows_lt _ _ _ _ hn

/-- What a fold does to the next overflow time, as a natural: it moves by a whole period for every overflow folded. -/
theorem overflow_syncBank {p : Params} {t : U64} {ts : TimerBank} (hb : RootsBehind t ts) {n : Fin 4}
    (hc : counting ts n = true) :
    overflowFrom p (syncBank p t ts) n.val n.isLt (ticksLeft (syncBank p t ts) n) =
      overflowFrom p ts n.val n.isLt (ticksLeft ts n) +
        ts[n].overflows (foldTicks p t ts n.val n.isLt) * period p ts n := by
  have hown := ticksLeft_syncBank p t ts n.val n.isLt
  rw [overflowFrom_syncBank hb n.val n.isLt (ticksLeft ts n) (ticksLeft (syncBank p t ts) n) _ (ticksLeft_pos _ _)
    (ticksLeft_pos _ _) hc hown]
  unfold period
  rw [periodFrom_eq, Nat.mul_assoc]
  rfl

/-- No overflow of timer `n` is folded exactly when the fold is to a time before its next overflow. -/
theorem no_overflow_iff {p : Params} {t : U64} {ts : TimerBank} (hb : RootsBehind t ts) {n : Fin 4}
    (hc : counting ts n = true) :
    ts[n].overflows (foldTicks p t ts n.val n.isLt) = 0 ↔
      t.toNat < overflowFrom p ts n.val n.isLt (ticksLeft ts n) := by
  rw [← foldTicks_lt hb n.val n.isLt (ticksLeft ts n) (ticksLeft_pos _ _) hc]
  have := advance_overflows_lt ts[n].value ts[n].reload (foldTicks p t ts n.val n.isLt) 1 (by decide)
  simp only [Nat.sub_self, Nat.zero_mul, Nat.add_zero, Nat.lt_one_iff] at this
  exact this

/-- The roots stay behind the time of a fold. -/
theorem rootsBehind_syncBank {p : Params} {t : U64} {ts : TimerBank} (hb : RootsBehind t ts) :
    RootsBehind t (syncBank p t ts) := by
  intro r hr he
  have he' : ts[r].ctrl.en = true := by
    have h := syncBank_ctrl p t ts r.val r.isLt
    exact (congrArg TimerCtrl.en h).symm.trans he
  rw [isRoot_syncBank] at hr
  rw [syncBank_get, BitVec.le_def]
  exact (foldTref_bounds hb hr he').2.1

/-- After the fold to `t`, an enabled root has no whole tick left, so no timer takes one. -/
theorem foldTicks_syncBank {p : Params} {t : U64} {ts : TimerBank} (hb : RootsBehind t ts) :
    ∀ n h, foldTicks p t (syncBank p t ts) n h = 0 := by
  have hroot : ∀ r : Fin 4, isRoot ts r = true → ts[r].ctrl.en = true → rootTicks p t (syncBank p t ts) r = 0 := by
    intro r hr he
    have hbd := foldTref_bounds (p := p) hb hr he
    unfold rootTicks
    rw [psOf_syncBank]
    have htr : (syncBank p t ts)[r].tref = foldTref p t ts r := by rw [syncBank_get]; rfl
    rw [htr]
    exact Nat.div_eq_of_lt (by omega)
  intro n
  induction n with
  | zero =>
    intro h
    unfold foldTicks
    rw [syncBank_ctrl]
    split
    · rename_i he
      exact hroot 0 (by simp [isRoot]) he
    · rfl
  | succ n ih =>
    intro h
    unfold foldTicks
    rw [syncBank_ctrl]
    split
    · rename_i he
      split
      · rw [ih, Timer.overflows_zero]
      · rename_i hcas
        exact hroot ⟨n + 1, h⟩ (by simp [isRoot, hcas]) he
    · rfl

/-- After the fold to `t` an enabled root has less than one whole tick to go to `t`. -/
theorem lt_foldTref (p : Params) (t : U64) (ts : TimerBank) {r : Fin 4} (hr : isRoot ts r = true)
    (he : ts[r].ctrl.en = true) : t.toNat < (foldTref p t ts r).toNat + psOf p ts r := by
  have hps := psOf_pos p ts r
  have hdm := Nat.div_add_mod (t.toNat - ts[r].tref.toNat) (psOf p ts r)
  have hm := Nat.mod_lt (t.toNat - ts[r].tref.toNat) hps
  have ht := t.isLt
  unfold foldTref
  rw [hr, he]
  simp only [Bool.and_self, if_true, sat64_toNat]
  unfold rootTicks
  rw [Nat.mul_comm] at hdm
  omega

/-- After a fold to `t` every further tick of a counting timer lies after `t`. -/
theorem lt_overflowFrom_syncBank (p : Params) (t : U64) (ts : TimerBank) :
    ∀ n h need, 1 ≤ need → countingFrom ts n h = true → t.toNat < overflowFrom p (syncBank p t ts) n h need := by
  intro n
  induction n with
  | zero =>
    intro h need hn hc
    have hlt := lt_foldTref p t ts (r := 0) (by simp [isRoot]) hc
    have htr : (syncBank p t ts)[0].tref = foldTref p t ts 0 := by rw [syncBank_getElem p t ts 0 (by decide)]; rfl
    have := Nat.mul_le_mul_right (psOf p ts 0) hn
    unfold overflowFrom
    rw [psOf_syncBank, htr]
    omega
  | succ n ih =>
    intro h need hn hc
    have he : ts[n + 1].ctrl.en = true := by
      simp only [countingFrom, Bool.and_eq_true] at hc; exact hc.1
    unfold overflowFrom
    rw [syncBank_ctrl]
    cases hcas : ts[n + 1].ctrl.cascade with
    | false =>
      have hlt := lt_foldTref p t ts (r := ⟨n + 1, h⟩) (by simp [isRoot, hcas]) he
      have htr : (syncBank p t ts)[n + 1].tref = foldTref p t ts ⟨n + 1, h⟩ := by
        rw [syncBank_getElem p t ts (n + 1) h]; rfl
      have := Nat.mul_le_mul_right (psOf p ts ⟨n + 1, h⟩) hn
      rw [psOf_syncBank, htr]
      simp only [Bool.false_eq_true, if_false]
      omega
    | true =>
      simp only [if_true]
      have hx := ticksLeft_pos (syncBank p t ts) ⟨n, by omega⟩
      refine ih (by omega) _ (by omega) ?_
      simp only [countingFrom, hcas, Bool.and_eq_true, Bool.not_true, Bool.false_or] at hc; exact hc.2

/-- After a fold to `t` every counting timer's next overflow lies after `t` (R194). -/
theorem lt_overflow_syncBank {p : Params} {t : U64} {ts : TimerBank} {n : Fin 4} (hc : counting ts n = true) :
    t.toNat < overflowFrom p (syncBank p t ts) n.val n.isLt (ticksLeft (syncBank p t ts) n) :=
  lt_overflowFrom_syncBank p t ts _ _ _ (ticksLeft_pos _ _) hc

/-! The ticks of a fold as R193 carries them. -/

/-- `foldTicks` counts as R193 does. -/
theorem foldCounts_foldTicks (p : Params) (t : U64) (ts : TimerBank) :
    FoldCounts p t ts fun n => foldTicks p t ts n.val n.isLt where
  disabled n he := by
    obtain ⟨n, hn⟩ := n
    cases n <;> exact if_neg (Bool.eq_false_iff.mp he)
  root n hr he := by
    obtain ⟨n, hn⟩ := n
    cases n with
    | zero => exact if_pos he
    | succ n =>
      have hcas : ts[n + 1].ctrl.cascade = false := by simpa [isRoot] using hr
      exact (if_pos he).trans (if_neg (Bool.eq_false_iff.mp hcas))
  cascaded m n hmn hcas he := by
    obtain ⟨m, hm⟩ := m
    obtain ⟨n, hn⟩ := n
    simp only at hmn
    subst hmn
    exact (if_pos he).trans (if_pos hcas)

/-- Any count that carries as R193 does is `foldTicks`. -/
theorem FoldCounts.eq_foldTicks {p : Params} {t : U64} {ts : TimerBank} {k : Fin 4 → Nat} (h : FoldCounts p t ts k) :
    ∀ n hn, k ⟨n, hn⟩ = foldTicks p t ts n hn
  | 0, hn => by
    have h0 := foldCounts_foldTicks p t ts
    cases he : ts[0].ctrl.en
    · exact (h.disabled ⟨0, hn⟩ he).trans (h0.disabled ⟨0, hn⟩ he).symm
    · exact (h.root ⟨0, hn⟩ (by simp [isRoot]) he).trans (h0.root ⟨0, hn⟩ (by simp [isRoot]) he).symm
  | n + 1, hn => by
    have h0 := foldCounts_foldTicks p t ts
    cases he : ts[n + 1].ctrl.en
    · exact (h.disabled ⟨n + 1, hn⟩ he).trans (h0.disabled ⟨n + 1, hn⟩ he).symm
    · cases hcas : ts[n + 1].ctrl.cascade
      · have hr : isRoot ts ⟨n + 1, hn⟩ = true := by simp [isRoot, hcas]
        exact (h.root ⟨n + 1, hn⟩ hr he).trans (h0.root ⟨n + 1, hn⟩ hr he).symm
      · have hprev := h.eq_foldTicks n (by omega)
        rw [h.cascaded ⟨n, by omega⟩ ⟨n + 1, hn⟩ rfl hcas he, hprev]
        exact (h0.cascaded ⟨n, by omega⟩ ⟨n + 1, hn⟩ rfl hcas he).symm

end Sys2Proof.Machine
end

