-- ==== Sys2Proof/Laws/RunLoop.lean ====
section
/-! SUPPORT. What the queue operations leave alone, and what `Dispatch` can do, said once: how its loop ends, and that
it ends (41_run_loop.md R141, R150). -/

namespace Sys2Proof.Machine

/-! Frames. -/

/-- `t` is `s` but for the event table, `SEQ_NEXT`, `IRQ_PENDING`, `SUSPEND_REQ` and the trace. -/
structure QueueFrame (s t : State) : Prop where
  g : t.g = s.g
  phase : t.phase = s.phase
  runDrv : t.runDrv = s.runDrv
  runBase : t.runBase = s.runBase
  runElapsed : t.runElapsed = s.runElapsed
  runBudget : t.runBudget = s.runBudget
  cbKind : t.cbKind = s.cbKind
  active : t.active = s.active
  ledger : t.ledger = s.ledger
  tmr : t.tmr = s.tmr
  faultStatus : t.faultStatus = s.faultStatus
  faultCmd : t.faultCmd = s.faultCmd
  result : t.result = s.result
  inbox : t.inbox = s.inbox
  params : t.params = s.params
  freeCtr : t.freeCtr = s.freeCtr

theorem QueueFrame.rfl (s : State) : QueueFrame s s := by constructor <;> rfl

theorem QueueFrame.trans {s t u : State} (h1 : QueueFrame s t) (h2 : QueueFrame t u) : QueueFrame s u :=
  ⟨h2.g.trans h1.g, h2.phase.trans h1.phase, h2.runDrv.trans h1.runDrv, h2.runBase.trans h1.runBase,
    h2.runElapsed.trans h1.runElapsed, h2.runBudget.trans h1.runBudget, h2.cbKind.trans h1.cbKind,
    h2.active.trans h1.active, h2.ledger.trans h1.ledger, h2.tmr.trans h1.tmr, h2.faultStatus.trans h1.faultStatus,
    h2.faultCmd.trans h1.faultCmd, h2.result.trans h1.result, h2.inbox.trans h1.inbox, h2.params.trans h1.params,
    h2.freeCtr.trans h1.freeCtr⟩

theorem remove_frame (k : Fin 16) (s : State) : QueueFrame s (remove k s) := by
  rw [remove_eq]; constructor <;> rfl

theorem scheduleAt_frame (k : Fin 16) (t : U64) (s : State) : QueueFrame s (scheduleAt k t s) := by
  rw [scheduleAt_eq]; constructor <;> rfl

theorem insert_frame (k : Fin 16) (t : U64) (s : State) : QueueFrame s (insert k t s) := by
  rw [insert_eq]; constructor <;> rfl

theorem raiseSource_frame (m : U16) (s : State) : QueueFrame s (raiseSource m s) := by
  rcases raiseSource_cases m s with ⟨-, h⟩ | ⟨-, -, h⟩ | ⟨-, -, h⟩ <;> rw [h]
  · exact QueueFrame.rfl s
  · constructor <;> rfl
  · rw [insert_eq]; constructor <;> rfl

theorem irqDeliver_frame (s : State) : QueueFrame s (irqDeliver s) := by constructor <;> rfl

theorem rescheduleTimer_frame (s : State) (n : Fin 4) : QueueFrame s (rescheduleTimer s n) := by
  unfold rescheduleTimer
  split
  · exact scheduleAt_frame _ _ _
  · exact remove_frame _ _

/-- `TimerReschedule` touches the queue only (43_timer_cascade.md R197). -/
theorem timerReschedule_frame (l : List (Fin 4)) (s : State) : QueueFrame s (timerReschedule l s) := by
  induction l generalizing s with
  | nil => exact QueueFrame.rfl s
  | cons n l ih => exact (rescheduleTimer_frame s n).trans (ih _)

/-- The overflow callback folds the timers and touches the queue, nothing else (43_timer_cascade.md R206). -/
theorem timerOverflowEvent_frame (n : Fin 4) (s : State) :
    QueueFrame (timerSyncAll s.g s) (timerOverflowEvent n s) := by
  unfold timerOverflowEvent
  simp only
  split
  · exact (raiseSource_frame _ _).trans (insert_frame _ _ _)
  · exact raiseSource_frame _ _

/-! The event table after a queue operation. -/

theorem insert_slot (j k : Fin 16) (t : U64) (s : State) :
    (insert k t s).slot j = if j = k then { v := true, t := t, s := s.seqNext } else s.slot j := by
  rw [insert_eq]
  by_cases h : j = k
  · subst h; simp [State.slot]
  · have : k.val ≠ j.val := fun e => h (Fin.ext e.symm)
    simp [State.slot, h, this]

theorem pop_slot (j k : Fin 16) (s : State) :
    (pop k s).slot j = if j = k then { s.slot k with v := false } else s.slot j := by
  by_cases h : j = k
  · subst h; simp [State.slot, pop]
  · have : k.val ≠ j.val := fun e => h (Fin.ext e.symm)
    simp [State.slot, pop, h, this]

/-- `RaiseSource` creates the delivery event if it is absent, and touches no other (60_exceptions.md R277). -/
theorem raiseSource_slot_ne {j : Fin 16} (hj : j ≠ irqKind) (m : U16) (s : State) :
    (raiseSource m s).slot j = s.slot j := by
  rcases raiseSource_cases m s with ⟨-, h⟩ | ⟨-, -, h⟩ | ⟨-, -, h⟩ <;> rw [h]
  · rfl
  · rw [insert_slot, if_neg hj]; rfl

theorem timerKind_ne_irqKind (n : Fin 4) : timerKind n ≠ irqKind := by revert n; decide

/-- The overflow callback leaves every other kind's event alone, but for the delivery of the interrupt it raises. -/
theorem timerOverflowEvent_slot_ne {n : Fin 4} {j : Fin 16} (h1 : j ≠ timerKind n) (h2 : j ≠ irqKind) (s : State) :
    (timerOverflowEvent n s).slot j = s.slot j := by
  unfold timerOverflowEvent
  simp only
  split
  · rw [insert_slot, if_neg h1, raiseSource_slot_ne h2]; rfl
  · rw [raiseSource_slot_ne h2]; rfl

/-- After the overflow callback the timer's own event is absent or lies after now (43_timer_cascade.md R206, R194). -/
theorem timerOverflowEvent_slot_self {n : Fin 4} {s : State} (hv : (s.slot (timerKind n)).v = false) :
    ((timerOverflowEvent n s).slot (timerKind n)).v = true →
      s.g < ((timerOverflowEvent n s).slot (timerKind n)).t := by
  unfold timerOverflowEvent
  simp only
  have hf := raiseSource_frame (timerSource s.params n) (timerSyncAll s.g s)
  split
  · rename_i hw
    intro _
    rw [insert_slot, if_pos rfl]
    simp only
    rw [hf.params, hf.tmr] at hw ⊢
    simp only [wantsEvent, Bool.and_eq_true, decide_eq_true_eq] at hw
    have hc : counting s.tmr n = true := by
      rw [← counting_syncBank s.params s.g]; exact hw.1.1
    have hlt := lt_overflow_syncBank (p := s.params) (t := s.g) hc
    have hmax := hw.2
    rw [BitVec.lt_def] at hmax ⊢
    unfold nextOverflowTime at hmax ⊢
    rw [sat64_toNat] at hmax ⊢
    rw [max64_toNat] at hmax
    change s.g.toNat < min (overflowFrom s.params (syncBank s.params s.g s.tmr) n.val n.isLt
      (ticksLeft (syncBank s.params s.g s.tmr) n)) (2 ^ 64 - 1)
    change min (overflowFrom s.params (syncBank s.params s.g s.tmr) n.val n.isLt
      (ticksLeft (syncBank s.params s.g s.tmr) n)) (2 ^ 64 - 1) < 2 ^ 64 - 1 at hmax
    omega
  · intro h
    rw [raiseSource_slot_ne (timerKind_ne_irqKind n)] at h
    change (s.slot (timerKind n)).v = true at h
    rw [hv] at h
    exact absurd h (by decide)

/-! How the loop of `Dispatch` ends. -/

/-- A chain of internal callbacks at due events, the repeating part of R141, with their number. -/
inductive Pops : Nat → State → State → Prop where
  | done (s : State) : Pops 0 s s
  | more {m : Nat} {s s1 t : State} (k : Fin 16) (hk : headKind s = some k) (hdue : ¬ s.g < (s.slot k).t)
      (hcb : internalCallback k (pop k s) = some s1) (rest : Pops m s1 t) : Pops (m + 1) s t

/-- What every internal callback keeps, a chain of them keeps. -/
theorem Pops.keeps {P : State → Prop}
    (hP : ∀ s k s1, P s → headKind s = some k → ¬ s.g < (s.slot k).t → internalCallback k (pop k s) = some s1 → P s1)
    {m : Nat} {s t : State} (h : Pops m s t) (hs : P s) : P t := by
  induction h with
  | done => exact hs
  | more k hk hdue hcb _ ih => exact ih (hP _ k _ hs hk hdue hcb)

/-- The three ends of `Dispatch` in the state `u` its loop has reached (41_run_loop.md R141). -/
def DispatchEnd (cw : U16) (u t : State) : Prop :=
  (headKind u = none ∧ t = raiseFault .emptyQueue cw u) ∨
  (∃ k, headKind u = some k ∧ u.g < (u.slot k).t ∧ t = grant (front u) ((u.slot k).t - u.g) u) ∨
  (∃ k, headKind u = some k ∧ ¬ u.g < (u.slot k).t ∧ 5 ≤ k.val ∧ t = fireExternal k (pop k u))

/-- An internal callback is a timer's overflow or the interrupt delivery. -/
theorem internalCallback_cases {k : Fin 16} {s s1 : State} (h : internalCallback k s = some s1) :
    (∃ n, k = timerKind n ∧ s1 = timerOverflowEvent n s) ∨ (k = irqKind ∧ s1 = irqDeliver s) := by
  unfold internalCallback timerOfKind at h
  split at h
  · rename_i n hn
    split at hn
    · simp only [Option.some.injEq] at hn h
      exact .inl ⟨n, by subst hn; rfl, h.symm⟩
    · exact absurd hn (by simp)
  · split at h
    · rename_i hk
      simp only [Option.some.injEq] at h
      exact .inr ⟨hk, h.symm⟩
    · exact absurd h (by simp)

theorem internalCallback_eq_none {k : Fin 16} {s : State} : internalCallback k s = none ↔ 5 ≤ k.val := by
  unfold internalCallback timerOfKind irqKind
  by_cases h : k.val < 4
  · simp only [h, dif_pos]
    constructor
    · intro h'; exact absurd h' (by simp)
    · intro h'; omega
  · simp only [h, dif_neg, not_false_iff]
    by_cases h4 : k = 4
    · subst h4; simp
    · have : k.val ≠ 4 := fun e => h4 (Fin.ext e)
      simp only [h4, if_false, true_iff]
      omega

/-- Everything the loop can answer (41_run_loop.md R141). -/
theorem dispatchLoop_cases (cw : U16) :
    ∀ n s, dispatchLoop cw n s = .fault .dispatchUnbounded ∨
      ∃ m u t, Pops m s u ∧ DispatchEnd cw u t ∧ dispatchLoop cw n s = .next t
  | 0, _ => .inl rfl
  | n + 1, s => by
    unfold dispatchLoop
    cases hk : headKind s with
    | none => exact .inr ⟨0, s, _, .done s, .inl ⟨hk, rfl⟩, rfl⟩
    | some k =>
      simp only
      by_cases hd : s.g < (s.slot k).t
      · exact .inr ⟨0, s, _, .done s, .inr (.inl ⟨k, hk, hd, rfl⟩), by simp only [hd, if_true]⟩
      · simp only [hd, if_false]
        cases hcb : internalCallback k (pop k s) with
        | none => exact .inr ⟨0, s, _, .done s, .inr (.inr ⟨k, hk, hd, internalCallback_eq_none.mp hcb, rfl⟩), rfl⟩
        | some s1 =>
          rcases dispatchLoop_cases cw n s1 with h | ⟨m, u, t, hu, ht, h⟩
          · exact .inl h
          · exact .inr ⟨m + 1, u, t, .more k hk hd hcb hu, ht, h⟩

/-! That it ends (R150). -/

/-- Whether kind `k` is pending and due. -/
def due (s : State) (k : Fin 16) : Bool := (s.slot k).v && decide ((s.slot k).t ≤ s.g)

/-- What the internal callbacks use up: two for every due timer event, which may raise the interrupt once more, and one
for a due delivery. -/
def duePops (s : State) : Nat :=
  2 * ((due s 0).toNat + (due s 1).toNat + (due s 2).toNat + (due s 3).toNat) + (due s 4).toNat

theorem duePops_le (s : State) : duePops s ≤ 9 := by
  unfold duePops
  have h : ∀ b : Bool, b.toNat ≤ 1 := by decide
  have := h (due s 0); have := h (due s 1); have := h (due s 2); have := h (due s 3); have := h (due s 4)
  omega

theorem due_mono {s t : State} {k : Fin 16} (hs : t.slot k = s.slot k) (hg : t.g ≤ s.g) :
    (due t k).toNat ≤ (due s k).toNat := by
  unfold due
  rw [hs]
  cases (s.slot k).v
  · simp
  · by_cases h : (s.slot k).t ≤ t.g
    · have : (s.slot k).t ≤ s.g := BitVec.le_trans h hg
      simp [h, this]
    · simp [h]

/-- An internal callback uses up at least one. -/
theorem duePops_callback {s s1 : State} {k : Fin 16} (hk : headKind s = some k) (hd : ¬ s.g < (s.slot k).t)
    (hcb : internalCallback k (pop k s) = some s1) : duePops s1 < duePops s := by
  have hv := (headKind_spec hk).1
  have hle : (s.slot k).t ≤ s.g := by rw [BitVec.le_def]; rw [BitVec.lt_def] at hd; omega
  have hdue : (due s k).toNat = 1 := by unfold due; rw [hv]; simp [hle]
  have hbool : ∀ b : Bool, b.toNat ≤ 1 := by decide
  rcases internalCallback_cases hcb with ⟨n, rfl, rfl⟩ | ⟨rfl, rfl⟩
  · have hg : (timerOverflowEvent n (pop (timerKind n) s)).g ≤ s.g := by
      rw [(timerOverflowEvent_frame n _).g]; exact hle
    have hself : (due (timerOverflowEvent n (pop (timerKind n) s)) (timerKind n)).toNat = 0 := by
      have h := timerOverflowEvent_slot_self (n := n) (s := pop (timerKind n) s) (by rw [pop_slot, if_pos rfl])
      have hgg : (timerOverflowEvent n (pop (timerKind n) s)).g = (pop (timerKind n) s).g :=
        (timerOverflowEvent_frame n _).g
      unfold due
      rw [hgg]
      cases hv' : ((timerOverflowEvent n (pop (timerKind n) s)).slot (timerKind n)).v
      · simp
      · have := h hv'
        rw [BitVec.lt_def] at this
        simp [BitVec.le_def]
        omega
    have hother : ∀ j : Fin 16, j ≠ timerKind n → j ≠ irqKind →
        (due (timerOverflowEvent n (pop (timerKind n) s)) j).toNat ≤ (due s j).toNat := fun j h1 h2 =>
      due_mono (by rw [timerOverflowEvent_slot_ne h1 h2, pop_slot, if_neg h1]) hg
    have hirq := hbool (due (timerOverflowEvent n (pop (timerKind n) s)) 4)
    unfold duePops
    fin_cases n
    · have := hother 1 (by decide) (by decide); have := hother 2 (by decide) (by decide)
      have := hother 3 (by decide) (by decide)
      change (due s 0).toNat = 1 at hdue
      change (due _ 0).toNat = 0 at hself
      rw [hself]
      omega
    · have := hother 0 (by decide) (by decide); have := hother 2 (by decide) (by decide)
      have := hother 3 (by decide) (by decide)
      change (due s 1).toNat = 1 at hdue
      change (due _ 1).toNat = 0 at hself
      rw [hself]
      omega
    · have := hother 0 (by decide) (by decide); have := hother 1 (by decide) (by decide)
      have := hother 3 (by decide) (by decide)
      change (due s 2).toNat = 1 at hdue
      change (due _ 2).toNat = 0 at hself
      rw [hself]
      omega
    · have := hother 0 (by decide) (by decide); have := hother 1 (by decide) (by decide)
      have := hother 2 (by decide) (by decide)
      change (due s 3).toNat = 1 at hdue
      change (due _ 3).toNat = 0 at hself
      rw [hself]
      omega
  · have hother : ∀ j : Fin 16, j ≠ irqKind → (due (irqDeliver (pop irqKind s)) j).toNat ≤ (due s j).toNat :=
      fun j h1 => due_mono (by
        change (pop irqKind s).slot j = _
        rw [pop_slot, if_neg h1]) hle
    have hself : (due (irqDeliver (pop irqKind s)) irqKind).toNat = 0 := by
      have : (irqDeliver (pop irqKind s)).slot irqKind = { s.slot irqKind with v := false } := by
        change (pop irqKind s).slot irqKind = _
        rw [pop_slot, if_pos rfl]
      unfold due
      rw [this]
      rfl
    have := hother 0 (by decide); have := hother 1 (by decide)
    have := hother 2 (by decide); have := hother 3 (by decide)
    unfold duePops
    change (due s 4).toNat = 1 at hdue
    change (due _ 4).toNat = 0 at hself
    rw [hself]
    omega

/-- With more rounds than due internal events the loop ends (R150). -/
theorem dispatchLoop_ends (cw : U16) :
    ∀ n s, duePops s < n →
      ∃ m u t, m ≤ duePops s ∧ Pops m s u ∧ DispatchEnd cw u t ∧ dispatchLoop cw n s = .next t
  | 0, _, h => absurd h (by omega)
  | n + 1, s, h => by
    unfold dispatchLoop
    cases hk : headKind s with
    | none => exact ⟨0, s, _, Nat.zero_le _, .done s, .inl ⟨hk, rfl⟩, rfl⟩
    | some k =>
      simp only
      by_cases hd : s.g < (s.slot k).t
      · exact ⟨0, s, _, Nat.zero_le _, .done s, .inr (.inl ⟨k, hk, hd, rfl⟩), by simp only [hd, if_true]⟩
      · simp only [hd, if_false]
        cases hcb : internalCallback k (pop k s) with
        | none => exact ⟨0, s, _, Nat.zero_le _, .done s, .inr (.inr ⟨k, hk, hd, internalCallback_eq_none.mp hcb, rfl⟩), rfl⟩
        | some s1 =>
          have hlt := duePops_callback hk hd hcb
          obtain ⟨m, u, t, hm, hu, ht, h'⟩ := dispatchLoop_ends cw n s1 (by omega)
          exact ⟨m + 1, u, t, by omega, .more k hk hd hcb hu, ht, h'⟩

/-- `Dispatch` ends, in one of its three ways, after a chain of internal callbacks (41_run_loop.md R141). -/
theorem dispatch_ends (cw : U16) (s : State) :
    ∃ m u t, Pops m { s with phase := .dispatch } u ∧ DispatchEnd cw u t ∧ dispatch cw s = .next t := by
  obtain ⟨m, u, t, -, h⟩ := dispatchLoop_ends cw 10 { s with phase := .dispatch } (Nat.lt_succ_of_le (duePops_le _))
  exact ⟨m, u, t, h⟩

/-! What a chain of internal callbacks keeps. -/

/-- What every round of `Dispatch` keeps. -/
structure PopFrame (s t : State) : Prop where
  phase : t.phase = s.phase
  runDrv : t.runDrv = s.runDrv
  runBase : t.runBase = s.runBase
  runElapsed : t.runElapsed = s.runElapsed
  runBudget : t.runBudget = s.runBudget
  cbKind : t.cbKind = s.cbKind
  active : t.active = s.active
  ledger : t.ledger = s.ledger
  faultStatus : t.faultStatus = s.faultStatus
  faultCmd : t.faultCmd = s.faultCmd
  result : t.result = s.result
  inbox : t.inbox = s.inbox
  params : t.params = s.params

theorem callback_popFrame {s s1 : State} {k : Fin 16} (hcb : internalCallback k (pop k s) = some s1) :
    PopFrame s s1 := by
  rcases internalCallback_cases hcb with ⟨n, -, rfl⟩ | ⟨-, rfl⟩
  · have h := timerOverflowEvent_frame n (pop k s)
    exact ⟨h.phase, h.runDrv, h.runBase, h.runElapsed, h.runBudget, h.cbKind, h.active, h.ledger, h.faultStatus,
      h.faultCmd, h.result, h.inbox, h.params⟩
  · constructor <;> rfl

theorem Pops.frame {m : Nat} {s t : State} (h : Pops m s t) : PopFrame s t := by
  refine h.keeps (P := fun u => PopFrame s u) (fun u k u1 hu _ _ hcb => ?_) (by constructor <;> rfl)
  have h1 := callback_popFrame hcb
  exact ⟨h1.phase.trans hu.phase, h1.runDrv.trans hu.runDrv, h1.runBase.trans hu.runBase,
    h1.runElapsed.trans hu.runElapsed, h1.runBudget.trans hu.runBudget, h1.cbKind.trans hu.cbKind,
    h1.active.trans hu.active, h1.ledger.trans hu.ledger, h1.faultStatus.trans hu.faultStatus,
    h1.faultCmd.trans hu.faultCmd, h1.result.trans hu.result, h1.inbox.trans hu.inbox, h1.params.trans hu.params⟩

end Sys2Proof.Machine
end

