-- ==== Sys2Proof/Laws/Reschedule.lean ====
section
/-! SUPPORT. Everything `TimerReschedule` can do, said once (43_timer_cascade.md R196, R197). -/

namespace Sys2Proof.Machine

theorem timerKind_inj {m n : Fin 4} (h : timerKind m = timerKind n) : m = n := by
  revert m n; decide

/-- Reading a slot of a table in which one was written. -/
theorem slot_of_set {s t : State} {k : Fin 16} {e : Slot} (h : t.evt = s.evt.set k e) (j : Fin 16) :
    t.slot j = if j = k then e else s.slot j := by
  unfold State.slot
  rw [h]
  by_cases hj : j = k
  · subst hj; simp
  · have : k.val ≠ j.val := fun e => hj (Fin.ext e.symm)
    simp [hj, this]

/-- The head midway is the head of any state with that table. -/
theorem headKind_midway {s t u : State} {x : Nat} (hf : u.freeCtr = s.freeCtr)
    (h : ∀ k : Fin 16, u.slot k = if k.val < x then t.slot k else s.slot k) :
    headKind (midway s t x) = headKind u := by
  refine headKind_congr ?_ hf.symm
  ext i hi
  all_goals
    have := h ⟨i, hi⟩
    simp only [State.slot, Fin.getElem_fin] at this
    simp only [midway, Vector.getElem_ofFn, State.slot, Fin.getElem_fin, this]

/-- `Remove(k)` on the slots. -/
theorem remove_slot (k : Fin 16) (s : State) (j : Fin 16) :
    (remove k s).slot j = if j = k then { s.slot k with v := false } else s.slot j := by
  by_cases hv : (s.slot k).v = true
  · have h : (remove k s).slot j = (s.setSlot k { s.slot k with v := false }).slot j := by
      simp only [remove, if_pos hv, suspendFrontIf_eq]
      rfl
    rw [h, slot_of_set (s := s) rfl j]
  · have h : remove k s = s := if_neg hv
    rw [h]
    split
    · rename_i hj
      rw [hj]
      cases hs : s.slot k
      simp_all
    · rfl

/-- What rescheduling the timers of `l`, in increasing order, makes of `s`. -/
structure RescheduleSpec (l : List (Fin 4)) (s t : State) : Prop where
  frame : QueueFrame s t
  irqPending : t.irqPending = s.irqPending
  seqNext : t.seqNext = sat64 (s.seqNext.toNat + l.countP (wantsEvent s.params s.tmr))
  others : ∀ k, (∀ m ∈ l, k ≠ timerKind m) → t.slot k = s.slot k
  scheduled : ∀ m ∈ l, wantsEvent s.params s.tmr m = true →
    t.slot (timerKind m) =
      { v := true, t := nextOverflowTime s.params s.tmr m
        s := sat64 (s.seqNext.toNat + l.countP fun j => decide (j < m) && wantsEvent s.params s.tmr j) }
  removed : ∀ m ∈ l, wantsEvent s.params s.tmr m = false →
    t.slot (timerKind m) = { s.slot (timerKind m) with v := false }
  strobes :
    let rounds := l.filter fun m => decide (HeadMoves s t m)
    t.trace = s.trace ++ rounds.map (fun _ => .suspend (front s)) ∧
      t.suspendReq = (s.suspendReq || (!rounds.isEmpty && decide (s.phase = .running) && decide (front s = s.runDrv)))

/-- One round of R197: the slot it writes, the sequence number it uses up, the strobe where the kind was or becomes the
head (R110). -/
theorem rescheduleTimer_eq (s : State) (n : Fin 4) :
    let t := rescheduleTimer s n
    let w := wantsEvent s.params s.tmr n
    let b := decide (headKind s = some (timerKind n)) || decide (headKind t = some (timerKind n))
    (∀ k, k ≠ timerKind n → t.slot k = s.slot k) ∧
    t.slot (timerKind n) =
      (if w then { v := true, t := nextOverflowTime s.params s.tmr n, s := s.seqNext }
        else { s.slot (timerKind n) with v := false }) ∧
    t.seqNext = sat64 (s.seqNext.toNat + w.toNat) ∧
    t.trace = s.trace ++ (if b then [.suspend (front s)] else []) ∧
    t.suspendReq = (s.suspendReq || (b && (decide (s.phase = .running) && decide (front s = s.runDrv)))) ∧
    t.irqPending = s.irqPending := by
  unfold rescheduleTimer
  split
  · rename_i hw
    have hv : ((s.slot (timerKind n)).v && decide (headKind s = some (timerKind n))) =
        decide (headKind s = some (timerKind n)) := by
      by_cases h : headKind s = some (timerKind n)
      · simp [h, (headKind_spec h).1]
      · simp [h]
    rw [scheduleAt_eq]
    simp only [hv, hw, if_true, Bool.toNat_true]
    refine ⟨fun k hk => ?_, ?_, trivial, ?_⟩
    · rw [slot_of_set (s := s) rfl, if_neg hk]
    · rw [slot_of_set (s := s) rfl, if_pos rfl]
    · rw [headKind_congr (s := enqueue (timerKind n) (nextOverflowTime s.params s.tmr n) s) rfl rfl]
      exact ⟨rfl, rfl, trivial⟩
  · rename_i hw
    have hw' : wantsEvent s.params s.tmr n = false := by simpa using hw
    have hslot := remove_slot (timerKind n) s
    have hb : (decide (headKind s = some (timerKind n)) || decide (headKind (remove (timerKind n) s) = some (timerKind n))) =
        ((s.slot (timerKind n)).v && decide (headKind s = some (timerKind n))) := by
      have h2 : headKind (remove (timerKind n) s) ≠ some (timerKind n) := fun h => by
        have := (headKind_spec h).1
        rw [hslot, if_pos rfl] at this
        exact absurd this (by simp)
      by_cases h : headKind s = some (timerKind n)
      · simp [h, (headKind_spec h).1]
      · simp [h, h2]
    simp only [hb, hw', Bool.toNat_false, Nat.add_zero, sat64_toNat_self, Bool.false_eq_true, if_false]
    refine ⟨fun k hk => by rw [hslot, if_neg hk], by rw [hslot, if_pos rfl], ?_, ?_, ?_, ?_⟩ <;> rw [remove_eq]

theorem front_of_active {s t : State} (h : t.active = s.active) : front t = front s := by
  unfold front State.isActive State.activeMask
  rw [h]

/-- All rounds of R197. -/
theorem timerReschedule_spec :
    ∀ (l : List (Fin 4)) (s : State), l.Pairwise (· < ·) → RescheduleSpec l s (timerReschedule l s)
  | [], s, _ => by
    refine ⟨QueueFrame.rfl s, rfl, ?_, fun _ _ => rfl, by simp, by simp, ?_⟩
    · simp [timerReschedule, sat64_toNat_self]
    · simp [timerReschedule]
  | n :: l, s, hord => by
    obtain ⟨hlt, hord'⟩ := List.pairwise_cons.mp hord
    have h1 := rescheduleTimer_eq s n
    have hf := rescheduleTimer_frame s n
    have h2 := timerReschedule_spec l (rescheduleTimer s n) hord'
    have hp := hf.params
    have ht := hf.tmr
    have hstep : timerReschedule (n :: l) s = timerReschedule l (rescheduleTimer s n) := rfl
    rw [hstep]
    simp only at h1
    generalize rescheduleTimer s n = s1 at *
    generalize timerReschedule l s1 = t at *
    obtain ⟨hoth, hown, hseq, htr, hsr, hirq⟩ := h1
    have hkeep : t.slot (timerKind n) = s1.slot (timerKind n) :=
      h2.others _ fun m hm e => absurd (hlt m hm) (by rw [timerKind_inj e]; exact lt_irrefl _)
    have hne : ∀ m ∈ l, timerKind m ≠ timerKind n := fun m hm e =>
      absurd (hlt m hm) (by rw [timerKind_inj e]; exact lt_irrefl _)
    have hbelow : ∀ k : Fin 16, k.val < n.val → t.slot k = s.slot k := fun k hk => by
      rw [h2.others k fun m hm e => ?_, hoth k fun e => ?_]
      · rw [e] at hk; exact absurd hk (by simp [timerKind])
      · rw [e] at hk
        have := hlt m hm
        simp only [timerKind, Fin.val_castLE] at hk
        omega
    have hown_head : HeadMoves s t n ↔ (headKind s = some (timerKind n) ∨ headKind s1 = some (timerKind n)) := by
      unfold HeadMoves
      rw [headKind_midway (u := s) rfl, headKind_midway (u := s1) hf.freeCtr]
      · intro k
        split
        · rename_i hk
          by_cases he : k = timerKind n
          · rw [he, hkeep]
          · have : k.val < n.val := by
              have : k.val ≠ n.val := fun h => he (Fin.ext h)
              omega
            rw [hbelow k this, hoth k he]
        · rename_i hk
          rw [hoth k fun e => hk (by rw [e]; simp [timerKind])]
      · intro k
        split
        · rename_i hk; exact (hbelow k hk).symm
        · rfl
    have hrest_head : ∀ m ∈ l, (HeadMoves s t m ↔ HeadMoves s1 t m) := fun m hm => by
      have hnm := hlt m hm
      have hmid : ∀ x, n.val < x → headKind (midway s t x) = headKind (midway s1 t x) := fun x hx => by
        refine headKind_midway hf.freeCtr fun k => ?_
        simp only [midway, State.slot, Fin.getElem_fin, Vector.getElem_ofFn]
        split
        · rfl
        · rename_i hk
          exact hoth k fun e => hk (by rw [e]; simpa [timerKind] using hx)
      unfold HeadMoves
      rw [hmid m.val hnm, hmid (m.val + 1) (by omega)]
    have hfilter : (l.filter fun m => decide (HeadMoves s t m)) = l.filter fun m => decide (HeadMoves s1 t m) :=
      List.filter_congr fun m hm => decide_eq_decide.mpr (hrest_head m hm)
    refine ⟨hf.trans h2.frame, ?_, ?_, ?_, ?_, ?_, ?_⟩
    · exact h2.irqPending.trans hirq
    · rw [h2.seqNext, hseq, sat64_add, hp, ht, List.countP_cons]
      congr 1
      cases wantsEvent s.params s.tmr n
      · simp
      · simp; omega
    · intro k hk
      rw [h2.others k fun m hm => hk m (List.mem_cons_of_mem _ hm)]
      exact hoth k (hk n (by simp))
    · intro m hm hw
      rcases List.mem_cons.mp hm with rfl | hm
      · have hz : l.countP (fun j => decide (j < m) && wantsEvent s.params s.tmr j) = 0 :=
          List.countP_eq_zero.mpr fun j hj => by simp [not_lt.mpr (hlt j hj).le]
        rw [hkeep, hown, if_pos hw, List.countP_cons, hz]
        simp [sat64_toNat_self]
      · have := h2.scheduled m hm (by rw [hp, ht]; exact hw)
        rw [this, hseq, sat64_add, hp, ht, List.countP_cons]
        simp only [hlt m hm, decide_true, Bool.true_and]
        congr 2
        cases wantsEvent s.params s.tmr n
        · simp
        · simp; omega
    · intro m hm hw
      rcases List.mem_cons.mp hm with rfl | hm
      · rw [hkeep, hown, hw]; rfl
      · rw [h2.removed m hm (by rw [hp, ht]; exact hw), hoth _ (hne m hm)]
    · obtain ⟨htr2, hsr2⟩ := h2.strobes
      have hfr := front_of_active hf.active
      have hb : decide (HeadMoves s t n) = (decide (headKind s = some (timerKind n)) || decide (headKind s1 = some (timerKind n))) := by
        rw [← Bool.decide_or]; exact decide_eq_decide.mpr hown_head
      simp only
      rw [htr2, hsr2, htr, hsr, hfr, hf.phase, hf.runDrv, ← hb, List.filter_cons, hfilter]
      cases decide (HeadMoves s t n)
      · simp
      · refine ⟨by simp, ?_⟩
        cases s.suspendReq <;> cases (l.filter fun m => decide (HeadMoves s1 t m)).isEmpty <;> simp

/-- `Affected(n)` as a list and as R196 words it. -/
theorem mem_affected (b : TimerBank) (n m : Fin 4) : m ∈ affected b n ↔ InAffected b n m := by
  unfold affected InAffected
  simp only [List.mem_filter, List.mem_finRange, true_and, Bool.and_eq_true, decide_eq_true_eq, List.all_eq_true,
    Bool.or_eq_true, Bool.not_eq_true', Bool.and_eq_false_iff, decide_eq_false_iff_not]
  constructor
  · rintro ⟨h1, h2⟩
    refine ⟨h1, fun j h3 h4 => ?_⟩
    rcases h2 j trivial with (h | h) | h
    · exact absurd h3 h
    · exact absurd h4 h
    · exact h
  · rintro ⟨h1, h2⟩
    refine ⟨h1, fun j _ => ?_⟩
    by_cases h3 : n < j
    · by_cases h4 : j ≤ m
      · exact .inr (h2 j h3 h4)
      · exact .inl (.inr h4)
    · exact .inl (.inl h3)

theorem affected_nodup (b : TimerBank) (n : Fin 4) : (affected b n).Nodup := (List.nodup_finRange 4).filter _

theorem affected_sorted (b : TimerBank) (n : Fin 4) : (affected b n).Pairwise (· < ·) :=
  List.Pairwise.filter _ (List.pairwise_lt_finRange 4)

theorem affected_length_le (b : TimerBank) (n : Fin 4) : (affected b n).length ≤ 4 :=
  (List.length_filter_le _ _).trans (by simp)

theorem wantsEvent_iff (p : Params) (b : TimerBank) (m : Fin 4) : wantsEvent p b m = true ↔ ToHaveEvent p b m := by
  simp [wantsEvent, and_assoc]

/-- The affected timers below `x` that are scheduled, counted over the list or over all timers. -/
theorem countP_affected (p : Params) (b : TimerBank) (n : Fin 4) (x : Nat) :
    (affected b n).countP (fun m => decide (m.val < x) && wantsEvent p b m) = scheduledBelow p b n x := by
  unfold scheduledBelow affected
  rw [List.countP_filter]
  refine List.countP_congr fun m _ => ?_
  have h := mem_affected b n m
  unfold affected at h
  simp only [List.mem_filter, List.mem_finRange, true_and] at h
  rw [Bool.and_eq_true, Bool.and_eq_true, decide_eq_true_eq, decide_eq_true_eq, h, wantsEvent_iff, and_assoc,
    and_comm (a := ToHaveEvent p b m)]

/-- Everything `TimerReschedule(Affected(n))` leaves behind, on the entry state with the timers written. -/
theorem timerReschedule_rewritten (n : Fin 4) (b : TimerBank) (s : State) :
    TimersRewritten n b s (timerReschedule (affected b n) { s with result := 0, g := seenTime s, tmr := b }) := by
  have h := timerReschedule_spec (affected b n) { s with result := 0, g := seenTime s, tmr := b } (affected_sorted b n)
  generalize timerReschedule (affected b n) { s with result := 0, g := seenTime s, tmr := b } = t at *
  have hhead : ∀ x, headKind (midway { s with result := 0, g := seenTime s, tmr := b } t x) = headKind (midway s t x) :=
    fun _ => headKind_congr rfl rfl
  have hmid : ∀ m, HeadMoves { s with result := 0, g := seenTime s, tmr := b } t m ↔ HeadMoves s t m := fun m => by
    unfold HeadMoves
    rw [hhead, hhead]
  refine ⟨?_, ?_, ?_, ?_, ?_⟩
  · have e := h.frame
    have hseq := h.seqNext
    have hirq := h.irqPending
    have hcount : (affected b n).countP (wantsEvent s.params b) = scheduledBelow s.params b n 4 := by
      rw [← countP_affected]
      exact List.countP_congr fun m _ => by simp
    simp only [hcount] at hseq
    obtain ⟨e1, e2, e3, e4, e5, e6, e7, e8, e9, e10, e11, e12, e13, e14, e15, e16⟩ := e
    cases t
    simp only at *
    subst_vars
    rfl
  · exact fun k hk => h.others k fun m hm => hk m ((mem_affected b n m).mp hm)
  · intro m hm hw
    rw [h.scheduled m ((mem_affected b n m).mpr hm) ((wantsEvent_iff _ _ _).mpr hw), ← countP_affected]
    rfl
  · intro m hm hw
    refine h.removed m ((mem_affected b n m).mpr hm) ?_
    rw [Bool.eq_false_iff]
    exact fun hw' => hw ((wantsEvent_iff _ _ _).mp hw')
  · refine ⟨_, (affected_nodup b n).filter _, fun m => ?_, h.strobes.1, h.strobes.2⟩
    rw [List.mem_filter, mem_affected, decide_eq_true_eq, hmid]

end Sys2Proof.Machine
end

