-- ==== Sys2Proof/Laws/Chain.lean ====
section
/-! SUPPORT. What a timer's derived values and its fold depend on: its own chain, from its root to itself
(10_state.md R39; 43_timer_cascade.md R193, R194), and how an event that item 8 of 10_state.md R45 places stays placed. -/

namespace Sys2Proof.Machine

/-- Two banks agree on timer `n` and, where it cascades, on the rest of its chain. -/
def ChainAgree (b u : TimerBank) : (n : Nat) → n < 4 → Prop
  | 0, _ => u[0] = b[0]
  | n + 1, h => u[n + 1] = b[n + 1] ∧ (b[n + 1].ctrl.cascade = true → ChainAgree b u n (by omega))

theorem ChainAgree.refl (b : TimerBank) : ∀ n h, ChainAgree b b n h
  | 0, _ => rfl
  | n + 1, _ => ⟨rfl, fun _ => ChainAgree.refl b n _⟩

theorem ChainAgree.self {b u : TimerBank} : ∀ {n h}, ChainAgree b u n h → u[n] = b[n]
  | 0, _, e => e
  | _ + 1, _, e => e.1

theorem ChainAgree.trans {a b u : TimerBank} : ∀ {n h}, ChainAgree a b n h → ChainAgree b u n h → ChainAgree a u n h
  | 0, _, e, f => Eq.trans f e
  | n + 1, _, e, f => ⟨f.1.trans e.1, fun hc => (e.2 hc).trans (f.2 (by rw [e.1]; exact hc))⟩

/-- Agreement on a chain, as R45 and R196 speak of chains. -/
theorem chainAgree_iff (b u : TimerBank) :
    ∀ n h, ChainAgree b u n h ↔ ∀ j : Fin 4, rootFrom b n h ≤ j → j.val ≤ n → u[j] = b[j]
  | 0, h => by
    constructor
    · intro e j _ hj
      obtain rfl : j = 0 := Fin.ext (by simpa using hj)
      exact e
    · intro e
      exact e 0 (Fin.zero_le _) (Nat.zero_le _)
  | n + 1, h => by
    have ih := chainAgree_iff b u n (by omega)
    unfold ChainAgree rootFrom
    constructor
    · rintro ⟨e, er⟩ j hr hj
      by_cases hj' : j.val = n + 1
      · obtain rfl : j = ⟨n + 1, h⟩ := Fin.ext hj'
        exact e
      · split at hr
        · rename_i hc
          exact (ih.mp (er hc)) j hr (by omega)
        · rw [Fin.le_def] at hr
          simp only at hr
          omega
    · intro e
      have hle : ∀ m hm, (rootFrom b m hm).val ≤ m := by
        intro m
        induction m with
        | zero => intro hm; exact Nat.zero_le _
        | succ m ihm =>
          intro hm
          unfold rootFrom
          split
          · exact (ihm (by omega)).trans (Nat.le_succ m)
          · exact le_refl _
      refine ⟨e ⟨n + 1, h⟩ ?_ (le_refl _), fun hc => ih.mpr fun j hr hj => e j ?_ (by omega)⟩
      · split
        · exact Fin.le_def.mpr ((hle n (by omega)).trans (Nat.le_succ n))
        · exact le_refl _
      · rw [if_pos hc]; exact hr

theorem chainAgree_iff_root (b u : TimerBank) (n : Fin 4) :
    ChainAgree b u n.val n.isLt ↔ ∀ j, rootOf b n ≤ j → j ≤ n → u[j] = b[j] :=
  chainAgree_iff b u n.val n.isLt

/-! What depends on the chain only. -/

theorem ChainAgree.counting {b u : TimerBank} :
    ∀ {n h}, ChainAgree b u n h → countingFrom u n h = countingFrom b n h
  | 0, _, e => by
    have e' : u[0] = b[0] := e
    simp only [countingFrom, e']
  | n + 1, _, e => by
    simp only [countingFrom, e.1]
    cases hc : b[n + 1].ctrl.cascade
    · simp
    · rw [(e.2 hc).counting]

theorem ChainAgree.rootFrom {b u : TimerBank} : ∀ {n h}, ChainAgree b u n h → rootFrom u n h = rootFrom b n h
  | 0, _, _ => rfl
  | n + 1, _, e => by
    simp only [Machine.rootFrom, e.1]
    split
    · rename_i hc
      exact (e.2 hc).rootFrom
    · rfl

theorem ChainAgree.overflowFrom (p : Params) {b u : TimerBank} :
    ∀ {n h}, ChainAgree b u n h → ∀ need, overflowFrom p u n h need = overflowFrom p b n h need
  | 0, _, e, need => by
    have e' : u[0] = b[0] := e
    have e'' : u[(0 : Fin 4)] = b[(0 : Fin 4)] := e
    simp only [Machine.overflowFrom, psOf, e', e'']
  | n + 1, h, e, need => by
    have e' : u[(⟨n + 1, h⟩ : Fin 4)] = b[(⟨n + 1, h⟩ : Fin 4)] := e.1
    simp only [Machine.overflowFrom, psOf, e.1, e']
    split
    · rename_i hc
      have es : u[(⟨n, by omega⟩ : Fin 4)] = b[(⟨n, by omega⟩ : Fin 4)] := (e.2 hc).self
      simp only [ticksLeft, cme, es]
      exact (e.2 hc).overflowFrom p _
    · rfl

theorem ChainAgree.nextOverflowTime (p : Params) {b u : TimerBank} {n : Fin 4} (e : ChainAgree b u n.val n.isLt) :
    nextOverflowTime p u n = nextOverflowTime p b n := by
  have es : u[n] = b[n] := e.self
  simp only [Machine.nextOverflowTime, ticksLeft, es]
  rw [e.overflowFrom p]

/-- The condition to have an event depends on the chain only. -/
theorem ChainAgree.toHaveEvent (p : Params) {b u : TimerBank} {n : Fin 4} (e : ChainAgree b u n.val n.isLt) :
    ToHaveEvent p u n ↔ ToHaveEvent p b n := by
  have es : u[n] = b[n] := e.self
  have hc : Machine.counting u n = Machine.counting b n := e.counting
  rw [ToHaveEvent, ToHaveEvent, hc, es, e.nextOverflowTime p]

theorem ChainAgree.foldTicks (p : Params) (t : U64) {b u : TimerBank} :
    ∀ {n h}, ChainAgree b u n h → foldTicks p t u n h = foldTicks p t b n h
  | 0, _, e => by
    have e' : u[0] = b[0] := e
    have e'' : u[(0 : Fin 4)] = b[(0 : Fin 4)] := e
    simp only [Machine.foldTicks, rootTicks, psOf, e', e'']
  | n + 1, h, e => by
    have e' : u[(⟨n + 1, h⟩ : Fin 4)] = b[(⟨n + 1, h⟩ : Fin 4)] := e.1
    simp only [Machine.foldTicks, rootTicks, psOf, e.1, e']
    cases hc : b[n + 1].ctrl.cascade
    · simp
    · simp only [if_true, (e.2 hc).foldTicks p t, (e.2 hc).self]

/-- The fold of a timer depends on its chain only. -/
theorem ChainAgree.syncBank_self (p : Params) (t : U64) {b u : TimerBank} {n : Nat} {h : n < 4} (e : ChainAgree b u n h) :
    (syncBank p t u)[n] = (syncBank p t b)[n] := by
  have es : u[n] = b[n] := e.self
  have es' : u[(⟨n, h⟩ : Fin 4)] = b[(⟨n, h⟩ : Fin 4)] := es
  rw [syncBank_getElem p t u n h, syncBank_getElem p t b n h, e.foldTicks p t, es]
  simp only [foldTref, isRoot, rootTicks, psOf, es']
  rfl

theorem ChainAgree.syncBank (p : Params) (t : U64) {b u : TimerBank} :
    ∀ {n h}, ChainAgree b u n h → ChainAgree (syncBank p t b) (syncBank p t u) n h
  | 0, _, e => ChainAgree.syncBank_self p t (n := 0) e
  | n + 1, h, e =>
    ⟨ChainAgree.syncBank_self p t e, fun hc => by
      rw [syncBank_ctrl p t b (n + 1) h] at hc
      exact (e.2 hc).syncBank p t⟩

/-! The chain alone: everything outside it switched off. -/

/-- `b` with every timer outside timer `n`'s chain as after reset. -/
def chainOnly (b : TimerBank) (n : Fin 4) : TimerBank :=
  Vector.ofFn fun j => if rootOf b n ≤ j ∧ j ≤ n then b[j] else Timer.reset

theorem chainOnly_agree (b : TimerBank) (n : Fin 4) : ChainAgree b (chainOnly b n) n.val n.isLt := by
  rw [chainAgree_iff_root]
  intro j h1 h2
  simp [chainOnly, h1, h2]

theorem ChainAgree.symm {b u : TimerBank} : ∀ {n h}, ChainAgree b u n h → ChainAgree u b n h
  | 0, _, e => Eq.symm e
  | _ + 1, _, e => ⟨e.1.symm, fun hc => (e.2 (by rw [← e.1]; exact hc)).symm⟩

/-- A fold keeps every timer's root. -/
theorem rootOf_syncBank (p : Params) (t : U64) (b : TimerBank) (n : Fin 4) : rootOf (syncBank p t b) n = rootOf b n := by
  have h : ∀ m hm, rootFrom (syncBank p t b) m hm = rootFrom b m hm := by
    intro m
    induction m with
    | zero => intro hm; rfl
    | succ m ih =>
      intro hm
      simp only [rootFrom, syncBank_ctrl]
      split
      · exact ih _
      · rfl
  exact h n.val n.isLt

/-- `FoldedFrom` as agreement on the chain. -/
theorem foldedFrom_iff {p : Params} {g : U64} {b ts : TimerBank} {n : Fin 4} :
    FoldedFrom p g b ts n ↔
      ∃ t, (b[rootOf b n].ctrl.en = true → b[rootOf b n].tref ≤ t) ∧ t ≤ g ∧
        ChainAgree (syncBank p t b) ts n.val n.isLt := by
  unfold FoldedFrom
  refine exists_congr fun t => and_congr Iff.rfl (and_congr Iff.rfl ?_)
  rw [chainAgree_iff_root, rootOf_syncBank]

theorem FoldedFrom.mono {p : Params} {g u : U64} {b ts : TimerBank} {n : Fin 4} (h : FoldedFrom p g b ts n)
    (hgu : g ≤ u) : FoldedFrom p u b ts n :=
  let ⟨t, h1, h2, h3⟩ := h
  ⟨t, h1, BitVec.le_trans h2 hgu, h3⟩

/-- Only the chain itself matters. -/
theorem FoldedFrom.congr {p : Params} {g : U64} {b ts us : TimerBank} {n : Fin 4} (h : FoldedFrom p g b ts n)
    (e : ChainAgree ts us n.val n.isLt) : FoldedFrom p g b us n := by
  obtain ⟨t, h1, h2, h3⟩ := foldedFrom_iff.mp h
  exact foldedFrom_iff.mpr ⟨t, h1, h2, h3.trans e⟩

/-- The root of a chain is a root, and no other timer of the chain is. -/
theorem chain_roots (b : TimerBank) :
    ∀ n h, isRoot b (rootFrom b n h) = true ∧
      ∀ j : Fin 4, rootFrom b n h ≤ j → j.val ≤ n → isRoot b j = true → j = rootFrom b n h
  | 0, _ => ⟨by simp [isRoot, rootFrom], fun j _ hj _ => Fin.ext (by simpa [rootFrom] using hj)⟩
  | n + 1, h => by
    have ih := chain_roots b n (by omega)
    unfold rootFrom
    split
    · rename_i hc
      refine ⟨ih.1, fun j h1 h2 hr => ?_⟩
      by_cases hj : j.val = n + 1
      · obtain rfl : j = ⟨n + 1, h⟩ := Fin.ext hj
        simp [isRoot, hc] at hr
      · exact ih.2 j h1 (by omega) hr
    · rename_i hc
      refine ⟨by simp [isRoot, hc], fun j h1 h2 _ => ?_⟩
      rw [Fin.le_def] at h1
      exact Fin.ext (Nat.le_antisymm h2 h1)

/-- Alone, a chain meets the precondition of R193 where its root does. -/
theorem chainOnly_rootsBehind {t : U64} {b : TimerBank} {n : Fin 4}
    (h : b[rootOf b n].ctrl.en = true → b[rootOf b n].tref ≤ t) : RootsBehind t (chainOnly b n) := by
  intro r hr he
  by_cases hin : rootOf b n ≤ r ∧ r ≤ n
  · have hb : (chainOnly b n)[r] = b[r] := by simp [chainOnly, hin]
    have hroot : isRoot b r = true := by
      have hx : isRoot (chainOnly b n) r = isRoot b r := by simp only [isRoot, hb]
      rw [← hx]; exact hr
    have hrr : r = rootOf b n := (chain_roots b n.val n.isLt).2 r hin.1 hin.2 hroot
    rw [hb] at he ⊢
    rw [hrr] at he ⊢
    exact h he
  · have hb : (chainOnly b n)[r] = Timer.reset := by simp [chainOnly, hin]
    rw [hb] at he
    exact absurd he (by decide)

/-- Timers with no whole tick behind them fold to themselves: an untouched chain is folded from itself. -/
theorem FoldedFrom.refl {p : Params} {g : U64} {b : TimerBank} {n : Fin 4}
    (h : b[rootOf b n].ctrl.en = true → b[rootOf b n].tref ≤ g) : FoldedFrom p g b b n := by
  refine foldedFrom_iff.mpr ?_
  obtain ⟨t, ht, htg, hz⟩ : ∃ t, (b[rootOf b n].ctrl.en = true → b[rootOf b n].tref ≤ t) ∧ t ≤ g ∧
      (b[rootOf b n].ctrl.en = true → t = b[rootOf b n].tref) := by
    cases he : b[rootOf b n].ctrl.en
    · exact ⟨g, by simp, BitVec.le_refl g, by simp⟩
    · exact ⟨b[rootOf b n].tref, fun _ => BitVec.le_refl _, h he, fun _ => rfl⟩
  refine ⟨t, ht, htg, ?_⟩
  have hroot : ∀ j : Fin 4, rootOf b n ≤ j → j ≤ n → isRoot b j = true → b[j].ctrl.en = true → rootTicks p t b j = 0 := by
    intro j h1 h2 hr he
    have hj : j = rootOf b n := (chain_roots b n.val n.isLt).2 j h1 h2 hr
    subst hj
    unfold rootTicks
    rw [hz he, Nat.sub_self, Nat.zero_div]
  have hticks : ∀ m hm, rootOf b n ≤ (⟨m, hm⟩ : Fin 4) → m ≤ n.val → foldTicks p t b m hm = 0 := by
    intro m
    induction m with
    | zero =>
      intro hm h1 h2
      unfold foldTicks
      split
      · rename_i he
        exact hroot 0 h1 (Fin.zero_le _) (by simp [isRoot]) he
      · rfl
    | succ m ih =>
      intro hm h1 h2
      unfold foldTicks
      split
      · rename_i he
        split
        · rename_i hc
          rw [ih (by omega) ?_ (by omega), Timer.overflows_zero]
          rw [Fin.le_def] at h1 ⊢
          rcases Nat.lt_or_ge (rootOf b n).val (m + 1) with hlt | hge
          · simp only; omega
          · have : rootOf b n = ⟨m + 1, hm⟩ := Fin.ext (Nat.le_antisymm h1 hge)
            have hr := (chain_roots b n.val n.isLt).1
            change isRoot b (rootOf b n) = true at hr
            rw [this] at hr
            simp [isRoot, hc] at hr
        · rename_i hc
          exact hroot ⟨m + 1, hm⟩ h1 (Fin.le_def.mpr h2) (by simp [isRoot, hc]) he
      · rfl
  rw [chainAgree_iff_root, rootOf_syncBank]
  intro j h1 h2
  have htref : foldTref p t b j = b[j].tref := by
    unfold foldTref
    split
    · rename_i hre
      rw [Bool.and_eq_true] at hre
      rw [hroot j h1 h2 hre.1 hre.2, Nat.zero_mul, Nat.add_zero, sat64_toNat_self]
    · rfl
  rw [syncBank_get, hticks j.val j.isLt h1 (Fin.le_def.mp h2), Timer.ticked_zero, htref]

/-- A further fold of the whole bank is a later fold of the chain, given that folds add up (R209, its first claim). -/
theorem FoldedFrom.fold {p : Params} {g u : U64} {b ts : TimerBank} {n : Fin 4}
    (hinv : ∀ (t : U64) (us : TimerBank), RootsBehind t us → t ≤ u → syncBank p u (syncBank p t us) = syncBank p u us)
    (h : FoldedFrom p g b ts n) (hgu : g ≤ u) : FoldedFrom p u b (syncBank p u ts) n := by
  obtain ⟨t, h1, h2, h3⟩ := foldedFrom_iff.mp h
  have htu := BitVec.le_trans h2 hgu
  refine foldedFrom_iff.mpr ⟨u, fun he => BitVec.le_trans (h1 he) htu, BitVec.le_refl u, ?_⟩
  have a1 := chainOnly_agree b n
  have a2 := (a1.syncBank p t).syncBank p u
  rw [hinv t _ (chainOnly_rootsBehind h1) htu] at a2
  have a3 := a1.syncBank p u
  exact (a3.trans (a2.symm)).trans (h3.syncBank p u)

/-- Item 8 read of the timers as they stand is one way to have it. -/
theorem TimerEventAsWorded.asSet {s : State} (hr : RootsBehind s.g s.tmr) (h : TimerEventAsWorded s) :
    TimerEventAsSet s := fun n =>
  ⟨s.tmr, FoldedFrom.refl fun he => hr _ (chain_roots s.tmr n.val n.isLt).1 he, h.1 n, h.2 n⟩

/-- A step that leaves timer `n`'s slot alone, and its chain as it was or only folded, keeps item 8 of timer `n` with the
same timers `b`. -/
theorem TimerEventAsSet.kept {s t : State} (h : TimerEventAsSet s)
    (hinv : ∀ (u : U64) (us : TimerBank), RootsBehind u us → u ≤ t.g →
      syncBank s.params t.g (syncBank s.params u us) = syncBank s.params t.g us)
    (hp : t.params = s.params) (hg : s.g ≤ t.g) (n : Fin 4) (hs : t.slot (timerKind n) = s.slot (timerKind n))
    (hb : ChainAgree s.tmr t.tmr n.val n.isLt ∨ ChainAgree (syncBank s.params t.g s.tmr) t.tmr n.val n.isLt) :
    ∃ b, FoldedFrom t.params t.g b t.tmr n ∧
      ((t.slot (timerKind n)).v = true ↔
        counting b n = true ∧ b[n].ctrl.irqen = true ∧ nextOverflowTime t.params b n < max64) ∧
      ((t.slot (timerKind n)).v = true → (t.slot (timerKind n)).t = nextOverflowTime t.params b n) := by
  obtain ⟨b, h1, h2⟩ := h n
  refine ⟨b, ?_, by rw [hs, hp]; exact h2⟩
  rw [hp]
  rcases hb with hb | hb
  · exact (h1.mono hg).congr hb
  · exact (h1.fold hinv hg).congr hb

end Sys2Proof.Machine
end

