-- ==== Sys2Proof/Laws/Commands.lean ====
section
/-! SUPPORT. The forms in which a command answers, over the plain records of Safety.lean: admitted, barred, faulting
(30_encoding.md R87, R88; 60_exceptions.md R270). -/

namespace Sys2Proof.Machine

theorem Live.ne_dispatch {s : State} (h : Live s) : s.phase ≠ .dispatch := by
  rcases h with h | h | h <;> rw [h] <;> decide

/-- A row of the admission table with A in the three live phases. -/
theorem admitted_live {i : Instr} {s : State} (h : Live s) (h1 : admitted i.opcode .idle = true)
    (h2 : admitted i.opcode .running = true) (h3 : admitted i.opcode .callback = true) :
    admitted i.opcode s.phase = true := by
  rcases h with h | h | h <;> rw [h] <;> assumption

/-- A row of the admission table with A in all four phases. -/
theorem admitted_any {i : Instr} {s : State} (h : s.phase ≠ .dispatch) (h1 : admitted i.opcode .idle = true)
    (h2 : admitted i.opcode .running = true) (h3 : admitted i.opcode .callback = true)
    (h4 : admitted i.opcode .halted = true) : admitted i.opcode s.phase = true := by
  cases hp : s.phase <;> first | assumption | exact absurd hp h

/-- A fault that does not halt, on a state whose `RESULT` is 0 already. -/
theorem raiseFault_faulted {c : FaultCode} (hc : c ≠ .emptyQueue) (cw : U16) {s : State} (hr : s.result = 0) :
    raiseFault c cw s = faulted (1#16 <<< c.bit) cw s := by
  rw [raiseFault_eq hc]
  simp only [faulted, withFaultBit, ← hr]

/-- An admitted command runs its rule on the entry state. -/
theorem command_entry {i : Instr} {s : State} (body : State → Answer) (hd : s.phase ≠ .dispatch)
    (ha : admitted i.opcode s.phase = true) : command i body s = body (atEntry s) := by
  rw [command_admitted body hd ha]
  rfl

/-- A barred command faults `BAD_PHASE` and does nothing else. -/
theorem command_bad_phase {i : Instr} {s : State} (body : State → Answer) (hd : s.phase ≠ .dispatch)
    (ha : admitted i.opcode s.phase = false) : command i body s = .next (faulted 0x0002 i.word s) := by
  rw [command_barred body hd ha, raiseFault_faulted (by decide) _ rfl]
  rfl

theorem plainCommand_entry {i : Instr} {s : State} (body : State → State) (hd : s.phase ≠ .dispatch)
    (ha : admitted i.opcode s.phase = true) : plainCommand i body s = .next (body (atEntry s)) :=
  command_entry _ hd ha

theorem plainCommand_bad_phase {i : Instr} {s : State} (body : State → State) (hd : s.phase ≠ .dispatch)
    (ha : admitted i.opcode s.phase = false) : plainCommand i body s = .next (faulted 0x0002 i.word s) :=
  command_bad_phase _ hd ha

/-- Codes 5 to 7 name no driver. -/
theorem driverOf_eq_none {d : Fin 8} (h : 5 ≤ d.val) : driverOf d = none := by revert d; decide

/-- The head of the entry state is the head of the state. -/
theorem headKind_atEntry (s : State) : headKind (atEntry s) = headKind s := headKind_congr rfl rfl

/-- `Insert(k, t)` as a plain record (40_event_queue.md R101). -/
theorem insert_withStrobe (k : Fin 16) (t : U64) (s : State) :
    insert k t s =
      withStrobe (decide (headKind { s with evt := s.evt.set k { v := true, t := t, s := s.seqNext } } = some k)) (front s)
        { s with evt := s.evt.set k { v := true, t := t, s := s.seqNext }, seqNext := sat64 (s.seqNext.toNat + 1) } := by
  have h : headKind (enqueue k t s) = headKind { s with evt := s.evt.set k { v := true, t := t, s := s.seqNext } } :=
    headKind_congr rfl rfl
  rw [insert_eq, h]
  simp only [withStrobe, Bool.and_assoc]

end Sys2Proof.Machine
end

