-- ==== Sys2Proof/Laws/PerInstr.lean ====
section
/-! SUPPORT. Statements made per instruction. EncodedFields: the fields of an instruction's command word read back as its
row's opcode and its selector, with the reserved bits 0 (30_encoding.md R80, R82). -/

namespace Sys2Proof

/-- The fields of the word with a given opcode and selector (30_encoding.md R80). -/
theorem commandWord_fields (o : Opcode) (sel : Fin 16) :
    opField (commandWord o sel) = o.code ∧ selField (commandWord o sel) = sel ∧
      bitField 7 5 (commandWord o sel) = 0 ∧ bitField 15 12 (commandWord o sel) = 0 := by
  cases o <;> (revert sel; decide)

end Sys2Proof

namespace Sys2Proof.Laws.EncodedFields

/-- The word of `i` carries its row's opcode in `CW[4:0]`, its selector in `CW[11:8]`, and 0 in the reserved bits. -/
def Statement (i : Instr) : Prop :=
  opField i.word = i.opcode.code ∧ selField i.word = i.selector ∧ bitField 7 5 i.word = 0 ∧ bitField 15 12 i.word = 0

theorem schedule (k : Fin 16) (delay : U64) : Statement (.schedule k delay) := commandWord_fields _ _
theorem cancel (k : Fin 16) : Statement (.cancel k) := commandWord_fields _ _
theorem reschedule (k : Fin 16) (delay : U64) : Statement (.reschedule k delay) := commandWord_fields _ _
theorem now : Statement .now := commandWord_fields _ _
theorem engage (d : Fin 8) : Statement (.engage d) := commandWord_fields _ _
theorem disengage (d : Fin 8) : Statement (.disengage d) := commandWord_fields _ _
theorem charge (d : Fin 8) (n : U64) : Statement (.charge d n) := commandWord_fields _ _
theorem runEnd (c : U64) : Statement (.runEnd c) := commandWord_fields _ _
theorem callbackDone : Statement .callbackDone := commandWord_fields _ _
theorem tmrWrReload (n : Fin 4) (v : U16) : Statement (.tmrWrReload n v) := commandWord_fields _ _
theorem tmrWrControl (n : Fin 4) (w : U16) : Statement (.tmrWrControl n w) := commandWord_fields _ _
theorem tmrRdCounter (n : Fin 4) : Statement (.tmrRdCounter n) := commandWord_fields _ _
theorem tmrRdControl (n : Fin 4) : Statement (.tmrRdControl n) := commandWord_fields _ _
theorem tmrRdReload (n : Fin 4) : Statement (.tmrRdReload n) := commandWord_fields _ _
theorem tmrRdNextOvf (n : Fin 4) : Statement (.tmrRdNextOvf n) := commandWord_fields _ _
theorem raiseIrq (m : U16) : Statement (.raiseIrq m) := commandWord_fields _ _
theorem rdStatus (sel : Fin 16) : Statement (.rdStatus sel) := commandWord_fields _ _
theorem rdLedger (d : Fin 8) : Statement (.rdLedger d) := commandWord_fields _ _
theorem rdEventTime (k : Fin 16) : Statement (.rdEventTime k) := commandWord_fields _ _
theorem rdEventSeq (k : Fin 16) : Statement (.rdEventSeq k) := commandWord_fields _ _
theorem clrFault : Statement .clrFault := commandWord_fields _ _
theorem start : Statement .start := commandWord_fields _ _

end Sys2Proof.Laws.EncodedFields
end

