-- ==== Sys2Proof/Machine/Assembler.lean ====
section
/-! DEFINITION. The textual command syntax for test programs and the pseudo-instructions (30_encoding.md R89, R90). No
step uses it: it says which command a line of a program stands for. -/

namespace Sys2Proof.Machine

/-! Pseudo-instructions (30_encoding.md R90). -/

/-- `CONSUME d, n`. -/
def asmConsume (d : Fin 8) (n : U64) : List Instr := [.charge d n, .runEnd n]

/-- `TMR_START t, r, c`. -/
def asmTmrStart (n : Fin 4) (r c : U16) : List Instr := [.tmrWrReload n r, .tmrWrControl n (c ||| 0x0080)]

/-- `TMR_STOP t, c`. -/
def asmTmrStop (n : Fin 4) (c : U16) : List Instr := [.tmrWrControl n (c &&& ~~~0x0080)]

/-- `EXPIRE k`. -/
def asmExpire (k : Fin 16) : List Instr := [.reschedule k 0]

/-! Lines of text (30_encoding.md R89). -/

/-- Every row of the opcode map. -/
def allOpcodes : List Opcode :=
  [.schedule, .cancel, .reschedule, .now, .engage, .disengage, .charge, .runEnd, .callbackDone, .tmrWrReload,
    .tmrWrControl, .tmrRdCounter, .tmrRdControl, .tmrRdReload, .tmrRdNextOvf, .raiseIrq, .rdStatus, .rdLedger,
    .rdEventTime, .rdEventSeq, .clrFault, .start]

/-- The spellings of a selector in each format, with the aliases (30_encoding.md R89, 10_state.md R43). -/
def selectorSpellings : Format → List (String × Fin 16)
  | .c0 => []
  | .ck =>
    [("k0", 0), ("k1", 1), ("k2", 2), ("k3", 3), ("k4", 4), ("k5", 5), ("k6", 6), ("k7", 7), ("k8", 8), ("k9", 9),
      ("k10", 10), ("k11", 11), ("k12", 12), ("k13", 13), ("k14", 14), ("k15", 15), ("TIMER0_OVF", 0), ("TIMER1_OVF", 1),
      ("TIMER2_OVF", 2), ("TIMER3_OVF", 3), ("IRQ_DELIVER", 4)]
  | .cd =>
    [("Cpu", 0), ("Dma0", 1), ("Dma1", 2), ("Dma2", 3), ("Dma3", 4), ("d5", 5), ("d6", 6), ("d7", 7)]
  | .ct => [("t0", 0), ("t1", 1), ("t2", 2), ("t3", 3)]
  | .cs =>
    [("s0", 0), ("s1", 1), ("s2", 2), ("s3", 3), ("s4", 4), ("s5", 5), ("s6", 6), ("s7", 7), ("s8", 8), ("s9", 9),
      ("s10", 10), ("s11", 11), ("FAULT_STATUS", 0), ("FAULT_CMD", 1), ("PHASEWORD", 2), ("ACTIVE", 3), ("FRONT", 4),
      ("EVENT_VALID", 5), ("HEAD", 6), ("IRQ_PENDING", 7), ("RUN_BASE", 8), ("RUN_ELAPSED", 9), ("RUN_BUDGET", 10),
      ("SEQ_NEXT", 11)]

/-- A decimal or hexadecimal digit. -/
def digitValue (c : Char) : Option Nat :=
  if '0' ≤ c ∧ c ≤ '9' then some (c.toNat - '0'.toNat)
  else if 'a' ≤ c ∧ c ≤ 'f' then some (c.toNat - 'a'.toNat + 10)
  else if 'A' ≤ c ∧ c ≤ 'F' then some (c.toNat - 'A'.toNat + 10)
  else none

/-- Digits in a base, most significant first. -/
def digitsIn (base : Nat) : List Char → Nat → Option Nat
  | [], n => some n
  | c :: l, n =>
    match digitValue c with
    | some d => if d < base then digitsIn base l (n * base + d) else none
    | none => none

/-- `data`: a decimal or `0x` hexadecimal natural below `2^64` (30_encoding.md R89). -/
def dataOfText (l : List Char) : Option U64 :=
  let n := match l with
    | '0' :: 'x' :: c :: r => digitsIn 16 (c :: r) 0
    | c :: r => digitsIn 10 (c :: r) 0
    | [] => none
  match n with
  | some n => if n < 2 ^ 64 then some (BitVec.ofNat 64 n) else none
  | none => none

/-- The words of a line: blanks and commas separate, a semicolon starts a comment. -/
def lineWords : List Char → List Char → List (List Char)
  | [], acc => if acc.isEmpty then [] else [acc.reverse]
  | c :: l, acc =>
    if c = ';' then (if acc.isEmpty then [] else [acc.reverse])
    else if c = ' ' ∨ c = ',' ∨ c = '\t' then (if acc.isEmpty then lineWords l [] else acc.reverse :: lineWords l [])
    else lineWords l (c :: acc)

/-- The command of the opcode, the selector and an optional data word; omitted data is 0 (30_encoding.md R89). -/
def lineCommand (o : Opcode) (sel : Fin 16) : List (List Char) → Option Command
  | [] => some { cw := commandWord o sel, data := 0 }
  | [d] => (dataOfText d).map fun n => { cw := commandWord o sel, data := n }
  | _ => none

/-- The command a line of text stands for (30_encoding.md R89). -/
def assembleLine (line : List Char) : Option Command :=
  match lineWords line [] with
  | [] => none
  | m :: args =>
    match allOpcodes.find? fun o => o.mnemonic.toList == m with
    | none => none
    | some o =>
      if o.format = .c0 then lineCommand o 0 args
      else
        match args with
        | [] => none
        | a :: rest =>
          match (selectorSpellings o.format).find? fun x => x.1.toList == a with
          | none => none
          | some x => lineCommand o x.2 rest

end Sys2Proof.Machine
end

