-- ==== Sys2Proof/Tests/Slice0.lean ====
section
/-! SUPPORT. Tests with values worked out in spec/ (its encodings, its examples, 95_test_vectors.md), and for each
statement with hypotheses a state and operands that meet them. -/

namespace Sys2Proof.Tests

open Sys2Proof Sys2Proof.Machine

/-! Helpers. -/

/-- The parameters of 95_test_vectors.md, with `IRQ_DELAY` 2. -/
def testParams : Params :=
  { prescale := Config.defaultPrescale, irqDelay := 2, timerSrcBit := Config.defaultSrcBit }

/-- The start state of 95_test_vectors.md: reset, in `IDLE`. -/
def idle : State := { State.reset with params := testParams }

/-- `s` with `EVT[k]` pending. -/
def withEvent (k : Fin 16) (t n : U64) (s : State) : State := s.setSlot k { v := true, t := t, s := n }

/-- `Cpu` running from 0, charged 3, head `k5` at 5 (the state of the example of 40_event_queue.md R106). -/
def running : State :=
  withEvent 5 5 0 { idle with phase := .running, runElapsed := 3, runBudget := 5, seqNext := 1,
                              ledger := idle.ledger.set 0 3 }

/-- The callback of `k6` at 5, with `k5` at 10. -/
def inCallback : State :=
  withEvent 5 10 0 { idle with phase := .callback, cbKind := 6, g := 5, seqNext := 2, ledger := idle.ledger.set 0 5 }

/-- A block that has halted at 9. -/
def halted : State :=
  { idle with phase := .halted, g := 9, faultStatus := 0x80, faultCmd := 0x0009, trace := [.faulted, .halt],
              ledger := idle.ledger.set 0 9 }

/-- A state inside `Dispatch`. -/
def dispatching : State := { idle with phase := .dispatch }

/-- A timer of the tests. -/
def timerOf (reload value : U16) (word : U16) (tref : U64) : Timer :=
  { reload := reload, ctrl := ctrlOfWord word, value := value, tref := tref }

/-- Timer0 of the example of 43_timer_cascade.md R200: reload `0xFFF0`, one cycle a tick, enabled at 0. -/
def timer0On : State := idle.setTimer 0 (timerOf 0xFFF0 0xFFF0 0x0080 0)

/-- The cascade of vector L1-5: Timer0 overflows every tick, Timer1 every second overflow of Timer0. -/
def cascade : State :=
  { (idle.setTimer 0 (timerOf 0xFFFF 0xFFFF 0x0080 0)).setTimer 1 (timerOf 0xFFFE 0xFFFE 0x0084 0) with
    phase := .callback, cbKind := 5, g := 3 }

/-- Timer0 due at 16 as the head, its interrupt enabled, under a run charged past it. -/
def overdue : State :=
  withEvent 0 16 0
    { idle.setTimer 0 (timerOf 0xFFF0 0xFFF0 0x00C0 0) with
      phase := .running, runElapsed := 20, runBudget := 16, seqNext := 1, ledger := idle.ledger.set 0 20 }

/-- A full chain of four timers with reload 0, prescaler select 3, one tick before they all overflow together at 1024, where
Timer3's event is due: its period is `2^74` cycles (43_timer_cascade.md R211). -/
def horizon : State :=
  withEvent 3 1024 0
    { (((idle.setTimer 0 (timerOf 0 0xFFFF 0x0083 0)).setTimer 1 (timerOf 0 0xFFFF 0x0084 0)).setTimer 2
        (timerOf 0 0xFFFF 0x0084 0)).setTimer 3 (timerOf 0 0xFFFF 0x00C4 0) with
      phase := .running, runElapsed := 2000, runBudget := 1024, seqNext := 1, ledger := idle.ledger.set 0 2000 }

/-- Timer1's overflow at 32, just popped, in vector T-10 of 95_test_vectors.md. -/
def vectorT10 : State :=
  withEvent 5 1000 2 (withEvent 2 64 1
    { ((idle.setTimer 0 (timerOf 0xFFF0 0xFFF0 0x0080 0)).setTimer 1 (timerOf 0xFFFE 0xFFFE 0x00C4 0)).setTimer 2
        (timerOf 0xFFFE 0xFFFE 0x00C4 0) with phase := .dispatch, g := 32, seqNext := 3 })

/-- An interrupt delivery due at 5, in a callback, before `k5` at 10. -/
def deliveryDue : State := withEvent 4 5 1 { inCallback with irqPending := 0x0009 }

/-- A next state, if there is one. -/
def nextOf : Answer → Option State
  | .next t => some t
  | .fault _ => none
  | .refused _ => none

/-- The state after an answer, `s` where there is none. -/
def after (a : Answer) (s : State) : State := (nextOf a).getD s

/-- The state after an instruction. -/
def ran (i : Instr) (s : State) : State := after (exec i s) s

theorem answers {a : Answer} {s : State} (h : (nextOf a).isSome = true) : a = .next (after a s) := by
  cases a <;> first | rfl | exact absurd h (by simp [nextOf])

theorem exec_ran {i : Instr} {s : State} (h : (nextOf (exec i s)).isSome = true) : exec i s = .next (ran i s) := answers h

/-- What the decoder reads. -/
def reads (cw : U16) (data : U64) : Option Instr := (decode { cw := cw, data := data }).toOption

/-- Why the decoder rejects. -/
def rejects (cw : U16) : Option DecodeError :=
  match decode { cw := cw, data := 0 } with
  | .ok _ => none
  | .error e => some e

/-! WellFormed (30_encoding.md R81, R86). -/

theorem test_wf_status_12_refused : (Instr.rdStatus 12).wf = false := by decide
theorem test_wf_status_15_refused : (Instr.rdStatus 15).wf = false := by decide
theorem test_wf_status_11_accepted : (Instr.rdStatus 11).wf = true := by decide

/-! Decoding: words written bit by bit from the patterns of 30_encoding.md R83 (`0000`, `SEL`, `000`, `OP`). -/

theorem test_decode_schedule : reads 0b0000_0101_000_00001 10 = some (.schedule 5 10) := by decide
theorem test_decode_cancel : reads 0b0000_1111_000_00010 7 = some (.cancel 15) := by decide
theorem test_decode_reschedule : reads 0b0000_1000_000_00011 0x8000000000000001
    = some (.reschedule 8 0x8000000000000001) := by decide
theorem test_decode_now : reads 0b0000_0000_000_00100 0 = some .now := by decide
theorem test_decode_engage : reads 0b0000_0100_000_00101 0 = some (.engage 4) := by decide
theorem test_decode_disengage : reads 0b0000_0111_000_00110 0 = some (.disengage 7) := by decide
theorem test_decode_charge : reads 0b0000_0010_000_00111 5 = some (.charge 2 5) := by decide
theorem test_decode_runEnd : reads 0b0000_0000_000_01000 0xFFFFFFFFFFFFFFFF
    = some (.runEnd 0xFFFFFFFFFFFFFFFF) := by decide
theorem test_decode_callbackDone : reads 0b0000_0000_000_01001 0 = some .callbackDone := by decide
theorem test_decode_tmrWrReload : reads 0b0000_0010_000_01010 0x11234 = some (.tmrWrReload 2 0x1234) := by decide
theorem test_decode_tmrWrControl : reads 0b0000_0001_000_01011 0x00C4 = some (.tmrWrControl 1 0x00C4) := by decide
theorem test_decode_tmrRdCounter : reads 0b0000_0011_000_01100 0 = some (.tmrRdCounter 3) := by decide
theorem test_decode_tmrRdControl : reads 0b0000_0001_000_01101 0 = some (.tmrRdControl 1) := by decide
theorem test_decode_tmrRdReload : reads 0b0000_0010_000_01110 0 = some (.tmrRdReload 2) := by decide
theorem test_decode_tmrRdNextOvf : reads 0b0000_0011_000_01111 0 = some (.tmrRdNextOvf 3) := by decide
theorem test_decode_raiseIrq : reads 0b0000_0000_000_10000 0x18001 = some (.raiseIrq 0x8001) := by decide
theorem test_decode_rdStatus : reads 0b0000_1011_000_10001 0 = some (.rdStatus 11) := by decide
theorem test_decode_rdLedger : reads 0b0000_0100_000_10010 0 = some (.rdLedger 4) := by decide
theorem test_decode_rdEventTime : reads 0b0000_0001_000_10011 0 = some (.rdEventTime 1) := by decide
theorem test_decode_rdEventSeq : reads 0b0000_1001_000_10100 0 = some (.rdEventSeq 9) := by decide
theorem test_decode_clrFault : reads 0b0000_0000_000_10101 0 = some .clrFault := by decide
theorem test_decode_start : reads 0b0000_0000_000_10110 0 = some .start := by decide

/-! Rejection by name (30_encoding.md R85), one word for each reason at the edge of the legal ones. -/

theorem test_reject_low_reserved : rejects 0b0000_0000_001_00100 = some .reservedBits := by decide
theorem test_reject_high_reserved : rejects 0b0001_0101_000_00001 = some .reservedBits := by decide
theorem test_reject_opcode_00 : rejects 0b0000_0000_000_00000 = some .unassignedOpcode := by decide
theorem test_reject_opcode_17 : rejects 0b0000_0000_000_10111 = some .unassignedOpcode := by decide
theorem test_reject_selector : rejects 0b0000_0001_000_10101 = some .selectorNotZero := by decide
theorem test_reject_driver : rejects 0b0000_1000_000_00101 = some .driverSelectorHigh := by decide
theorem test_reject_timer : rejects 0b0000_0100_000_01010 = some .timerSelectorHigh := by decide
theorem test_reject_status : rejects 0b0000_1100_000_10001 = some .statusSelectorHigh := by decide

/-- The numbering of the table: 16 bits of command word, then `DATA`. -/
theorem test_table_word :
    decodeTableWord 16 0x0501 = some (.schedule 5 0) ∧ decodeTableWord 80 (10 * 2 ^ 16 + 0x0501) = some (.schedule 5 10) ∧
    decodeTableWord 16 0x0017 = none := by decide

/-- The very next step runs the word placed by `withFetchWord`, from reset. -/
theorem test_fetch_word :
    ((nextOf (step (State.reset.withFetchWord 16 0x0501))).map fun t => t.slot 5)
      = some { v := true, t := 0, s := 0 } := by decide

/-- The command syntax of 30_encoding.md R89. -/
theorem test_assemble_line :
    assembleLine "SCHEDULE k5, 10 ; tick".toList = some { cw := 0x0501, data := 10 } ∧
    assembleLine "CHARGE Cpu, 0x1f".toList = some { cw := 0x0007, data := 31 } ∧
    assembleLine "RD_STATUS HEAD".toList = some { cw := 0x0611, data := 0 } ∧
    assembleLine "ENGAGE k5".toList = none := by decide

/-! One step of each instruction, from the examples of the spec. -/

/-- 40_event_queue.md R103. -/
theorem test_schedule :
    ((nextOf (exec (.schedule 5 10) idle)).map fun t => (t.slot 5, t.seqNext, t.trace))
      = some ({ v := true, t := 10, s := 0 }, 1, [.suspend .cpu]) := by decide

/-- 40_event_queue.md R103, corner case: the fire time saturates. -/
theorem test_schedule_saturates :
    ((nextOf (exec (.schedule 5 0xFFFFFFFFFFFFFFFF) inCallback)).map fun t => (t.slot 5).t)
      = some 0xFFFFFFFFFFFFFFFF := by decide

/-- 40_event_queue.md R104: the head goes, and the front driver is strobed. -/
theorem test_cancel_head :
    ((nextOf (exec (.cancel 6) (withEvent 6 5 1 (withEvent 5 10 0 idle)))).map fun t => ((t.slot 6).v, (t.slot 5).v, t.trace))
      = some (false, true, [.suspend .cpu]) := by decide

/-- 40_event_queue.md R105. -/
theorem test_reschedule :
    ((nextOf (exec (.reschedule 5 0) (withEvent 5 10 0 { idle with seqNext := 4 }))).map fun t => t.slot 5)
      = some { v := true, t := 0, s := 4 } := by decide

/-- 40_event_queue.md R105: an absent kind stays absent. -/
theorem test_reschedule_absent :
    ((nextOf (exec (.reschedule 7 3) idle)).map fun t => ((t.slot 7).v, t.seqNext, t.trace)) = some (false, 0, []) := by
  decide

/-- 40_event_queue.md R106. -/
theorem test_now : ((nextOf (exec .now running)).map fun t => (t.result, t.g)) = some (3, 3) := by decide

/-- 40_event_queue.md R106: past the head the flush stops at it. -/
theorem test_now_clamped :
    ((nextOf (exec .now { running with runElapsed := 8 })).map fun t => (t.result, t.g)) = some (5, 5) := by decide

/-- 40_event_queue.md R107. -/
theorem test_rdEventTime : ((nextOf (exec (.rdEventTime 5) (withEvent 5 10 0 idle))).map fun t => t.result) = some 10 := by
  decide

/-- 40_event_queue.md R107, R108: an absent kind answers `MAX64`. -/
theorem test_rdEvent_absent :
    ((nextOf (exec (.rdEventTime 3) idle)).map fun t => t.result) = some 0xFFFFFFFFFFFFFFFF ∧
    ((nextOf (exec (.rdEventSeq 3) idle)).map fun t => t.result) = some 0xFFFFFFFFFFFFFFFF := by decide

/-- 40_event_queue.md R108. -/
theorem test_rdEventSeq :
    ((nextOf (exec (.rdEventSeq 5) (ran (.schedule 5 10) idle))).map fun t => t.result) = some 0 := by decide

/-- 41_run_loop.md R146. -/
theorem test_start :
    ((nextOf (exec .start (withEvent 6 5 1 idle))).map fun t => (t.phase, t.runBudget, t.trace))
      = some (.running, 5, [.runGrant .cpu 5]) := by decide

/-- 41_run_loop.md R149: an empty queue halts. -/
theorem test_start_empty :
    ((nextOf (exec .start idle)).map fun t => (t.phase, t.faultStatus, t.faultCmd, t.trace))
      = some (.halted, 0x0080, 0x0016, [.faulted, .halt]) := by decide

/-- 41_run_loop.md R147. -/
theorem test_runEnd :
    ((nextOf (exec (.runEnd 5) { running with runElapsed := 5 })).map fun t => (t.g, (t.slot 5).v, t.phase, t.trace))
      = some (5, false, .callback, [.fire 5]) := by decide

/-- 41_run_loop.md R147: an under-report is recorded, and the charged count stands. -/
theorem test_runEnd_underreport :
    ((nextOf (exec (.runEnd 1) running)).map fun t => (t.faultStatus, t.g, t.ledgerOf .cpu, t.trace))
      = some (0x0040, 3, 3, [.faulted, .runGrant .cpu 2]) := by decide

/-- 41_run_loop.md R148. -/
theorem test_callbackDone :
    ((nextOf (exec .callbackDone inCallback)).map fun t => (t.phase, t.runBase, t.trace))
      = some (.running, 5, [.runGrant .cpu 5]) := by decide

/-- 60_exceptions.md R278: the due delivery asserts the pending sources, then the loop goes on. -/
theorem test_callbackDone_delivers :
    ((nextOf (exec .callbackDone deliveryDue)).map fun t => (t.irqPending, t.trace))
      = some (0, [.irqAssert 0x0009, .runGrant .cpu 5]) := by decide

/-- 42_driver_arbitration.md R171. -/
theorem test_engage :
    ((nextOf (exec (.engage 4) running)).map fun t => (t.active, t.trace, t.suspendReq))
      = some (0b10001, [.suspend .cpu], true) := by decide

/-- 42_driver_arbitration.md R172. -/
theorem test_disengage :
    ((nextOf (exec (.disengage 3) { idle with active := 0b01101 })).map fun t => (t.active, t.trace))
      = some (0b00101, [.suspend .dma2]) := by decide

/-- 42_driver_arbitration.md R172: `Cpu` cannot leave. -/
theorem test_disengage_cpu :
    ((nextOf (exec (.disengage 0) idle)).map fun t => (t.active, t.faultStatus, t.faultCmd))
      = some (0b00001, 0x0010, 0x0006) := by decide

/-- 44_bus_accounting.md R240. -/
theorem test_charge :
    ((nextOf (exec (.charge 0 4) { running with runElapsed := 0, ledger := idle.ledger })).map fun t =>
      (t.ledgerOf .cpu, t.runElapsed)) = some (4, 4) := by decide

/-- 44_bus_accounting.md R240: only the running driver may be charged. -/
theorem test_charge_other :
    ((nextOf (exec (.charge 1 4) running)).map fun t => (t.ledgerOf .dma0, t.faultStatus)) = some (0, 0x0020) := by decide

/-- 44_bus_accounting.md R241. -/
theorem test_rdLedger :
    ((nextOf (exec (.rdLedger 1) idle)).map fun t => t.result) = some 0 ∧
    ((nextOf (exec (.rdLedger 0) inCallback)).map fun t => t.result) = some 5 := by decide

/-- 43_timer_cascade.md R200: at 5, a new reload leaves the counter at `0xFFF5`. -/
theorem test_tmrWrReload :
    ((nextOf (exec (.tmrWrReload 0 0xFFFC) { timer0On with phase := .callback, g := 5 })).map fun t =>
      ((t.timer 0).value, (t.timer 0).reload)) = some (0xFFF5, 0xFFFC) := by decide

/-- 95_test_vectors.md L1-6, step 8: Timer0's reload moves the events of Timer1 and Timer2. -/
theorem test_tmrWrReload_propagates :
    ((nextOf (exec (.tmrWrReload 0 0xFFF8)
      (withEvent 2 64 1 (withEvent 1 32 0
        { ((idle.setTimer 0 (timerOf 0xFFF0 0xFFF0 0x0080 0)).setTimer 1 (timerOf 0xFFFE 0xFFFE 0x00C4 0)).setTimer 2
            (timerOf 0xFFFE 0xFFFE 0x00C4 0) with phase := .callback, cbKind := 5, g := 10, seqNext := 3 })))).map
      fun t => ((t.timer 0).value, t.slot 1, t.slot 2, t.trace))
      = some (0xFFFA, { v := true, t := 24, s := 3 }, { v := true, t := 40, s := 4 }, [.suspend .cpu]) := by decide

/-- 43_timer_cascade.md R201. -/
theorem test_tmrWrControl :
    ((nextOf (exec (.tmrWrControl 0 0x00C0) (idle.setTimer 0 (timerOf 0xFFF0 0 0 0)))).map fun t =>
      ((t.timer 0).value, (t.timer 0).tref, t.slot 0))
      = some (0xFFF0, 0, { v := true, t := 16, s := 0 }) := by decide

/-- 43_timer_cascade.md R202. -/
theorem test_tmrRdCounter :
    ((nextOf (exec (.tmrRdCounter 0)
      { idle.setTimer 0 (timerOf 0xFF00 0xFF00 0x0081 0) with phase := .callback, g := 16586 })).map fun t =>
      (t.result, (t.timer 0).tref)) = some (0xFF03, 16576) := by decide

/-- 43_timer_cascade.md R203. -/
theorem test_tmrRdControl :
    ((nextOf (exec (.tmrRdControl 2) (ran (.tmrWrControl 2 0xFF87) idle))).map fun t => t.result) = some 0x0087 := by decide

/-- 43_timer_cascade.md R204. -/
theorem test_tmrRdReload :
    ((nextOf (exec (.tmrRdReload 2) (ran (.tmrWrReload 2 0x1234) idle))).map fun t => t.result) = some 0x1234 := by decide

/-- 43_timer_cascade.md R205, 95_test_vectors.md L1-5 steps 9 and 10. -/
theorem test_tmrRdNextOvf :
    ((nextOf (exec (.tmrRdNextOvf 1) cascade)).map fun t => t.result) = some 4 ∧
    ((nextOf (exec (.tmrRdNextOvf 0) cascade)).map fun t => t.result) = some 4 := by decide

/-- The finding of log entry 14: a read whose flush reaches the overflow folds past it, and the pending event keeps the
time of the overflow while the next overflow is one period on (43_timer_cascade.md R193, R194). -/
theorem test_fold_past_pending_overflow :
    ((nextOf (exec (.tmrRdCounter 0) overdue)).map fun t => (t.g, (t.slot 0).t, nextOverflowTime t.params t.tmr 0))
      = some (16, 16, 32) := by decide

/-- 95_test_vectors.md T-4: at `G = 16`, the time of the overflow, `TMR_RD_NEXT_OVF t0` answers 20, the overflow after it; and
by 43_timer_cascade.md R205 "The answer does not depend on `IRQEN`", so it is 20 too while the event of that overflow is
pending at 16, which the read leaves alone. -/
theorem test_nextOvf_at_overflow :
    let off := { idle.setTimer 0 (timerOf 0xFFFC 0xFFF5 0x0080 5) with phase := .callback, cbKind := 5, g := 16 }
    let on := withEvent 0 16 0 { off.setTimer 0 (timerOf 0xFFFC 0xFFF5 0x00C0 5) with seqNext := 1 }
    ((nextOf (exec (.tmrRdNextOvf 0) off)).map fun t => t.result) = some 20 ∧
    ((nextOf (exec (.tmrRdNextOvf 0) on)).map fun t => (t.result, (t.slot 0).v, (t.slot 0).t)) = some (20, true, 16) := by
  decide

/-- The other half of log entry 14: the same for a chain whose next overflow lies beyond the horizon. -/
theorem test_fold_past_horizon :
    ((nextOf (exec (.tmrRdNextOvf 3) horizon)).map fun t => (t.g, (t.slot 3).v, (t.slot 3).t, t.result))
      = some (1024, true, 1024, 0xFFFFFFFFFFFFFFFF) := by decide

/-- 95_test_vectors.md T-10: the overflow callback at 32 inserts the delivery first, then the timer's event. -/
theorem test_timerOverflowEvent :
    let t := timerOverflowEvent 1 vectorT10
    (t.timer 0).value = 0xFFF0 ∧ (t.timer 1).value = 0xFFFE ∧ (t.timer 2).value = 0xFFFF ∧ t.irqPending = 0x0010 ∧
    t.slot 4 = { v := true, t := 34, s := 3 } ∧ t.slot 1 = { v := true, t := 64, s := 4 } ∧
    t.trace = [.suspend .cpu] := by decide

/-- 45_status_irq.md R255. -/
theorem test_raiseIrq :
    ((nextOf (exec (.raiseIrq 0x0001) { idle with phase := .callback, g := 40 })).map fun t =>
      (t.irqPending, t.slot 4)) = some (0x0001, { v := true, t := 42, s := 0 }) := by decide

/-- 45_status_irq.md R256. -/
theorem test_rdStatus :
    ((nextOf (exec (.rdStatus 3) idle)).map fun t => t.result) = some 0x01 ∧
    ((nextOf (exec (.rdStatus 2) idle)).map fun t => t.result) = some 0 := by decide

/-- 10_state.md R43: the words of selectors 2, 5 and 6. -/
theorem test_rdStatus_words :
    ((nextOf (exec (.rdStatus 2) inCallback)).map fun t => t.result) = some 0x0602 ∧
    ((nextOf (exec (.rdStatus 5) inCallback)).map fun t => t.result) = some 0x0020 ∧
    ((nextOf (exec (.rdStatus 6) inCallback)).map fun t => t.result) = some 0x15 := by decide

/-- 45_status_irq.md R257. -/
theorem test_clrFault :
    ((nextOf (exec .clrFault { idle with faultStatus := 0x0008, faultCmd := 0x0401 })).map fun t =>
      (t.faultStatus, t.faultCmd)) = some (0, 0) := by decide

/-- 30_encoding.md R86: an illegal word faults, whatever it would have done. -/
theorem test_illegal_word :
    ((nextOf (step { running with inbox := [.command { cw := 0x0115, data := 0 }] })).map fun t =>
      (t.faultStatus, t.faultCmd, t.g, t.trace)) = some (0x0001, 0x0115, 0, [.faulted]) := by decide

/-- 70_reset_and_hazards.md R300: reset wakes a halted block. -/
theorem test_reset_input :
    ((nextOf (step { halted with inbox := [.reset] })).map fun t => (t.phase, t.g, t.faultStatus, t.ledgerOf .cpu))
      = some (.idle, 0, 0, 0) := by decide

/-! Witnesses: states and operands that meet the hypotheses of each statement, clause by clause. -/

/-! The states used below meet the invariants. -/

theorem inv_idle : Inv idle := by constructor <;> decide
theorem inv_running : Inv running := by constructor <;> decide
theorem inv_inCallback : Inv inCallback := by constructor <;> decide
theorem inv_halted : Inv halted := by constructor <;> decide
theorem inv_overdue : Inv overdue := by constructor <;> decide
theorem inv_horizon : Inv horizon := by constructor <;> decide
theorem inv_deliveryDue : Inv deliveryDue := by constructor <;> decide
theorem inv_cascade : Inv cascade := by constructor <;> decide

theorem live_idle : Live idle := .inl rfl
theorem live_running : Live running := .inr (.inl rfl)
theorem live_inCallback : Live inCallback := .inr (.inr rfl)

/-- Every phase a command can meet: for `RdEventCommands`, `TmrRdControlAndReload`, `TmrRdNextOvfCommand`,
`ClrFaultCommand`, `EveryCommandCompletes`. -/
theorem witness_phases : idle.phase ≠ .dispatch ∧ running.phase ≠ .dispatch ∧ inCallback.phase ≠ .dispatch ∧
    halted.phase ≠ .dispatch := by decide

theorem witness_DecodeEncodeRoundTrip : (Instr.rdStatus 11).wf = true ∧ (Instr.schedule 15 0xFFFFFFFFFFFFFFFF).wf = true ∧
    (Instr.engage 7).wf = true ∧ (Instr.tmrWrControl 3 0xFFFF).wf = true := by decide

theorem witness_EveryWordIsOneCommandOrIllegal :
    decode { cw := 0x0B11, data := 1 } = .ok (.rdStatus 11) ∧ decode { cw := 0x0C11, data := 1 } = .error .statusSelectorHigh ∧
    Opcode.matchesWord .rdStatus 0x0B11 = true := ⟨rfl, rfl, by decide⟩

/-- The illegal words at the edge of the legal ones: each line of 30_encoding.md R86. -/
theorem witness_IllegalWord :
    IllegalWord 0x0000 ∧ IllegalWord 0x0017 ∧ IllegalWord 0x0024 ∧ IllegalWord 0x1501 ∧ IllegalWord 0x0115 ∧
    IllegalWord 0x0805 ∧ IllegalWord 0x040A ∧ IllegalWord 0x0C11 ∧ ¬ IllegalWord 0x0B11 ∧ ¬ IllegalWord 0x0016 := by
  refine ⟨?_, ?_, ?_, ?_, ?_, ?_, ?_, ?_, ?_, ?_⟩ <;> (unfold IllegalWord; decide)

theorem witness_StepRunsDecodedCommand :
    ({ idle with inbox := [.command { cw := 0x0501, data := 10 }] } : State).inbox
      = .command { cw := 0x0501, data := 10 } :: [] ∧
    decode { cw := 0x0501, data := 10 } = .ok (.schedule 5 10) ∧ idle.inbox = [] := ⟨rfl, rfl, rfl⟩

theorem witness_IllegalWordOnlyFaults :
    (({ running with inbox := [.command { cw := 0x0C11, data := 0 }] } : State).inbox
      = .command { cw := 0x0C11, data := 0 } :: [] ∧ IllegalWord 0x0C11) ∧
    (Live running ∧ 5 ≤ (5 : Fin 8).val ∧ 5 ≤ (7 : Fin 8).val) ∧ (Live inCallback ∧ (4 : Fin 16).val ≤ 4) ∧
    12 ≤ (12 : Fin 16).val :=
  ⟨⟨rfl, by unfold IllegalWord; decide⟩, ⟨live_running, by decide, by decide⟩, ⟨live_inCallback, by decide⟩, by decide⟩

theorem witness_ResetInputRestoresEveryElement :
    ({ running with inbox := [.reset] } : State).inbox = .reset :: [] ∧ halted.phase = .halted ∧
    step halted = .next halted := ⟨rfl, rfl, rfl⟩

theorem witness_CommandOutsideItsPhaseFaults :
    halted.phase ∈ barredPhases (.schedule 5 1) ∧ idle.phase ∈ barredPhases (.runEnd 1) ∧
    running.phase ∈ barredPhases .start ∧ inCallback.phase ∈ barredPhases .start ∧
    (let s := { running with faultStatus := 0x0002 };
      s.phase ∉ barredPhases .now ∧ exec .now s = .next (ran .now s) ∧ (ran .now s).faultStatus.getLsbD 1 = true) ∧
    ((idle.phase = .idle ∨ idle.phase = .callback) ∧ (4 : Fin 8).val ≤ 4) ∧
    (running.phase ≠ .dispatch ∧ exec (.runEnd 5) running = .next (ran (.runEnd 5) running)) :=
  ⟨by decide, by decide, by decide, by decide, ⟨by decide, exec_ran (by decide), by decide⟩, by decide, by decide,
    exec_ran (by decide)⟩

/-- What the witnesses of `FaultsArePrecise` show: `i` sets bit `b` in `s`. -/
def SetsBit (i : Instr) (s : State) (b : Nat) : Prop :=
  b ≤ 5 ∧ exec i s = .next (ran i s) ∧ s.faultStatus.getLsbD b = false ∧ (ran i s).faultStatus.getLsbD b = true

theorem witness_FaultsArePrecise :
    SetsBit (.rdStatus 12) running 0 ∧ SetsBit .start running 1 ∧ SetsBit (.engage 5) running 2 ∧
    SetsBit (.schedule 4 1) running 3 ∧ SetsBit (.disengage 0) running 4 ∧ SetsBit (.charge 1 1) running 5 :=
  ⟨⟨by decide, exec_ran (by decide), by decide, by decide⟩, ⟨by decide, exec_ran (by decide), by decide, by decide⟩,
    ⟨by decide, exec_ran (by decide), by decide, by decide⟩, ⟨by decide, exec_ran (by decide), by decide, by decide⟩,
    ⟨by decide, exec_ran (by decide), by decide, by decide⟩, ⟨by decide, exec_ran (by decide), by decide, by decide⟩⟩

theorem witness_FaultRegisterKeepsTheFirst :
    exec .clrFault halted = .next (ran .clrFault halted) ∧
    (exec .start halted = .next (ran .start halted) ∧ halted.faultStatus ≠ 0) ∧
    (exec (.runEnd 1) running = .next (ran (.runEnd 1) running) ∧ running.faultStatus = 0 ∧
      (ran (.runEnd 1) running).faultStatus ≠ 0) :=
  ⟨exec_ran (by decide), ⟨exec_ran (by decide), by decide⟩, exec_ran (by decide), by decide, by decide⟩

theorem witness_HaltedIsFrozen :
    halted.phase = .halted ∧ .halted ∈ barredPhases (.raiseIrq 1) ∧
    exec (.tmrRdCounter 3) halted = .next (ran (.tmrRdCounter 3) halted) ∧
    exec .start halted = .next (ran .start halted) :=
  ⟨rfl, by decide, exec_ran (by decide), exec_ran (by decide)⟩

theorem witness_CommandDuringDispatchStops : (Instr.rdStatus 11).wf = true ∧ dispatching.phase = .dispatch := by decide

theorem witness_HeadIsLeastPending :
    Inv running ∧ running.seqNext < max64 ∧ headKind running = some 5 ∧ Inv idle ∧ headKind idle = none :=
  ⟨inv_running, by decide, by decide, inv_idle, by decide⟩

/-- For `SCHEDULE`, `CANCEL` and `RESCHEDULE`: halted; an internal kind at its highest code; external kinds at both ends,
absent and present, the head and not the head. -/
theorem witness_QueueCommands :
    halted.phase = .halted ∧ (Live running ∧ (4 : Fin 16).val ≤ 4) ∧
    (Live running ∧ 5 ≤ (5 : Fin 16).val ∧ (running.slot 5).v = true ∧ headKind running = some 5) ∧
    (Live idle ∧ 5 ≤ (15 : Fin 16).val ∧ (idle.slot 15).v = false) ∧
    (Live inCallback ∧ 5 ≤ (5 : Fin 16).val ∧ (inCallback.slot 5).v = true) :=
  ⟨rfl, ⟨live_running, by decide⟩, ⟨live_running, by decide, by decide, by decide⟩, ⟨live_idle, by decide, by decide⟩,
    ⟨live_inCallback, by decide, by decide⟩⟩

theorem witness_NowCommand :
    idle.phase ≠ .dispatch ∧ idle.phase ≠ .running ∧
    (let s := { idle with phase := .running }; s.phase = .running ∧ ∀ k, (s.slot k).v = false) ∧
    (running.phase = .running ∧ headKind running = some 5) := by decide

theorem witness_RunLoopCommands :
    idle.phase = .idle ∧ running.phase = .running ∧ inCallback.phase = .callback ∧ halted.phase = .halted ∧
    running.runElapsed ≤ 3 ∧ ¬ running.runElapsed ≤ 2 := by decide

theorem witness_GrantGoesToHighestDriver :
    (entersDispatch .callbackDone ∧ inCallback.phase ∉ barredPhases .callbackDone ∧
      exec .callbackDone inCallback = .next (ran .callbackDone inCallback) ∧
      (ran .callbackDone inCallback).phase = .running) ∧
    (exec (.runEnd 5) running = .next (ran (.runEnd 5) running) ∧ (ran (.runEnd 5) running).phase ≠ .running) ∧
    (exec .start running = .next (ran .start running) ∧ running.phase ∈ barredPhases .start) :=
  ⟨⟨.inr (.inl rfl), by decide, exec_ran (by decide), by decide⟩, ⟨exec_ran (by decide), by decide⟩,
    exec_ran (by decide), by decide⟩

theorem witness_EmptyQueueHalts :
    (∀ k, (idle.slot k).v = false) ∧ idle.phase = .idle ∧
    (let s := { idle with phase := .callback, cbKind := 5 }; (∀ k, (s.slot k).v = false) ∧ s.phase = .callback) ∧
    (let s := { idle with phase := .running }; (∀ k, (s.slot k).v = false) ∧ s.phase = .running) := by decide

theorem witness_DispatchFrame :
    entersDispatch (.runEnd 5) ∧ running.phase ∉ barredPhases (.runEnd 5) ∧
    exec (.runEnd 5) running = .next (ran (.runEnd 5) running) ∧ (ran (.runEnd 5) running).phase = .callback ∧
    entersDispatch .callbackDone ∧ inCallback.phase ∉ barredPhases .callbackDone ∧
    exec .callbackDone inCallback = .next (ran .callbackDone inCallback) :=
  ⟨.inr (.inr ⟨5, rfl⟩), by decide, exec_ran (by decide), by decide, .inr (.inl rfl), by decide, exec_ran (by decide)⟩

theorem witness_TimeNeverDecreases :
    Inv running ∧ exec (.runEnd 5) running = .next (ran (.runEnd 5) running) ∧ running.g < (ran (.runEnd 5) running).g :=
  ⟨inv_running, exec_ran (by decide), by decide⟩

/-- For the driver commands: halted; the codes 4 and 5 where the clauses meet; code 0; active and not. -/
theorem witness_DriverCommands :
    halted.phase = .halted ∧ (Live running ∧ 5 ≤ (5 : Fin 8).val) ∧ (Live running ∧ (0 : Fin 8) = 0) ∧
    (Live idle ∧ driverOf 4 = some .dma3 ∧ Driver.dma3 ≠ .cpu ∧ idle.isActive .dma3 = false) ∧
    (let s := { running with active := 0b01101 };
      Live s ∧ driverOf 3 = some .dma2 ∧ Driver.dma2 ≠ .cpu ∧ s.isActive .dma2 = true) :=
  ⟨rfl, ⟨live_running, by decide⟩, ⟨live_running, rfl⟩, ⟨live_idle, rfl, by decide, by decide⟩,
    ⟨.inr (.inl rfl), rfl, by decide, by decide⟩⟩

theorem witness_ChargeCommand :
    halted.phase = .halted ∧ (Live idle ∧ 5 ≤ (5 : Fin 8).val) ∧
    (Live inCallback ∧ driverOf 4 = some .dma3 ∧ ¬ (inCallback.phase = .running ∧ Driver.dma3 = inCallback.runDrv)) ∧
    (Live running ∧ driverOf 1 = some .dma0 ∧ ¬ (running.phase = .running ∧ Driver.dma0 = running.runDrv)) ∧
    (running.phase = .running ∧ driverOf 0 = some running.runDrv) :=
  ⟨rfl, ⟨live_idle, by decide⟩, ⟨live_inCallback, rfl, by decide⟩, ⟨live_running, rfl, by decide⟩, rfl, rfl⟩

theorem witness_RdLedgerCommand :
    halted.phase ≠ .dispatch ∧ 5 ≤ (5 : Fin 8).val ∧ driverOf 4 = some .dma3 := by decide

theorem witness_OnlyTheRunningLedgerGrows :
    exec (.charge 0 4) running = .next (ran (.charge 0 4) running) ∧
    (ran (.charge 0 4) running).ledgerOf .cpu ≠ running.ledgerOf .cpu :=
  ⟨exec_ran (by decide), by decide⟩

theorem witness_LedgersCoverTimeKept :
    (let s := { running with inbox := [.command { cw := 0x0008, data := 5 }] };
      Inv s ∧ LedgersCoverTime s ∧ LedgersUnsaturated s ∧ step s = .next (after (step s) s)) := by
  refine ⟨by constructor <;> decide, fun _ => by decide, fun d => ?_, answers (by decide)⟩
  cases d <;> decide

theorem witness_FoldInvariance : RootsBehind 5 timer0On.tmr ∧ (5 : U64) ≤ 15 := by
  unfold RootsBehind; decide

theorem witness_NextOverflowAndFold :
    RootsBehind 15 timer0On.tmr ∧ counting timer0On.tmr 0 = true ∧ (15 : U64) < max64 ∧
    (15 : U64) < nextOverflowTime testParams timer0On.tmr 0 ∧
    RootsBehind 3 cascade.tmr ∧ counting cascade.tmr 1 = true ∧ (1 : U64) < nextOverflowTime testParams cascade.tmr 1 ∧
    ¬ (2 : U64) < nextOverflowTime testParams cascade.tmr 1 := by
  unfold RootsBehind; decide

/-- The ticks of the fold of vector L1-5 to time 3: three of Timer0, three of Timer1, which overflows once. -/
theorem witness_FoldCounts :
    FoldCounts testParams 3 cascade.tmr (fun n => if n.val < 2 then 3 else 0) ∧ counting cascade.tmr 1 = true ∧
    (advance cascade.tmr[1].value cascade.tmr[1].reload 3).2 = 1 :=
  ⟨by constructor <;> decide, by decide, by decide⟩

theorem witness_PeriodAfterOverflow :
    RootsBehind 2 cascade.tmr ∧ counting cascade.tmr 1 = true ∧ nextOverflowTime testParams cascade.tmr 1 = 2 ∧
    (2 : U64) < max64 ∧ rootOf cascade.tmr 1 ≤ 1 := by
  unfold RootsBehind; decide

theorem witness_TimerReads :
    running.phase ≠ .dispatch ∧ halted.phase ≠ .dispatch ∧ counting idle.tmr 0 = false ∧
    (isRoot timer0On.tmr 0 = true ∧ (timer0On.timer 0).ctrl.en = true ∧ counting timer0On.tmr 0 = true) := by decide

/-- For the timer writes: halted; the three phases that write; and for the control the write that enables, the one that
restarts, and the one that does neither. -/
theorem witness_TimerWrites :
    halted.phase = .halted ∧ Live idle ∧ Live running ∧ Live inCallback ∧
    ((idle.timer 0).ctrl.en = false ∧ (0x0080#16).getLsbD 7 = true) ∧
    ((timer0On.timer 0).ctrl.en = true ∧ (timer0On.timer 0).ctrl.ps ≠ (0x0081#16).extractLsb' 0 2 ∧
      (0x0081#16).getLsbD 7 = true) ∧
    ((timer0On.timer 0).ctrl.en = true ∧ (0x0000#16).getLsbD 7 = false) :=
  ⟨rfl, live_idle, live_running, live_inCallback, by decide, by decide, by decide⟩

/-- The affected timers of a write to Timer0 under a cascade: one that is to have an event, and one that is not. -/
theorem witness_TimersRewritten :
    let b := (timer0On.setTimer 1 (timerOf 0xFFFE 0xFFFE 0x00C4 0)).tmr
    InAffected b 0 1 ∧ ToHaveEvent testParams b 1 ∧ InAffected b 0 0 ∧ ¬ ToHaveEvent testParams b 0 ∧
      ¬ InAffected b 0 2 ∧ scheduledBelow testParams b 0 4 = 1 := by
  decide

theorem witness_TimerOverflowCallback :
    ((vectorT10.slot (timerKind 1)).v = false ∧ (vectorT10.slot irqKind).v = false ∧
      ToHaveEvent vectorT10.params (syncBank vectorT10.params vectorT10.g vectorT10.tmr) 1) ∧
    ((deliveryDue.slot (timerKind 3)).v = false ∧ (deliveryDue.slot irqKind).v = true ∧
      ¬ ToHaveEvent deliveryDue.params (syncBank deliveryDue.params deliveryDue.g deliveryDue.tmr) 3) := by decide

theorem witness_InterruptDelivery :
    deliveryDue.phase = .callback ∧ headKind deliveryDue = some irqKind ∧ (deliveryDue.slot irqKind).t ≤ deliveryDue.g := by
  decide

theorem witness_RaiseIrqCommand :
    halted.phase = .halted ∧ (Live idle ∧ (0 : U16) = 0) ∧ (Live deliveryDue ∧ (1 : U16) ≠ 0 ∧ (deliveryDue.slot irqKind).v = true) ∧
    (Live running ∧ (0x8000 : U16) ≠ 0 ∧ (running.slot irqKind).v = false) :=
  ⟨rfl, ⟨live_idle, rfl⟩, ⟨.inr (.inr rfl), by decide, by decide⟩, live_running, by decide, by decide⟩

theorem witness_RdStatusCommand :
    running.phase ≠ .dispatch ∧ halted.phase ≠ .dispatch ∧ (0 : Fin 16).val < 12 ∧ (11 : Fin 16).val < 12 ∧
    (∀ k, (idle.slot k).v = false) ∧ headKind running = some 5 := by decide

theorem witness_ReadsAreIdempotent :
    isRead (.tmrRdCounter 0) = true ∧ exec (.tmrRdCounter 0) overdue = .next (ran (.tmrRdCounter 0) overdue) ∧
    isRead .now = true ∧ exec .now running = .next (ran .now running) :=
  ⟨rfl, exec_ran (by decide), rfl, exec_ran (by decide)⟩

theorem witness_OutputsAreWellFormed :
    Inv deliveryDue ∧ exec .callbackDone deliveryDue = .next (ran .callbackDone deliveryDue) ∧
    (ran .callbackDone deliveryDue).trace = [.irqAssert 0x0009, .runGrant .cpu 5] ∧
    Inv running ∧ exec (.runEnd 5) running = .next (ran (.runEnd 5) running) ∧
    (ran (.runEnd 5) running).trace = [.fire 5] :=
  ⟨inv_deliveryDue, exec_ran (by decide), by decide, inv_running, exec_ran (by decide), by decide⟩

/-- The protocol's clauses at their edges. -/
theorem witness_ProtocolRaisesNoFault :
    FollowsProtocol running (.schedule 5 1) ∧ FollowsProtocol idle (.engage 4) ∧ FollowsProtocol idle (.disengage 1) ∧
    FollowsProtocol running (.charge 0 4) ∧ FollowsProtocol running (.runEnd 3) ∧
    FollowsProtocol inCallback .callbackDone ∧ FollowsProtocol halted (.rdStatus 11) ∧
    FollowsProtocol (withEvent 5 1 0 idle) .start ∧ FollowsProtocol halted .clrFault :=
  ⟨⟨by decide, by decide⟩, ⟨by decide, by decide⟩, ⟨by decide, by decide, by decide⟩, ⟨by decide, rfl⟩,
    ⟨by decide, by decide, 5, by decide, by decide⟩, ⟨by decide, 5, by decide, by decide⟩, by unfold FollowsProtocol; decide,
    ⟨by decide, 5, by decide, by decide⟩, trivial⟩

theorem witness_ParamsNeverWritten :
    (let s := { running with inbox := [.command { cw := 0x0004, data := 0 }, .reset] };
      step s = .next (after (step s) s)) := answers (by decide)

/-- Steps that meet the hypotheses of the kept invariants: a run that ends and fires, a delivery, a reset. -/
theorem witness_EveryStepKeepsInv :
    (let s := { running with inbox := [.command { cw := 0x0008, data := 5 }] };
      Inv s ∧ step s = .next (after (step s) s)) ∧
    (let s := { deliveryDue with inbox := [.command { cw := 0x0009, data := 0 }] };
      Inv s ∧ step s = .next (after (step s) s)) ∧
    (let s := { halted with inbox := [.reset] };
      Inv s ∧ step s = .next (after (step s) s)) :=
  ⟨⟨by constructor <;> decide, answers (by decide)⟩, ⟨by constructor <;> decide, answers (by decide)⟩,
    ⟨by constructor <;> decide, answers (by decide)⟩⟩

/-- A timer's event is pending, and the step folds past its time. -/
theorem witness_TimerEventAtNextOverflowOrDueKept :
    (let s := { overdue with inbox := [.command { cw := 0x000C, data := 0 }] };
      Inv s ∧ TimerEventAtNextOverflowOrDue s ∧ (s.slot (timerKind 0)).v = true ∧ step s = .next (after (step s) s)) := by
  refine ⟨by constructor <;> decide, ?_, by decide, answers (by decide)⟩
  unfold TimerEventAtNextOverflowOrDue; decide

/-- A timer's event is pending, and the step, a counter read at 3, leaves it ahead of now. -/
theorem witness_TimerEventAsWordedUnlessDue :
    (let s := { overdue with runElapsed := 3, inbox := [.command { cw := 0x000C, data := 0 }] };
      Inv s ∧ TimerEventAtNextOverflowOrDue s ∧ step s = .next (after (step s) s) ∧
        (∀ n, ((after (step s) s).slot (timerKind n)).v = true →
          (after (step s) s).g < ((after (step s) s).slot (timerKind n)).t) ∧
        ((after (step s) s).slot (timerKind 0)).v = true) := by
  refine ⟨by constructor <;> decide, ?_, answers (by decide), by decide, by decide⟩
  unfold TimerEventAtNextOverflowOrDue; decide

/-- The two start states of `TimerEventClaimBreaks` meet item 8 as worded. -/
theorem witness_TimerEventClaimBreaks : TimerEventAsWorded overdue ∧ TimerEventAsWorded horizon := by
  unfold TimerEventAsWorded TimerEventAtNextOverflow; decide

/-- The start state of log entry 14: an event pending, and a step that folds past its time. -/
theorem witness_EveryStepKeepsR45 :
    (let s := { overdue with inbox := [.command { cw := 0x000C, data := 0 }] };
      R45 s ∧ (s.slot (timerKind 0)).v = true ∧ step s = .next (after (step s) s)) := by
  have hi : Inv { overdue with inbox := [.command { cw := 0x000C, data := 0 }] } := by constructor <;> decide
  refine ⟨⟨hi, TimerEventAsWorded.asSet hi.rootsBehind ?_⟩, by decide, answers (by decide)⟩
  unfold TimerEventAsWorded TimerEventAtNextOverflow; decide

/-- 10_state.md R45 item 8 after that fold, of Timer0: `NextOverflowTime(0)` was 16 when the timer was set, and the event is
at 16; the chain has only been folded, to 16, since. -/
theorem test_item8_after_fold :
    (let t := ran (.tmrRdCounter 0) overdue
     FoldedFrom t.params t.g overdue.tmr t.tmr 0 ∧
     (t.slot 0).v = true ∧ (t.slot 0).t = 16 ∧ nextOverflowTime t.params overdue.tmr 0 = 16) :=
  ⟨⟨16, by decide⟩, by decide⟩

/-- A timer write that moves an event, and a run that ends at the time of one and moves it. -/
theorem witness_TimerEventSetAsWorded :
    (Inv overdue ∧ exec (.tmrWrReload 0 0xFF00) overdue = .next (ran (.tmrWrReload 0 0xFF00) overdue) ∧
      (ran (.tmrWrReload 0 0xFF00) overdue).slot (timerKind 0) ≠ overdue.slot (timerKind 0)) ∧
    (Inv overdue ∧ exec (.runEnd 20) overdue = .next (ran (.runEnd 20) overdue) ∧
      (ran (.runEnd 20) overdue).slot (timerKind 0) ≠ overdue.slot (timerKind 0)) :=
  ⟨⟨inv_overdue, exec_ran (by decide), by decide⟩, ⟨inv_overdue, exec_ran (by decide), by decide⟩⟩

end Sys2Proof.Tests
end

/-! SUPPORT. What each operation appends to the output trace (00_scope.md R16), said once: `Emits s t` composes along
the operations a command is built from, and `exec_emits` reads it off for every command. -/

namespace Sys2Proof.Machine

/-! Outputs in their ranges. -/

/-- The ranges of 00_scope.md R16: a budget is at least one cycle, a fired kind external, an asserted mask not zero. -/
def Output.InRange : Output → Prop
  | .runGrant _ budget => 1 ≤ budget.toNat
  | .suspend _ => True
  | .fire k => 5 ≤ k.val
  | .irqAssert mask => mask ≠ 0
  | .faulted => True
  | .halt => True

/-- From `s` to `t` the trace only grew, by outputs in their ranges. -/
def Emits (s t : State) : Prop := ∃ new, t.trace = s.trace ++ new ∧ ∀ e ∈ new, e.InRange

theorem Emits.of_trace {s t : State} (h : t.trace = s.trace) : Emits s t :=
  ⟨[], by rw [h, List.append_nil], by simp⟩

theorem Emits.refl (s : State) : Emits s s := .of_trace rfl

theorem Emits.trans {s t u : State} (h1 : Emits s t) (h2 : Emits t u) : Emits s u := by
  obtain ⟨new1, e1, r1⟩ := h1
  obtain ⟨new2, e2, r2⟩ := h2
  refine ⟨new1 ++ new2, by rw [e2, e1, List.append_assoc], fun e he => ?_⟩
  exact (List.mem_append.mp he).elim (r1 e) (r2 e)

/-- One output in its range. -/
theorem Emits.single {s t : State} {e : Output} (h : t.trace = s.trace ++ [e]) (he : e.InRange) : Emits s t :=
  ⟨[e], h, by simpa using he⟩

/-- A strobe that may be left out (42_driver_arbitration.md R170). -/
theorem Emits.strobe {s t : State} {b : Bool} {d : Driver}
    (h : t.trace = s.trace ++ (if b then [.suspend d] else [])) : Emits s t := by
  cases b
  · exact .of_trace (h.trans (List.append_nil _))
  · exact .single h trivial

/-! Strobes and faults. -/

theorem suspend_emits (d : Driver) (s : State) : Emits s (suspend d s) := .single rfl trivial

theorem remove_emits (k : Fin 16) (s : State) : Emits s (remove k s) := by
  rw [remove_eq]; exact .strobe rfl

theorem scheduleAt_emits (k : Fin 16) (t : U64) (s : State) : Emits s (scheduleAt k t s) := by
  rw [scheduleAt_eq]; exact .strobe rfl

theorem insert_emits (k : Fin 16) (t : U64) (s : State) : Emits s (insert k t s) := by
  rw [insert_eq]; exact .strobe rfl

/-- A fault appends at most `FAULTED` and `HALT` (60_exceptions.md R270, R272). -/
theorem raiseFault_emits (c : FaultCode) (cw : U16) (s : State) : Emits s (raiseFault c cw s) := by
  by_cases hc : c = .emptyQueue
  · rw [hc, raiseFault_emptyQueue_eq]
    exact ⟨_, rfl, by split <;> simp [Output.InRange]⟩
  · rw [raiseFault_eq hc]
    exact ⟨_, rfl, by split <;> simp [Output.InRange]⟩

/-! The interrupt source and the timers. -/

theorem raiseSource_emits (m : U16) (s : State) : Emits s (raiseSource m s) := by
  rcases raiseSource_cases m s with ⟨-, h⟩ | ⟨-, -, h⟩ | ⟨-, -, h⟩ <;> rw [h]
  · exact .refl s
  · exact .of_trace rfl
  · exact insert_emits _ _ { s with irqPending := s.irqPending ||| m }

theorem rescheduleTimer_emits (s : State) (n : Fin 4) : Emits s (rescheduleTimer s n) := by
  unfold rescheduleTimer
  split
  · exact scheduleAt_emits _ _ _
  · exact remove_emits _ _

theorem timerReschedule_emits (l : List (Fin 4)) (s : State) : Emits s (timerReschedule l s) := by
  induction l generalizing s with
  | nil => exact .refl s
  | cons n l ih => exact (rescheduleTimer_emits s n).trans (ih _)

theorem timerOverflowEvent_emits (n : Fin 4) (s : State) : Emits s (timerOverflowEvent n s) := by
  have hsource : Emits s (raiseSource (timerSource s.params n) (timerSyncAll s.g s)) :=
    raiseSource_emits _ (timerSyncAll s.g s)
  unfold timerOverflowEvent
  simp only
  split
  · exact hsource.trans (insert_emits _ _ _)
  · exact hsource

/-! A pending delivery has something to deliver, also between the rounds of `Dispatch`. -/

/-- Half of 10_state.md R45 item 7: where a delivery is pending, `IRQ_PENDING` is not zero. -/
def DeliveryPended (s : State) : Prop := (s.slot irqKind).v = true → s.irqPending ≠ 0

theorem Inv.deliveryPended {s : State} (h : Inv s) : DeliveryPended s := h.irqPended.mp

theorem insert_irqPending (k : Fin 16) (t : U64) (s : State) : (insert k t s).irqPending = s.irqPending := by
  rw [insert_eq]

/-- Inserting any other kind's event leaves the delivery alone. -/
theorem insert_deliveryPended {k : Fin 16} (hk : irqKind ≠ k) {s : State} (h : DeliveryPended s) (t : U64) :
    DeliveryPended (insert k t s) := by
  unfold DeliveryPended
  rw [insert_slot, if_neg hk, insert_irqPending]
  exact h

/-- Raising a source creates the delivery only together with the bits to deliver (60_exceptions.md R277). -/
theorem raiseSource_deliveryPended {s : State} (h : DeliveryPended s) (m : U16) :
    DeliveryPended (raiseSource m s) := by
  have hor : m ≠ 0 → s.irqPending ||| m ≠ 0 := fun hm h0 => hm (BitVec.or_eq_zero_iff.mp h0).2
  rcases raiseSource_cases m s with ⟨-, e⟩ | ⟨hm, -, e⟩ | ⟨hm, -, e⟩ <;> rw [e]
  · exact h
  · exact fun _ => hor hm
  · intro _
    rw [insert_irqPending]
    exact hor hm

theorem timerOverflowEvent_deliveryPended {s : State} (h : DeliveryPended s) (n : Fin 4) :
    DeliveryPended (timerOverflowEvent n s) := by
  have hsource : DeliveryPended (raiseSource (timerSource s.params n) (timerSyncAll s.g s)) :=
    raiseSource_deliveryPended (s := timerSyncAll s.g s) h _
  unfold timerOverflowEvent
  simp only
  split
  · exact insert_deliveryPended (timerKind_ne_irqKind n).symm hsource _
  · exact hsource

/-- A popped event is not pending any more, and the others stay. -/
theorem pop_deliveryPended {s : State} (h : DeliveryPended s) (k : Fin 16) : DeliveryPended (pop k s) := by
  unfold DeliveryPended
  rw [pop_slot]
  split
  · exact fun hv => absurd hv Bool.false_ne_true
  · exact h

/-! `Dispatch` (41_run_loop.md R141). -/

/-- An internal callback emits in range: the mask it asserts belongs to a delivery that was pending. -/
theorem callback_emits {s s1 : State} {k : Fin 16} (h : DeliveryPended s) (hk : headKind s = some k)
    (hcb : internalCallback k (pop k s) = some s1) : Emits s s1 ∧ DeliveryPended s1 := by
  rcases internalCallback_cases hcb with ⟨n, -, rfl⟩ | ⟨rfl, rfl⟩
  · exact ⟨timerOverflowEvent_emits n (pop k s), timerOverflowEvent_deliveryPended (pop_deliveryPended h k) n⟩
  · have hmask : s.irqPending ≠ 0 := h (headKind_spec hk).1
    refine ⟨.single (e := .irqAssert s.irqPending) rfl hmask, fun hv => ?_⟩
    change ((pop irqKind s).slot irqKind).v = true at hv
    rw [pop_slot, if_pos rfl] at hv
    exact absurd hv Bool.false_ne_true

theorem Pops.emits {m : Nat} {s u : State} (hpops : Pops m s u) (h : DeliveryPended s) : Emits s u :=
  (hpops.keeps (P := fun v => Emits s v ∧ DeliveryPended v)
    (fun _ _ _ hv hk _ hcb =>
      have hround := callback_emits hv.2 hk hcb
      ⟨hv.1.trans hround.1, hround.2⟩)
    ⟨.refl s, h⟩).1

/-- A grant runs up to an event that lies ahead, so its budget is not zero; only an external kind fires. -/
theorem DispatchEnd.emits {cw : U16} {u t : State} (h : DispatchEnd cw u t) : Emits u t := by
  rcases h with ⟨-, rfl⟩ | ⟨k, -, hahead, rfl⟩ | ⟨k, -, -, hext, rfl⟩
  · exact raiseFault_emits _ _ _
  · refine .single (e := .runGrant (front u) ((u.slot k).t - u.g)) rfl ?_
    change 1 ≤ ((u.slot k).t - u.g).toNat
    bv_omega
  · exact .single (e := .fire k) rfl hext

theorem dispatch_emits {cw : U16} {s t : State} (h : DeliveryPended s) (he : dispatch cw s = .next t) : Emits s t := by
  obtain ⟨m, u, t', hpops, hend, e⟩ := dispatch_ends cw s
  obtain rfl : t' = t := by rw [e] at he; exact Host.Outcome.next.inj he
  exact (hpops.emits (s := { s with phase := .dispatch }) h).trans hend.emits

/-! The common sequence of a command (30_encoding.md R87). -/

/-- What a command emits is what its own rule emits from the entry state, or a fault. -/
theorem command_emits {i : Instr} {body : State → Answer} {s t : State} (he : command i body s = .next t)
    (hbody : body (atEntry s) = .next t → Emits (atEntry s) t) : Emits s t := by
  rcases command_cases i body s with ⟨-, e⟩ | ⟨-, -, e⟩ | ⟨-, -, e⟩ <;> rw [e] at he
  · exact absurd he (by simp)
  · exact hbody he
  · obtain rfl := Host.Outcome.next.inj he
    exact raiseFault_emits _ _ { s with result := 0 }

theorem plainCommand_emits {i : Instr} {body : State → State} {s t : State} (he : plainCommand i body s = .next t)
    (hbody : ∀ s0, Emits s0 (body s0)) : Emits s t :=
  command_emits he fun h => by
    obtain rfl := Host.Outcome.next.inj h
    exact hbody _

/-! The commands' own rules. -/

theorem onExternalKind_emits (i : Instr) (k : Fin 16) {body : State → State} {s : State} (hbody : Emits s (body s)) :
    Emits s (onExternalKind i k body s) := by
  unfold onExternalKind
  split
  · exact raiseFault_emits _ _ _
  · exact hbody

theorem onDriver_emits (i : Instr) (d : Fin 8) {body : Driver → State → State} {s : State}
    (hbody : ∀ drv, Emits s (body drv s)) : Emits s (onDriver i d body s) := by
  unfold onDriver
  split
  · exact raiseFault_emits _ _ _
  · exact hbody _

theorem engageDriver_emits (drv : Driver) (s : State) : Emits s (engageDriver drv s) := by
  unfold engageDriver
  simp only
  split
  · exact .refl s
  · split
    · exact suspend_emits _ (s.setActive drv)
    · exact .of_trace rfl

theorem disengageDriver_emits (drv : Driver) (s : State) : Emits s (disengageDriver drv s) := by
  unfold disengageDriver
  simp only
  split
  · split
    · exact suspend_emits _ (s.clearActive drv)
    · exact .of_trace rfl
  · exact .refl s

/-- `RUN_END`'s first statement charges a ledger or records an under-report: the delivery stays as it was. -/
theorem settleRun_emits (cw : U16) (c : U64) {s : State} (h : DeliveryPended s) :
    Emits s (settleRun cw c s) ∧ DeliveryPended (settleRun cw c s) := by
  unfold settleRun
  split
  · refine ⟨raiseFault_emits _ _ _, ?_⟩
    rw [raiseFault_eq (by decide)]
    exact h
  · exact ⟨.of_trace rfl, h⟩

theorem execRunEnd_emits {c : U64} {s t : State} (h : DeliveryPended s) (he : execRunEnd c s = .next t) :
    Emits s t := by
  refine command_emits he fun hbody => ?_
  obtain ⟨hsettle, hpended⟩ := settleRun_emits (Instr.runEnd c).word c (s := atEntry s) h
  exact hsettle.trans (dispatch_emits (s := { commitTime _ _ with suspendReq := false }) hpended hbody)

theorem execRdStatus_emits {sel : Fin 16} {s t : State} (he : execRdStatus sel s = .next t) : Emits s t := by
  unfold execRdStatus at he
  split at he
  · exact plainCommand_emits he fun _ => .of_trace rfl
  · obtain rfl := Host.Outcome.next.inj he
    exact raiseFault_emits _ _ { s with result := 0 }

/-- Every command only appends to the trace, and only outputs in their ranges. -/
theorem exec_emits {i : Instr} {s t : State} (h : DeliveryPended s) (he : exec i s = .next t) : Emits s t := by
  unfold exec at he
  cases i with
  | schedule k delay =>
    exact plainCommand_emits he fun _ => onExternalKind_emits _ _ (scheduleAt_emits _ _ _)
  | cancel k => exact plainCommand_emits he fun _ => onExternalKind_emits _ _ (remove_emits _ _)
  | reschedule k delay =>
    refine plainCommand_emits he fun s0 => onExternalKind_emits _ _ ?_
    split
    · exact scheduleAt_emits _ _ _
    · exact .refl s0
  | now => exact plainCommand_emits he fun _ => .of_trace rfl
  | engage d => exact plainCommand_emits he fun _ => onDriver_emits _ _ fun _ => engageDriver_emits _ _
  | disengage d =>
    refine plainCommand_emits he fun _ => onDriver_emits _ _ fun _ => ?_
    split
    · exact raiseFault_emits _ _ _
    · exact disengageDriver_emits _ _
  | charge d n =>
    refine plainCommand_emits he fun _ => onDriver_emits _ _ fun _ => ?_
    split
    · exact .of_trace rfl
    · exact raiseFault_emits _ _ _
  | runEnd c => exact execRunEnd_emits h he
  | callbackDone => exact command_emits he (dispatch_emits (s := atEntry s) h)
  | tmrWrReload n v =>
    exact plainCommand_emits he fun s0 =>
      timerReschedule_emits _ ((timerSyncAll s0.g s0).setTimer n { (timerSyncAll s0.g s0).timer n with reload := v })
  | tmrWrControl n w =>
    exact plainCommand_emits he fun s0 =>
      timerReschedule_emits _ ((timerSyncAll s0.g s0).setTimer n (writeCtrl n w s0.g ((timerSyncAll s0.g s0).timer n)))
  | tmrRdCounter n => exact plainCommand_emits he fun _ => .of_trace rfl
  | tmrRdControl n => exact plainCommand_emits he fun _ => .of_trace rfl
  | tmrRdReload n => exact plainCommand_emits he fun _ => .of_trace rfl
  | tmrRdNextOvf n => exact plainCommand_emits he fun _ => .of_trace rfl
  | raiseIrq m => exact plainCommand_emits he (raiseSource_emits m)
  | rdStatus sel => exact execRdStatus_emits he
  | rdLedger d => exact plainCommand_emits he fun _ => onDriver_emits _ _ fun _ => .of_trace rfl
  | rdEventTime k => exact plainCommand_emits he fun _ => .of_trace rfl
  | rdEventSeq k => exact plainCommand_emits he fun _ => .of_trace rfl
  | clrFault => exact plainCommand_emits he fun _ => .of_trace rfl
  | start => exact command_emits he (dispatch_emits (s := atEntry s) h)

/-- Settles O50: of the invariant only item 7 is needed, and `Dispatch` keeps it as far as a delivery asks for it. -/
theorem outputsAreWellFormed : Obligations.OutputsAreWellFormed := by
  unfold Obligations.OutputsAreWellFormed
  intro i s t hinv he
  obtain ⟨new, htrace, hrange⟩ := exec_emits hinv.deliveryPended he
  exact ⟨new, htrace, fun d b => hrange (.runGrant d b), fun k => hrange (.fire k), fun m => hrange (.irqAssert m)⟩

end Sys2Proof.Machine

/-! SUPPORT. Further facts of the lazy fold (43_timer_cascade.md R193 to R195, R209): folds add up, a bank folded to a
time has every counting timer's next tick ahead of it, and a fold to an overflow moves the next one by a period. -/

namespace Sys2Proof.Machine

/-! Folds add up (R209). -/

theorem syncBank_ctrl_fin (p : Params) (t : U64) (ts : TimerBank) (n : Fin 4) :
    (syncBank p t ts)[n].ctrl = ts[n].ctrl := syncBank_ctrl p t ts n.val n.isLt

theorem syncBank_tref_fin (p : Params) (t : U64) (ts : TimerBank) (n : Fin 4) :
    (syncBank p t ts)[n].tref = foldTref p t ts n := by rw [syncBank_get]; rfl

/-- The whole ticks of a fold to `u` are those of a fold to `t` on the way and those after it. -/
theorem rootTicks_split {p : Params} {t u : U64} {ts : TimerBank} (hb : RootsBehind t ts) (htu : t ≤ u) {r : Fin 4}
    (hr : isRoot ts r = true) (he : ts[r].ctrl.en = true) :
    rootTicks p u ts r = rootTicks p t ts r + rootTicks p u (syncBank p t ts) r := by
  obtain ⟨htref, hle, -⟩ := foldTref_bounds (p := p) hb hr he
  rw [BitVec.le_def] at htu
  have hspan : u.toNat - ts[r].tref.toNat =
      (u.toNat - (foldTref p t ts r).toNat) + rootTicks p t ts r * psOf p ts r := by omega
  have hu : rootTicks p u ts r = (u.toNat - ts[r].tref.toNat) / psOf p ts r := rfl
  have hs : rootTicks p u (syncBank p t ts) r = (u.toNat - (foldTref p t ts r).toNat) / psOf p ts r := by
    rw [← syncBank_tref_fin, ← psOf_syncBank p t ts r]; rfl
  rw [hu, hs, hspan, Nat.add_mul_div_right _ _ (psOf_pos p ts r), Nat.add_comm]

/-- Overflows of a timer add up over consecutive ticks. -/
theorem Timer.overflows_add (x : Timer) (a b : Nat) :
    x.overflows (a + b) = x.overflows a + (x.ticked a).overflows b := by
  simp only [Timer.overflows, Timer.ticked, advance_add]

theorem Timer.ticked_add (x : Timer) (a b : Nat) : x.ticked (a + b) = (x.ticked a).ticked b := by
  simp only [Timer.ticked, advance_add]

/-- So do the ticks of every timer: a cascaded one takes its predecessor's overflows. -/
theorem foldTicks_split {p : Params} {t u : U64} {ts : TimerBank} (hb : RootsBehind t ts) (htu : t ≤ u) :
    ∀ n h, foldTicks p u ts n h = foldTicks p t ts n h + foldTicks p u (syncBank p t ts) n h
  | 0, h => by
    simp only [foldTicks, syncBank_ctrl]
    split
    · rename_i he
      exact rootTicks_split hb htu (by simp [isRoot]) he
    · rfl
  | n + 1, h => by
    simp only [foldTicks, syncBank_ctrl]
    split
    · rename_i he
      split
      · rw [foldTicks_split hb htu n, Timer.overflows_add, syncBank_getElem p t ts n (by omega)]
        rfl
      · rename_i hc
        exact rootTicks_split hb htu (r := ⟨n + 1, h⟩) (by simp [isRoot, hc]) he
    · rfl

theorem foldTref_split {p : Params} {t u : U64} {ts : TimerBank} (hb : RootsBehind t ts) (htu : t ≤ u) (n : Fin 4) :
    foldTref p u (syncBank p t ts) n = foldTref p u ts n := by
  cases hre : isRoot ts n && ts[n].ctrl.en
  · simp only [foldTref, isRoot_syncBank, syncBank_ctrl_fin, syncBank_tref_fin, hre, Bool.false_eq_true, if_false]
  · obtain ⟨hr, he⟩ := Bool.and_eq_true_iff.mp hre
    have htref := (foldTref_bounds (p := p) hb hr he).1
    have hticks := rootTicks_split (p := p) hb htu hr he
    have hl : foldTref p u (syncBank p t ts) n =
        sat64 ((foldTref p t ts n).toNat + rootTicks p u (syncBank p t ts) n * psOf p ts n) := by
      simp only [foldTref, isRoot_syncBank, syncBank_ctrl_fin, syncBank_tref_fin, hre, psOf_syncBank, if_true]
    have hr' : foldTref p u ts n = sat64 (ts[n].tref.toNat + rootTicks p u ts n * psOf p ts n) := by
      simp only [foldTref, hre, if_true]
    rw [hl, hr', htref, hticks, Nat.add_mul, Nat.add_assoc]

/-- A fold on the way changes nothing of a later fold (R209, its first claim). -/
theorem syncBank_syncBank {p : Params} {t u : U64} {ts : TimerBank} (hb : RootsBehind t ts) (htu : t ≤ u) :
    syncBank p u (syncBank p t ts) = syncBank p u ts := by
  ext1 n hn
  rw [syncBank_getElem p u _ n hn, syncBank_getElem p u ts n hn, foldTref_split hb htu, foldTicks_split hb htu n hn,
    Timer.ticked_add, syncBank_getElem p t ts n hn]
  rfl

/-! A bank folded to a time. -/

/-- Every enabled root of the bank is folded to `t`: its `TREF` is at most `t`, and its next tick after `t`. -/
def FoldedTo (p : Params) (t : U64) (ts : TimerBank) : Prop :=
  ∀ r, isRoot ts r = true → ts[r].ctrl.en = true → ts[r].tref ≤ t ∧ t.toNat < ts[r].tref.toNat + psOf p ts r

theorem FoldedTo.rootsBehind {p : Params} {t : U64} {ts : TimerBank} (h : FoldedTo p t ts) : RootsBehind t ts :=
  fun r hr he => (h r hr he).1

theorem syncBank_foldedTo {p : Params} {t : U64} {ts : TimerBank} (hb : RootsBehind t ts) :
    FoldedTo p t (syncBank p t ts) := by
  intro r hr he
  refine ⟨rootsBehind_syncBank hb r hr he, ?_⟩
  rw [isRoot_syncBank] at hr
  rw [syncBank_ctrl_fin] at he
  rw [syncBank_tref_fin, psOf_syncBank]
  exact lt_foldTref p t ts hr he

/-- Every further tick of a counting timer of a folded bank lies after `t`. -/
theorem FoldedTo.lt_overflowFrom {p : Params} {t : U64} {ts : TimerBank} (h : FoldedTo p t ts) :
    ∀ n hn need, 1 ≤ need → countingFrom ts n hn = true → t.toNat < overflowFrom p ts n hn need
  | 0, hn, need, hneed, hc => by
    have hlt : t.toNat < ts[0].tref.toNat + psOf p ts 0 := (h 0 (by simp [isRoot]) hc).2
    have hmul := Nat.mul_le_mul_right (psOf p ts 0) hneed
    unfold overflowFrom
    omega
  | n + 1, hn, need, hneed, hc => by
    obtain ⟨he, hprev⟩ := Bool.and_eq_true_iff.mp hc
    unfold overflowFrom
    cases hcas : ts[n + 1].ctrl.cascade with
    | false =>
      have hlt : t.toNat < ts[n + 1].tref.toNat + psOf p ts ⟨n + 1, hn⟩ :=
        (h ⟨n + 1, hn⟩ (by simp [isRoot, hcas]) he).2
      have hmul := Nat.mul_le_mul_right (psOf p ts ⟨n + 1, hn⟩) hneed
      simp only [Bool.false_eq_true, if_false]
      omega
    | true =>
      have hpos := ticksLeft_pos ts ⟨n, by omega⟩
      simp only [if_true]
      exact h.lt_overflowFrom n (by omega) _ (by omega) (by simpa [hcas] using hprev)

/-- The next overflow of a counting timer of a folded bank is not before `t`. -/
theorem FoldedTo.le_nextOverflowTime {p : Params} {t : U64} {ts : TimerBank} (h : FoldedTo p t ts) {n : Fin 4}
    (hc : counting ts n = true) : t ≤ nextOverflowTime p ts n := by
  have hlt := h.lt_overflowFrom n.val n.isLt (ticksLeft ts n) (ticksLeft_pos ts n) hc
  have ht := t.isLt
  rw [BitVec.le_def, nextOverflowTime, sat64_toNat]
  omega

/-! The next overflow after a fold (R194, R195). -/

theorem periodFrom_pos (p : Params) (ts : TimerBank) : ∀ n h, 0 < periodFrom p ts n h
  | 0, _ => Nat.mul_pos (cme_pos ts 0) (psOf_pos p ts 0)
  | n + 1, h => by
    unfold periodFrom
    split
    · exact Nat.mul_pos (cme_pos ts _) (periodFrom_pos p ts n _)
    · exact Nat.mul_pos (cme_pos ts _) (psOf_pos p ts _)

theorem period_pos (p : Params) (ts : TimerBank) (n : Fin 4) : 0 < period p ts n := periodFrom_pos p ts _ _

/-- `e` more ticks take `e` ticks' cycles longer. -/
theorem overflowFrom_add (p : Params) (ts : TimerBank) :
    ∀ n h need e, 1 ≤ need →
      overflowFrom p ts n h (need + e) = overflowFrom p ts n h need + e * tickCycles p ts n h
  | 0, _, need, e, _ => by
    simp only [overflowFrom, tickCycles, Nat.add_mul, Nat.add_assoc]
  | n + 1, h, need, e, hneed => by
    have hpos := ticksLeft_pos ts ⟨n, by omega⟩
    have hticks : ticksLeft ts ⟨n, by omega⟩ + (need + e - 1) * cme ts ⟨n, by omega⟩ =
        (ticksLeft ts ⟨n, by omega⟩ + (need - 1) * cme ts ⟨n, by omega⟩) + e * cme ts ⟨n, by omega⟩ := by
      rw [show need + e - 1 = (need - 1) + e by omega, Nat.add_mul, Nat.add_assoc]
    simp only [overflowFrom, tickCycles]
    split
    · rw [hticks, overflowFrom_add p ts n _ _ _ (by omega), periodFrom_eq, Nat.mul_assoc]
    · rw [Nat.add_mul, Nat.add_assoc]

/-- A fold to a time before the next overflow leaves it alone (R209). -/
theorem nextOverflowTime_fold_before {p : Params} {t : U64} {ts : TimerBank} (hb : RootsBehind t ts) {n : Fin 4}
    (hc : counting ts n = true) (ht : t.toNat < overflowFrom p ts n.val n.isLt (ticksLeft ts n)) :
    nextOverflowTime p (syncBank p t ts) n = nextOverflowTime p ts n := by
  have hzero := (no_overflow_iff hb hc).mpr ht
  rw [nextOverflowTime, overflow_syncBank hb hc, hzero, Nat.zero_mul, Nat.add_zero, nextOverflowTime]

/-- A fold to the next overflow moves it by one period (R195). -/
theorem nextOverflowTime_fold_at {p : Params} {t : U64} {ts : TimerBank} (hb : RootsBehind t ts) {n : Fin 4}
    (hc : counting ts n = true) (ht : t.toNat = overflowFrom p ts n.val n.isLt (ticksLeft ts n)) :
    nextOverflowTime p (syncBank p t ts) n = sat64 (t.toNat + period p ts n) := by
  have hsome : ts[n].overflows (foldTicks p t ts n.val n.isLt) ≠ 0 := fun h =>
    absurd ((no_overflow_iff hb hc).mp h) (by omega)
  have hsecond : overflowFrom p ts n.val n.isLt (ticksLeft ts n + cme ts n) = t.toNat + period p ts n := by
    rw [overflowFrom_add p ts _ _ _ _ (ticksLeft_pos ts n), ← ht, period, periodFrom_eq]
  have hfew : ts[n].overflows (foldTicks p t ts n.val n.isLt) < 2 := by
    refine (advance_overflows_lt _ _ _ 2 (by decide)).mpr ?_
    have hticks := (foldTicks_lt (p := p) hb n.val n.isLt (ticksLeft ts n + cme ts n)
      (by have := ticksLeft_pos ts n; omega) hc).mpr (by rw [hsecond]; have := period_pos p ts n; omega)
    simpa [ticksLeft, cme] using hticks
  have hone : ts[n].overflows (foldTicks p t ts n.val n.isLt) = 1 := by omega
  rw [nextOverflowTime, overflow_syncBank hb hc, hone, Nat.one_mul, ← ht]

/-- No fold moves the next overflow back. -/
theorem nextOverflowTime_le_fold {p : Params} {t : U64} {ts : TimerBank} (hb : RootsBehind t ts) {n : Fin 4}
    (hc : counting ts n = true) : nextOverflowTime p ts n ≤ nextOverflowTime p (syncBank p t ts) n := by
  rw [BitVec.le_def, nextOverflowTime, nextOverflowTime, overflow_syncBank hb hc, sat64_toNat, sat64_toNat]
  omega

/-! The period depends on the chain only, and no fold changes it. -/

theorem ChainAgree.periodFrom (p : Params) {b u : TimerBank} :
    ∀ {n h}, ChainAgree b u n h → periodFrom p u n h = periodFrom p b n h
  | 0, _, e => by
    have e' : u[(0 : Fin 4)] = b[(0 : Fin 4)] := e
    simp only [Machine.periodFrom, cme, psOf, e']
  | n + 1, h, e => by
    have e' : u[(⟨n + 1, h⟩ : Fin 4)] = b[(⟨n + 1, h⟩ : Fin 4)] := e.1
    simp only [Machine.periodFrom, cme, psOf, e.1, e']
    split
    · rename_i hc
      rw [(e.2 hc).periodFrom p]
    · rfl

theorem ChainAgree.period (p : Params) {b u : TimerBank} {n : Fin 4} (e : ChainAgree b u n.val n.isLt) :
    period p u n = period p b n := by
  unfold Machine.period
  exact e.periodFrom p

theorem period_syncBank (p : Params) (t : U64) (ts : TimerBank) (n : Fin 4) :
    period p (syncBank p t ts) n = period p ts n := by
  have h : ∀ m hm, periodFrom p (syncBank p t ts) m hm = periodFrom p ts m hm := by
    intro m
    induction m with
    | zero => intro hm; simp only [periodFrom, cme_syncBank, psOf_syncBank]
    | succ m ih => intro hm; simp only [periodFrom, syncBank_ctrl, cme_syncBank, psOf_syncBank, ih]
  exact h n.val n.isLt

/-! Timers outside the affected ones (R196). -/

/-- Writing timer `n` leaves the chain of every timer it does not affect. -/
theorem chainAgree_set_of_not_affected (b : TimerBank) (n : Fin 4) (x : Timer) :
    ∀ m h, ¬ InAffected (b.set n x) n ⟨m, h⟩ → ChainAgree b (b.set n x) m h := by
  have hother : ∀ m (h : m < 4), m ≠ n.val → (b.set n x)[m] = b[m] := fun m h hne =>
    Vector.getElem_set_ne n.isLt h (Ne.symm hne)
  intro m
  induction m with
  | zero =>
    intro h hna
    refine hother 0 h fun e => hna ⟨Fin.le_def.mpr e.symm.le, fun j h1 h2 => ?_⟩
    rw [Fin.lt_def] at h1; rw [Fin.le_def] at h2
    simp only at h2; omega
  | succ m ih =>
    intro h hna
    have hne : m + 1 ≠ n.val := fun e => hna ⟨Fin.le_def.mpr e.symm.le, fun j h1 h2 => by
      rw [Fin.lt_def] at h1; rw [Fin.le_def] at h2
      simp only at h2; omega⟩
    refine ⟨hother (m + 1) h hne, fun hc => ih (by omega) fun hin => hna ⟨?_, fun j h1 h2 => ?_⟩⟩
    · exact Fin.le_def.mpr ((Fin.le_def.mp hin.1).trans (Nat.le_succ m))
    · by_cases hj : j.val = m + 1
      · obtain rfl : j = ⟨m + 1, h⟩ := Fin.ext hj
        exact (congrArg (fun y => y.ctrl.cascade) (hother (m + 1) h hne)).trans hc
      · rw [Fin.le_def] at h2
        simp only at h2
        exact hin.2 j h1 (Fin.le_def.mpr (by simp only; omega))

end Sys2Proof.Machine

/-! SUPPORT. What the operations keep of the invariants of 10_state.md R45, inside `Dispatch` too: the queue's order, the
delivery, the anchors of the timers. One lemma per operation. -/

namespace Sys2Proof.Machine

/-! Numbers (00_scope.md R10). -/

/-- A time in the future, saturated, is not in the past. -/
theorem le_sat64_add (g : U64) (d : Nat) : g ≤ sat64 (g.toNat + d) := by
  have := g.isLt
  rw [BitVec.le_def, sat64_toNat]
  omega

theorem sat64_mono {a b : Nat} (h : a ≤ b) : sat64 a ≤ sat64 b := by
  rw [BitVec.le_def, sat64_toNat, sat64_toNat]
  omega

/-! The queue (R45 items 3 and 4). -/

/-- R45 items 3 and 4: pending events are not in the past, and their sequence numbers are below `SEQ_NEXT` and distinct. -/
structure Ordered (s : State) : Prop where
  ahead : ∀ k, (s.slot k).v = true → s.g ≤ (s.slot k).t
  seqBelow : s.seqNext < max64 → ∀ k, (s.slot k).v = true → (s.slot k).s < s.seqNext
  seqDistinct : s.seqNext < max64 → ∀ j k, (s.slot j).v = true → (s.slot k).v = true →
    (s.slot j).s = (s.slot k).s → j = k

/-- Time may pass up to the first pending event. -/
theorem Ordered.wait {s t : State} (h : Ordered s) (hevt : t.evt = s.evt) (hseq : t.seqNext = s.seqNext)
    (hg : ∀ k, (s.slot k).v = true → t.g ≤ (s.slot k).t) : Ordered t := by
  have hslot := fun k => State.slot_of_evt hevt k
  refine ⟨fun k => ?_, ?_, ?_⟩
  · rw [hslot]; exact hg k
  · simp only [hslot, hseq]; exact h.seqBelow
  · simp only [hslot, hseq]; exact h.seqDistinct

/-- `t` is `s` with kind `k` no longer pending. -/
theorem Ordered.clear {s t : State} {k : Fin 16} (h : Ordered s)
    (hslot : ∀ j, t.slot j = if j = k then { s.slot k with v := false } else s.slot j)
    (hseq : t.seqNext = s.seqNext) (hg : t.g = s.g) : Ordered t := by
  have hkept : ∀ j, (t.slot j).v = true → t.slot j = s.slot j ∧ (s.slot j).v = true := by
    intro j hv
    rw [hslot] at hv ⊢
    split at hv
    · exact absurd hv Bool.false_ne_true
    · rename_i hj
      exact ⟨if_neg hj, hv⟩
  refine ⟨fun j hv => ?_, fun hlt j hv => ?_, fun hlt i j hi hj he => ?_⟩
  · obtain ⟨e, hv'⟩ := hkept j hv
    rw [e, hg]; exact h.ahead j hv'
  · obtain ⟨e, hv'⟩ := hkept j hv
    rw [hseq] at hlt ⊢; rw [e]; exact h.seqBelow hlt j hv'
  · obtain ⟨ei, hi'⟩ := hkept i hi
    obtain ⟨ej, hj'⟩ := hkept j hj
    rw [hseq] at hlt; rw [ei, ej] at he
    exact h.seqDistinct hlt i j hi' hj' he

/-- `t` is `s` with kind `k` pending at `x`, not in the past, under the next sequence number. -/
theorem Ordered.enqueue {s t : State} {k : Fin 16} {x : U64} (h : Ordered s)
    (hslot : ∀ j, t.slot j = if j = k then { v := true, t := x, s := s.seqNext } else s.slot j)
    (hseq : t.seqNext = sat64 (s.seqNext.toNat + 1)) (hg : t.g = s.g) (hx : s.g ≤ x) : Ordered t := by
  have hself : t.slot k = { v := true, t := x, s := s.seqNext } := by rw [hslot, if_pos rfl]
  have hother : ∀ j, j ≠ k → t.slot j = s.slot j := fun j hj => by rw [hslot, if_neg hj]
  have hnext : t.seqNext < max64 → s.seqNext < max64 ∧ s.seqNext < t.seqNext := by
    rw [hseq, BitVec.lt_def, BitVec.lt_def, BitVec.lt_def, sat64_toNat, max64_toNat]
    omega
  refine ⟨fun j hv => ?_, fun hlt j hv => ?_, fun hlt i j hi hj he => ?_⟩
  · by_cases hj : j = k
    · rw [hj, hself, hg]; exact hx
    · rw [hother j hj] at hv ⊢
      rw [hg]; exact h.ahead j hv
  · obtain ⟨hlt', hnew⟩ := hnext hlt
    by_cases hj : j = k
    · rw [hj, hself]; exact hnew
    · rw [hother j hj] at hv ⊢
      exact BitVec.lt_trans (h.seqBelow hlt' j hv) hnew
  · obtain ⟨hlt', -⟩ := hnext hlt
    have hnew : ∀ l, l ≠ k → (t.slot l).v = true → (t.slot l).s ≠ s.seqNext := by
      intro l hl hv e
      rw [hother l hl] at hv e
      exact absurd (h.seqBelow hlt' l hv) (by rw [e]; exact BitVec.lt_irrefl _)
    by_cases hik : i = k <;> by_cases hjk : j = k
    · rw [hik, hjk]
    · rw [hik, hself] at he
      exact absurd he.symm (hnew j hjk hj)
    · rw [hjk, hself] at he
      exact absurd he (hnew i hik hi)
    · rw [hother i hik] at hi he
      rw [hother j hjk] at hj he
      exact h.seqDistinct hlt' i j hi hj he

/-- A head that is due is due now. -/
theorem Ordered.head_due {s : State} {k : Fin 16} (h : Ordered s) (hk : headKind s = some k)
    (hdue : ¬ s.g < (s.slot k).t) : (s.slot k).t = s.g := by
  have hle := h.ahead k (headKind_spec hk).1
  rw [BitVec.le_def] at hle; rw [BitVec.lt_def] at hdue
  exact BitVec.eq_of_toNat_eq (by omega)

/-- So popping it only takes it out of the queue. -/
theorem Ordered.pop {s : State} {k : Fin 16} (h : Ordered s) (hk : headKind s = some k)
    (hdue : ¬ s.g < (s.slot k).t) : Ordered (pop k s) :=
  h.clear (fun j => pop_slot j k s) rfl (h.head_due hk hdue)

/-! What holds inside `Dispatch` too (R45 items 1, 3, 4, 6, 7). -/

/-- Of the invariants of R45, what every operation keeps: items 1, 3, 4, 6 and 7. -/
structure Sound (s : State) : Prop extends Ordered s where
  cpuActive : s.active.getLsbD 0 = true
  irqPended : (s.slot irqKind).v = true ↔ s.irqPending ≠ 0
  rootsBehind : RootsBehind s.g s.tmr

theorem Inv.sound {s : State} (h : Inv s) : Sound s :=
  ⟨⟨h.eventsAhead, h.seqBelow, h.seqDistinct⟩, h.cpuActive, h.irqPended, h.rootsBehind⟩

/-- Nothing else of the state matters to it. -/
theorem Sound.congr {s t : State} (h : Sound s) (hevt : t.evt = s.evt := by rfl)
    (hseq : t.seqNext = s.seqNext := by rfl) (hg : t.g = s.g := by rfl) (hact : t.active = s.active := by rfl)
    (hirq : t.irqPending = s.irqPending := by rfl) (htmr : t.tmr = s.tmr := by rfl) : Sound t := by
  refine ⟨h.toOrdered.wait hevt hseq (by rw [hg]; exact h.ahead), by rw [hact]; exact h.cpuActive, ?_, ?_⟩
  · rw [State.slot_of_evt hevt, hirq]; exact h.irqPended
  · rw [hg, htmr]; exact h.rootsBehind

/-- An operation on the queue has to keep items 3, 4 and 7. -/
theorem Sound.of_ordered {s t : State} (h : Sound s) (hg : t.g = s.g) (ha : t.active = s.active) (ht : t.tmr = s.tmr)
    (ho : Ordered t) (hirq : (t.slot irqKind).v = true ↔ t.irqPending ≠ 0) : Sound t :=
  ⟨ho, by rw [ha]; exact h.cpuActive, hirq, by rw [hg, ht]; exact h.rootsBehind⟩

/-- What leaves the delivery's slot and `IRQ_PENDING` alone keeps item 7. -/
theorem Sound.irqPended_of_eq {s t : State} (h : Sound s) (hs : t.slot irqKind = s.slot irqKind)
    (hp : t.irqPending = s.irqPending) : (t.slot irqKind).v = true ↔ t.irqPending ≠ 0 := by
  rw [hs, hp]; exact h.irqPended

/-! The queue operations. -/

theorem scheduleAt_slot (j k : Fin 16) (t : U64) (s : State) :
    (scheduleAt k t s).slot j = if j = k then { v := true, t := t, s := s.seqNext } else s.slot j := by
  rw [scheduleAt_eq]; exact slot_of_set rfl j

theorem remove_sound {s : State} (h : Sound s) {k : Fin 16} (hk : irqKind ≠ k) : Sound (remove k s) := by
  have hf := remove_frame k s
  refine h.of_ordered hf.g hf.active hf.tmr ?_ (h.irqPended_of_eq ?_ ?_)
  · exact h.toOrdered.clear (remove_slot k s) (by rw [remove_eq]) hf.g
  · rw [remove_slot, if_neg hk]
  · rw [remove_eq]

theorem scheduleAt_sound {s : State} (h : Sound s) {k : Fin 16} (hk : irqKind ≠ k) {x : U64} (hx : s.g ≤ x) :
    Sound (scheduleAt k x s) := by
  have hf := scheduleAt_frame k x s
  refine h.of_ordered hf.g hf.active hf.tmr ?_ (h.irqPended_of_eq ?_ ?_)
  · exact h.toOrdered.enqueue (fun j => scheduleAt_slot j k x s) (by rw [scheduleAt_eq]) hf.g hx
  · rw [scheduleAt_slot, if_neg hk]
  · rw [scheduleAt_eq]

theorem insert_seqNext (k : Fin 16) (t : U64) (s : State) :
    (insert k t s).seqNext = sat64 (s.seqNext.toNat + 1) := by rw [insert_eq]

theorem insert_ordered {s : State} (h : Ordered s) (k : Fin 16) {x : U64} (hx : s.g ≤ x) : Ordered (insert k x s) :=
  h.enqueue (fun j => insert_slot j k x s) (insert_seqNext k x s) (insert_frame k x s).g hx

theorem insert_sound {s : State} (h : Sound s) {k : Fin 16} (hk : irqKind ≠ k) {x : U64} (hx : s.g ≤ x) :
    Sound (insert k x s) := by
  have hf := insert_frame k x s
  refine h.of_ordered hf.g hf.active hf.tmr (insert_ordered h.toOrdered k hx) (h.irqPended_of_eq ?_ ?_)
  · rw [insert_slot, if_neg hk]
  · exact insert_irqPending k x s

/-- Raising a source sets the bits to deliver and has the delivery pending (60_exceptions.md R277). -/
theorem raiseSource_sound {s : State} (h : Sound s) (m : U16) : Sound (raiseSource m s) := by
  have hor : m ≠ 0 → s.irqPending ||| m ≠ 0 := fun hm h0 => hm (BitVec.or_eq_zero_iff.mp h0).2
  rcases raiseSource_cases m s with ⟨-, e⟩ | ⟨hm, hv, e⟩ | ⟨hm, -, e⟩ <;> rw [e]
  · exact h
  · exact h.of_ordered rfl rfl rfl ⟨h.ahead, h.seqBelow, h.seqDistinct⟩ (iff_of_true hv (hor hm))
  · have ho : Ordered { s with irqPending := s.irqPending ||| m } := ⟨h.ahead, h.seqBelow, h.seqDistinct⟩
    have hf := insert_frame irqKind (sat64 (s.g.toNat + s.params.irqDelay)) { s with irqPending := s.irqPending ||| m }
    refine h.of_ordered hf.g hf.active hf.tmr (insert_ordered ho _ (le_sat64_add _ _)) (iff_of_true ?_ ?_)
    · rw [insert_slot, if_pos rfl]
    · rw [insert_irqPending]; exact hor hm

/-! The timers. -/

theorem timerSyncAll_sound {s : State} (h : Sound s) : Sound (timerSyncAll s.g s) :=
  ⟨⟨h.ahead, h.seqBelow, h.seqDistinct⟩, h.cpuActive, h.irqPended, rootsBehind_syncBank h.rootsBehind⟩

/-- On a folded bank an event is never placed in the past. -/
theorem FoldedTo.le_of_wantsEvent {p : Params} {t : U64} {ts : TimerBank} (h : FoldedTo p t ts) {n : Fin 4}
    (hw : wantsEvent p ts n = true) : t ≤ nextOverflowTime p ts n :=
  h.le_nextOverflowTime ((wantsEvent_iff p ts n).mp hw).1

theorem rescheduleTimer_sound {s : State} (h : Sound s) (hfold : FoldedTo s.params s.g s.tmr) (n : Fin 4) :
    Sound (rescheduleTimer s n) := by
  unfold rescheduleTimer
  split
  · rename_i hw
    exact scheduleAt_sound h (timerKind_ne_irqKind n).symm (hfold.le_of_wantsEvent hw)
  · exact remove_sound h (timerKind_ne_irqKind n).symm

theorem timerReschedule_sound (l : List (Fin 4)) :
    ∀ {s : State}, Sound s → FoldedTo s.params s.g s.tmr → Sound (timerReschedule l s) := by
  induction l with
  | nil => exact fun h _ => h
  | cons n l ih =>
    intro s h hfold
    have hf := rescheduleTimer_frame s n
    exact ih (rescheduleTimer_sound h hfold n) (by rw [hf.params, hf.g, hf.tmr]; exact hfold)

theorem timerOverflowEvent_sound {s : State} (h : Sound s) (n : Fin 4) : Sound (timerOverflowEvent n s) := by
  have hsource := raiseSource_sound (timerSyncAll_sound h) (timerSource s.params n)
  have hf := raiseSource_frame (timerSource s.params n) (timerSyncAll s.g s)
  have hfold := syncBank_foldedTo (p := s.params) h.rootsBehind
  unfold timerOverflowEvent
  simp only
  split
  · rename_i hw
    refine insert_sound hsource (timerKind_ne_irqKind n).symm ?_
    rw [hf.params, hf.tmr] at hw
    rw [hf.g, hf.params, hf.tmr]
    exact hfold.le_of_wantsEvent hw
  · exact hsource

/-! The rounds of `Dispatch`. -/

theorem pop_sound {s : State} {k : Fin 16} (h : Sound s) (hk : headKind s = some k) (hdue : ¬ s.g < (s.slot k).t)
    (hirq : irqKind ≠ k) : Sound (pop k s) :=
  h.of_ordered (h.head_due hk hdue) rfl rfl (h.toOrdered.pop hk hdue)
    (h.irqPended_of_eq (by rw [pop_slot, if_neg hirq]) rfl)

/-- A delivery clears its event together with the bits delivered (60_exceptions.md R278). -/
theorem irqDeliver_pop_sound {s : State} (h : Sound s) (hk : headKind s = some irqKind)
    (hdue : ¬ s.g < (s.slot irqKind).t) : Sound (irqDeliver (pop irqKind s)) := by
  have hslot : ((irqDeliver (pop irqKind s)).slot irqKind).v = false := by
    change ((pop irqKind s).slot irqKind).v = false
    rw [pop_slot, if_pos rfl]
  have ho := h.toOrdered.pop hk hdue
  exact h.of_ordered (h.head_due hk hdue) rfl rfl ⟨ho.ahead, ho.seqBelow, ho.seqDistinct⟩
    (iff_of_false (by rw [hslot]; exact Bool.false_ne_true) (fun h0 => h0 rfl))

/-- An internal callback keeps all this, and the time. -/
theorem callback_sound {s s1 : State} {k : Fin 16} (h : Sound s) (hk : headKind s = some k)
    (hdue : ¬ s.g < (s.slot k).t) (hcb : internalCallback k (pop k s) = some s1) : Sound s1 ∧ s1.g = s.g := by
  rcases internalCallback_cases hcb with ⟨n, rfl, rfl⟩ | ⟨rfl, rfl⟩
  · have hpop := pop_sound h hk hdue (timerKind_ne_irqKind n).symm
    exact ⟨timerOverflowEvent_sound hpop n, (timerOverflowEvent_frame n _).g.trans (h.head_due hk hdue)⟩
  · exact ⟨irqDeliver_pop_sound h hk hdue, h.head_due hk hdue⟩

/-- So does the end of `Dispatch`. -/
theorem DispatchEnd.sound {cw : U16} {u t : State} (h : Sound u) (hend : DispatchEnd cw u t) : Sound t ∧ t.g = u.g := by
  rcases hend with ⟨-, rfl⟩ | ⟨k, -, -, rfl⟩ | ⟨k, hk, hdue, hext, rfl⟩
  · rw [raiseFault_emptyQueue_eq]
    exact ⟨h.congr, rfl⟩
  · exact ⟨h.congr, rfl⟩
  · have hirq : irqKind ≠ k := fun e => absurd hext (by rw [← e]; decide)
    have hpop := pop_sound h hk hdue hirq
    exact ⟨hpop.congr, h.head_due hk hdue⟩

end Sys2Proof.Machine

/-! SUPPORT. What a command can do to the state, said once for all commands: `exec_effect`. The invariants of 10_state.md
R45 and the frame of R46 are read off its cases. -/

namespace Sys2Proof.Machine

/-! Changes that leave the queue and the timers alone. -/

/-- From `s` to `t` the queue, the timers, the sequencer and the inputs rest: time may pass up to the first pending event,
and the cycles charged to a run, the ledgers, the stack above `Cpu`, the fault registers, `RESULT` and the outputs may
change. -/
structure Rests (s t : State) : Prop where
  frame : t = { s with g := t.g, runElapsed := t.runElapsed, suspendReq := t.suspendReq, active := t.active
                       ledger := t.ledger, faultStatus := t.faultStatus, faultCmd := t.faultCmd
                       result := t.result, trace := t.trace }
  le : s.g ≤ t.g
  head : ∀ k, (s.slot k).v = true → s.g ≤ (s.slot k).t → t.g ≤ (s.slot k).t
  elapsed : s.runElapsed ≤ t.runElapsed
  cpu : s.active.getLsbD 0 = true → t.active.getLsbD 0 = true

theorem Rests.phase {s t : State} (h : Rests s t) : t.phase = s.phase := by rw [h.frame]
theorem Rests.runBase {s t : State} (h : Rests s t) : t.runBase = s.runBase := by rw [h.frame]
theorem Rests.cbKind {s t : State} (h : Rests s t) : t.cbKind = s.cbKind := by rw [h.frame]
theorem Rests.evt {s t : State} (h : Rests s t) : t.evt = s.evt := by rw [h.frame]
theorem Rests.seqNext {s t : State} (h : Rests s t) : t.seqNext = s.seqNext := by rw [h.frame]
theorem Rests.tmr {s t : State} (h : Rests s t) : t.tmr = s.tmr := by rw [h.frame]
theorem Rests.irqPending {s t : State} (h : Rests s t) : t.irqPending = s.irqPending := by rw [h.frame]
theorem Rests.inbox {s t : State} (h : Rests s t) : t.inbox = s.inbox := by rw [h.frame]
theorem Rests.params {s t : State} (h : Rests s t) : t.params = s.params := by rw [h.frame]

theorem Rests.slot {s t : State} (h : Rests s t) (k : Fin 16) : t.slot k = s.slot k := State.slot_of_evt h.evt k

/-- Such a change with no time passing. -/
structure Quiet (s t : State) : Prop extends Rests s t where
  time : t.g = s.g

/-- A quiet change as a record; most leave the run and the stack alone too. -/
theorem Quiet.of_frame {s t : State}
    (h : t = { s with runElapsed := t.runElapsed, suspendReq := t.suspendReq, active := t.active, ledger := t.ledger
                      faultStatus := t.faultStatus, faultCmd := t.faultCmd, result := t.result, trace := t.trace })
    (helapsed : s.runElapsed ≤ t.runElapsed := by exact BitVec.le_refl _)
    (hcpu : s.active.getLsbD 0 = true → t.active.getLsbD 0 = true := by exact id) : Quiet s t := by
  have hg : t.g = s.g := by rw [h]
  exact ⟨⟨by rw [hg]; exact h, by rw [hg]; exact BitVec.le_refl _, fun k _ hk => by rw [hg]; exact hk, helapsed, hcpu⟩,
    hg⟩

theorem Quiet.refl (s : State) : Quiet s s := .of_frame rfl

theorem raiseFault_quiet {c : FaultCode} (hc : c ≠ .emptyQueue) (cw : U16) (s : State) :
    Quiet s (raiseFault c cw s) := by
  rw [raiseFault_eq hc]; exact .of_frame rfl

theorem illegalCommand_quiet (cw : U16) (s : State) : Quiet s (illegalCommand cw s) := by
  rw [illegalCommand_eq]; exact .of_frame rfl

theorem Rests.trans {s t u : State} (h1 : Rests s t) (h2 : Rests t u) : Rests s u := by
  refine ⟨?_, BitVec.le_trans h1.le h2.le, fun k hv hk => ?_, BitVec.le_trans h1.elapsed h2.elapsed,
    fun h => h2.cpu (h1.cpu h)⟩
  · rw [h2.frame, h1.frame]
  · have hslot := h1.slot k
    have := h2.head k (by rw [hslot]; exact hv) (by rw [hslot]; exact h1.head k hv hk)
    rwa [hslot] at this

/-! Time passes (41_run_loop.md R140, R147). -/

/-- Committing consumed cycles stops at the head. -/
theorem commitTime_rests (c : U64) (s : State) : Rests s { commitTime c s with suspendReq := false } := by
  refine ⟨rfl, le_maxU64_left _ _, fun k hv hk => ?_, BitVec.le_refl _, id⟩
  have hcap := (capAtHead_le s (sat64 (s.runBase.toNat + c.toNat))).2 k hv
  change maxU64 s.g (capAtHead s (sat64 (s.runBase.toNat + c.toNat))) ≤ (s.slot k).t
  rw [BitVec.le_def] at hk hcap ⊢
  rw [maxU64_toNat]
  omega

/-- A command's own rule starts with `RESULT` 0 and the time flushed. -/
theorem atEntry_rests (s : State) : Rests s (atEntry s) := by
  have hseen : s.g ≤ seenTime s ∧ ∀ k, (s.slot k).v = true → s.g ≤ (s.slot k).t → seenTime s ≤ (s.slot k).t := by
    unfold seenTime
    split
    · exact ⟨(commitTime_rests s.runElapsed s).le, (commitTime_rests s.runElapsed s).head⟩
    · exact ⟨BitVec.le_refl _, fun _ _ hk => hk⟩
  exact ⟨rfl, hseen.1, hseen.2, BitVec.le_refl _, id⟩

/-! What a command does. -/

/-- The two commands that write a timer (43_timer_cascade.md R200, R201). -/
def TimerWrite (i : Instr) : Prop := ∃ m v, i = .tmrWrReload m v ∨ i = .tmrWrControl m v

/-- What command `i` does from its entry state `s`, with `RESULT` 0 and the time flushed. -/
inductive Effect (i : Instr) (s : State) : State → Prop
  /-- The queue and the timers rest, and no time passes. -/
  | quiet {t : State} (h : Quiet s t) : Effect i s t
  /-- An external event is put into the queue, not in the past. -/
  | schedule (k : Fin 16) (x : U64) (hk : 5 ≤ k.val) (hx : s.g ≤ x) : Effect i s (scheduleAt k x s)
  /-- An external event is taken out. -/
  | cancel (k : Fin 16) (hk : 5 ≤ k.val) : Effect i s (remove k s)
  /-- Interrupt sources are raised. -/
  | raise (m : U16) : Effect i s (raiseSource m s)
  /-- The timers are folded to now, and one is read. -/
  | fold (r : U64) : Effect i s { timerSyncAll s.g s with result := r }
  /-- The timers are folded to now, timer `n` is written, and the events of the affected timers are brought up to date. -/
  | write (n : Fin 4) (x : Timer) (hi : TimerWrite i)
      (hx : FoldedTo s.params s.g (syncBank s.params s.g s.tmr) →
        FoldedTo s.params s.g ((syncBank s.params s.g s.tmr).set n x)) :
      Effect i s (timerReschedule (affected ((syncBank s.params s.g s.tmr).set n x) n)
        { s with tmr := (syncBank s.params s.g s.tmr).set n x })
  /-- Time passes, and `Dispatch` runs. -/
  | dispatch {u t : State} (cw : U16) (hi : entersDispatch i) (hu : Rests s u) (hd : dispatch cw u = .next t) :
      Effect i s t

/-! The commands' own rules. -/

theorem onExternalKind_effect {i : Instr} (j : Instr) (k : Fin 16) {body : State → State} {s : State}
    (hbody : 5 ≤ k.val → Effect i s (body s)) : Effect i s (onExternalKind j k body s) := by
  unfold onExternalKind
  split
  · exact .quiet (raiseFault_quiet (by decide) _ _)
  · rename_i hk
    have hext : ¬ k.val ≤ 4 := by simpa [isInternalKind] using hk
    exact hbody (by omega)

theorem onDriver_quiet (j : Instr) (d : Fin 8) {body : Driver → State → State} {s : State}
    (hbody : ∀ drv, Quiet s (body drv s)) : Quiet s (onDriver j d body s) := by
  unfold onDriver
  split
  · exact raiseFault_quiet (by decide) _ _
  · exact hbody _

theorem engageDriver_quiet (drv : Driver) (s : State) : Quiet s (engageDriver drv s) := by
  have hcpu : s.active.getLsbD 0 = true → (s.active ||| (1#5 <<< drv.code.val)).getLsbD 0 = true := by
    intro h; rw [BitVec.getLsbD_or, h, Bool.true_or]
  unfold engageDriver
  simp only
  split
  · exact .refl s
  · split <;> exact .of_frame rfl (hcpu := hcpu)

/-- Bit 0 of the stack is `Cpu`'s, and only the other drivers are taken off. -/
theorem disengageDriver_quiet {drv : Driver} (hdrv : drv ≠ .cpu) (s : State) : Quiet s (disengageDriver drv s) := by
  have hcpu : s.active.getLsbD 0 = true → (s.active &&& ~~~(1#5 <<< drv.code.val)).getLsbD 0 = true := by
    intro h
    have hmask : (~~~(1#5 <<< drv.code.val)).getLsbD 0 = true := by
      cases drv with
      | cpu => exact absurd rfl hdrv
      | dma0 | dma1 | dma2 | dma3 => rfl
    rw [BitVec.getLsbD_and, h, hmask, Bool.true_and]
  unfold disengageDriver
  simp only
  split
  · split <;> exact .of_frame rfl (hcpu := hcpu)
  · exact .refl s

/-- The first statement of `RUN_END` charges the run or records an under-report. -/
theorem settleRun_quiet (cw : U16) (c : U64) (s : State) : Quiet s (settleRun cw c s) := by
  unfold settleRun
  split
  · exact raiseFault_quiet (by decide) _ _
  · rename_i hlt
    rw [BitVec.lt_def] at hlt
    exact .of_frame rfl (BitVec.le_def.mpr (by simpa using hlt))

/-- Writing timer `n` of a folded bank keeps it folded if the timer as written is. -/
theorem FoldedTo.set {p : Params} {t : U64} {ts : TimerBank} (h : FoldedTo p t ts) (n : Fin 4) (x : Timer)
    (hx : (decide (n = 0) || !x.ctrl.cascade) = true → x.ctrl.en = true →
      x.tref ≤ t ∧ t.toNat < x.tref.toNat + prescaleOf p x.ctrl.ps) : FoldedTo p t (ts.set n x) := by
  intro r hr he
  by_cases hrn : r = n
  · subst hrn
    have hself : (ts.set r x)[r] = x := by simp
    rw [isRoot, hself] at hr
    rw [hself] at he
    rw [psOf, hself]
    exact hx hr he
  · have hother : (ts.set n x)[r] = ts[r] :=
      Vector.getElem_set_ne n.isLt r.isLt fun e => hrn (Fin.ext e.symm)
    rw [isRoot, hother] at hr
    rw [hother] at he
    rw [psOf, hother]
    exact h r hr he

/-- A reload write moves no anchor. -/
theorem FoldedTo.writeReload {p : Params} {t : U64} {ts : TimerBank} (h : FoldedTo p t ts) (n : Fin 4) (v : U16) :
    FoldedTo p t (ts.set n { ts[n] with reload := v }) :=
  h.set n _ fun hr he => h n hr he

/-- A control write anchors a root at now unless it was an enabled root with the same prescaler before (R198, R199). -/
theorem FoldedTo.writeCtrl {p : Params} {t : U64} {ts : TimerBank} (h : FoldedTo p t ts) (n : Fin 4) (w : U16) :
    FoldedTo p t (ts.set n (writeCtrl n w t ts[n])) := by
  have hnow : ∀ ps, t ≤ t ∧ t.toNat < t.toNat + prescaleOf p ps := fun ps =>
    ⟨BitVec.le_refl t, Nat.lt_add_of_pos_right (p.prescale[ps.toFin]).pos⟩
  refine h.set n _ ?_
  unfold Machine.writeCtrl
  simp only
  split
  · exact fun _ _ => hnow _
  · rename_i hoff
    split
    · exact fun _ _ => hnow _
    · rename_i hsame
      intro hr he
      have he' : (ctrlOfWord w).en = true := he
      have hr' : (decide (n = 0) || !(ctrlOfWord w).cascade) = true := hr
      have hen : ts[n].ctrl.en = true := by simpa [he'] using hoff
      have hold : ts[n].ctrl.ps = (ctrlOfWord w).ps ∧ isRoot ts n = true := by
        rw [he', hr'] at hsame
        simpa [isRoot, or_iff_not_imp_left] using hsame
      rw [← hold.1]
      exact h n hold.2 hen

/-! The common sequence of a command (30_encoding.md R87). -/

/-- A command faults with nothing else, or its own rule runs from the entry state. -/
theorem command_effect {i : Instr} {body : State → Answer} {s t : State} (he : command i body s = .next t)
    (hbody : body (atEntry s) = .next t → Effect i (atEntry s) t) : Quiet s t ∨ Effect i (atEntry s) t := by
  rcases command_cases i body s with ⟨-, e⟩ | ⟨-, -, e⟩ | ⟨-, -, e⟩ <;> rw [e] at he
  · exact absurd he (by simp)
  · exact .inr (hbody he)
  · obtain rfl := Host.Outcome.next.inj he
    rw [raiseFault_eq (by decide)]
    exact .inl (.of_frame rfl)

theorem plainCommand_effect {i : Instr} {body : State → State} {s t : State} (he : plainCommand i body s = .next t)
    (hbody : ∀ s0, Effect i s0 (body s0)) : Quiet s t ∨ Effect i (atEntry s) t :=
  command_effect he fun h => by
    obtain rfl := Host.Outcome.next.inj h
    exact hbody _

theorem fireTime_ge (delay : U64) (s : State) : s.g ≤ fireTime delay s := le_sat64_add _ _

theorem execRdStatus_effect {sel : Fin 16} {s t : State} (he : execRdStatus sel s = .next t) :
    Quiet s t ∨ Effect (.rdStatus sel) (atEntry s) t := by
  unfold execRdStatus at he
  split at he
  · exact plainCommand_effect he fun _ => .quiet (.of_frame rfl)
  · obtain rfl := Host.Outcome.next.inj he
    exact .inl (illegalCommand_quiet _ s)

/-- Everything a command can do. -/
theorem exec_effect {i : Instr} {s t : State} (he : exec i s = .next t) : Quiet s t ∨ Effect i (atEntry s) t := by
  unfold exec at he
  cases i with
  | schedule k delay =>
    exact plainCommand_effect he fun s0 =>
      onExternalKind_effect _ _ fun hk => .schedule k _ hk (fireTime_ge delay s0)
  | cancel k => exact plainCommand_effect he fun _ => onExternalKind_effect _ _ (.cancel k)
  | reschedule k delay =>
    refine plainCommand_effect he fun s0 => onExternalKind_effect _ _ fun hk => ?_
    split
    · exact .schedule k _ hk (fireTime_ge delay s0)
    · exact .quiet (.refl s0)
  | now => exact plainCommand_effect he fun _ => .quiet (.of_frame rfl)
  | engage d => exact plainCommand_effect he fun _ => .quiet (onDriver_quiet _ _ fun _ => engageDriver_quiet _ _)
  | disengage d =>
    refine plainCommand_effect he fun _ => .quiet (onDriver_quiet _ _ fun drv => ?_)
    split
    · exact raiseFault_quiet (by decide) _ _
    · rename_i hdrv
      exact disengageDriver_quiet hdrv _
  | charge d n =>
    refine plainCommand_effect he fun s0 => .quiet (onDriver_quiet _ _ fun drv => ?_)
    split
    · exact .of_frame rfl (le_sat64_add _ _)
    · exact raiseFault_quiet (by decide) _ _
  | runEnd c =>
    refine command_effect he fun hd => .dispatch _ (.inr (.inr ⟨c, rfl⟩)) ?_ hd
    exact (settleRun_quiet _ c _).toRests.trans (commitTime_rests _ _)
  | callbackDone =>
    exact command_effect he fun hd => .dispatch _ (.inr (.inl rfl)) (Quiet.refl _).toRests hd
  | tmrWrReload n v =>
    exact plainCommand_effect he fun s0 => .write n _ ⟨n, v, .inl rfl⟩ fun h => h.writeReload n v
  | tmrWrControl n w =>
    exact plainCommand_effect he fun s0 => .write n _ ⟨n, w, .inr rfl⟩ fun h => h.writeCtrl n w
  | tmrRdCounter n => exact plainCommand_effect he fun s0 => .fold _
  | tmrRdControl n => exact plainCommand_effect he fun _ => .quiet (.of_frame rfl)
  | tmrRdReload n => exact plainCommand_effect he fun _ => .quiet (.of_frame rfl)
  | tmrRdNextOvf n => exact plainCommand_effect he fun s0 => .fold _
  | raiseIrq m => exact plainCommand_effect he fun _ => .raise m
  | rdStatus sel => exact execRdStatus_effect he
  | rdLedger d => exact plainCommand_effect he fun _ => .quiet (onDriver_quiet _ _ fun _ => .of_frame rfl)
  | rdEventTime k => exact plainCommand_effect he fun _ => .quiet (.of_frame rfl)
  | rdEventSeq k => exact plainCommand_effect he fun _ => .quiet (.of_frame rfl)
  | clrFault => exact plainCommand_effect he fun _ => .quiet (.of_frame rfl)
  | start => exact command_effect he fun hd => .dispatch _ (.inl rfl) (Quiet.refl _).toRests hd

end Sys2Proof.Machine

/-! SUPPORT. The invariants of 10_state.md R45 along a command and a step: what of them each effect keeps, and for every
timer's event that it is kept with its chain or set anew as item 8 words it. -/

namespace Sys2Proof.Machine

/-! R46. -/

theorem DispatchEnd.params_inbox {cw : U16} {u t : State} (h : DispatchEnd cw u t) :
    t.params = u.params ∧ t.inbox = u.inbox := by
  rcases h with ⟨-, rfl⟩ | ⟨k, -, -, rfl⟩ | ⟨k, -, -, -, rfl⟩
  · rw [raiseFault_emptyQueue_eq]; exact ⟨rfl, rfl⟩
  · exact ⟨rfl, rfl⟩
  · exact ⟨rfl, rfl⟩

/-- A `Dispatch` that answers `t` is a chain of internal callbacks and one of the three ends. -/
theorem dispatch_next {cw : U16} {s t : State} (hd : dispatch cw s = .next t) :
    ∃ m u, Pops m { s with phase := .dispatch } u ∧ DispatchEnd cw u t := by
  obtain ⟨m, u, t', hpops, hend, e⟩ := dispatch_ends cw s
  obtain rfl : t' = t := by rw [e] at hd; exact Host.Outcome.next.inj hd
  exact ⟨m, u, hpops, hend⟩

theorem dispatch_params_inbox {cw : U16} {s t : State} (hd : dispatch cw s = .next t) :
    t.params = s.params ∧ t.inbox = s.inbox := by
  obtain ⟨m, u, hpops, hend⟩ := dispatch_next hd
  obtain ⟨hp, hi⟩ := hend.params_inbox
  exact ⟨hp.trans hpops.frame.params, hi.trans hpops.frame.inbox⟩

theorem QueueFrame.time_le {s t : State} (h : QueueFrame s t) : s.g ≤ t.g := by
  rw [h.g]; exact BitVec.le_refl _

theorem QueueFrame.params_inbox {s t : State} (h : QueueFrame s t) : t.params = s.params ∧ t.inbox = s.inbox :=
  ⟨h.params, h.inbox⟩

/-- No effect writes the parameters or takes an input (10_state.md R46). -/
theorem Effect.params_inbox {i : Instr} {s t : State} (h : Effect i s t) :
    t.params = s.params ∧ t.inbox = s.inbox := by
  cases h with
  | quiet h => exact ⟨h.params, h.inbox⟩
  | schedule k x => exact (scheduleAt_frame k x s).params_inbox
  | cancel k => exact (remove_frame k s).params_inbox
  | raise m => exact (raiseSource_frame m s).params_inbox
  | fold r => exact ⟨rfl, rfl⟩
  | write n x => exact (timerReschedule_frame _ _).params_inbox
  | dispatch cw _ hu hd =>
    obtain ⟨hp, hi⟩ := dispatch_params_inbox hd
    exact ⟨hp.trans hu.params, hi.trans hu.inbox⟩

theorem exec_params_inbox {i : Instr} {s t : State} (he : exec i s = .next t) :
    t.params = s.params ∧ t.inbox = s.inbox := by
  rcases exec_effect he with h | h
  · exact ⟨h.params, h.inbox⟩
  · exact h.params_inbox

/-! The sequencer (R21, R27, R45 items 5 and 9). -/

/-- Of the invariants, what the sequencer has to keep: R21, R27 and R45 items 5 and 9. -/
structure Phased (s : State) : Prop where
  stable : s.phase ≠ .dispatch
  runWindow : s.phase = .running → s.runBase ≤ s.g ∧ s.g ≤ sat64 (s.runBase.toNat + s.runElapsed.toNat)
  idleAtZero : s.phase = .idle → s.g = 0
  callbackExternal : s.phase = .callback → 5 ≤ s.cbKind.val

theorem Inv.phased {s : State} (h : Inv s) : Phased s :=
  ⟨h.phaseStable, h.runWindow, h.idleAtZero, h.callbackExternal⟩

/-- While the sequencer rests a run may only be charged more. -/
theorem Phased.keep {s t : State} (h : Phased s) (hphase : t.phase = s.phase) (hg : t.g = s.g)
    (hbase : t.runBase = s.runBase) (hcb : t.cbKind = s.cbKind) (hel : s.runElapsed ≤ t.runElapsed) : Phased t := by
  refine ⟨by rw [hphase]; exact h.stable, fun hr => ?_, ?_, ?_⟩
  · rw [hphase] at hr
    obtain ⟨hlo, hhi⟩ := h.runWindow hr
    rw [hbase, hg]
    exact ⟨hlo, BitVec.le_trans hhi (sat64_mono (Nat.add_le_add_left (BitVec.le_def.mp hel) _))⟩
  · rw [hphase, hg]; exact h.idleAtZero
  · rw [hphase, hcb]; exact h.callbackExternal

theorem Phased.frame {s t : State} (h : Phased s) (hf : QueueFrame s t) : Phased t :=
  h.keep hf.phase hf.g hf.runBase hf.cbKind (by rw [hf.runElapsed]; exact BitVec.le_refl _)

theorem Phased.quiet {s t : State} (h : Phased s) (hq : Quiet s t) : Phased t :=
  h.keep hq.phase hq.time hq.runBase hq.cbKind hq.elapsed

/-- The flush stays inside the run's window (41_run_loop.md R140). -/
theorem Phased.atEntry {s : State} (h : Phased s) : Phased (Machine.atEntry s) := by
  refine ⟨h.stable, fun hr => ?_, fun hi => ?_, h.callbackExternal⟩
  · have hr' : s.phase = .running := hr
    obtain ⟨hlo, hhi⟩ := h.runWindow hr'
    have hcap := (capAtHead_le s (sat64 (s.runBase.toNat + s.runElapsed.toNat))).1
    have hseen : (Machine.atEntry s).g =
        maxU64 s.g (capAtHead s (sat64 (s.runBase.toNat + s.runElapsed.toNat))) := if_pos hr'
    rw [hseen]
    refine ⟨BitVec.le_trans hlo (le_maxU64_left _ _), ?_⟩
    change maxU64 _ _ ≤ sat64 (s.runBase.toNat + s.runElapsed.toNat)
    rw [BitVec.le_def] at hhi hcap ⊢
    rw [maxU64_toNat]
    omega
  · have hi' : s.phase = .idle := hi
    have hseen : (Machine.atEntry s).g = s.g := if_neg (by rw [hi']; decide)
    rw [hseen]; exact h.idleAtZero hi'

/-- `Dispatch` ends halted, in a run that starts now, or in the callback of an external kind. -/
theorem DispatchEnd.phased {cw : U16} {u t : State} (h : DispatchEnd cw u t) : Phased t := by
  rcases h with ⟨-, rfl⟩ | ⟨k, -, -, rfl⟩ | ⟨k, -, -, hext, rfl⟩
  · rw [raiseFault_emptyQueue_eq]
    constructor <;> simp
  · exact ⟨by simp [grant, emit], fun _ => ⟨BitVec.le_refl u.g, le_sat64_add u.g 0⟩, by simp [grant, emit],
      by simp [grant, emit]⟩
  · exact ⟨by simp [fireExternal, emit], by simp [fireExternal, emit], by simp [fireExternal, emit], fun _ => hext⟩

/-! A timer's event (R45 item 8). -/

/-- 10_state.md R45 item 8, word for word, of timer `n`. -/
def EventAsWorded (s : State) (n : Fin 4) : Prop :=
  ((s.slot (timerKind n)).v = true ↔ ToHaveEvent s.params s.tmr n) ∧
  ((s.slot (timerKind n)).v = true → (s.slot (timerKind n)).t = nextOverflowTime s.params s.tmr n)

theorem timerEventAsWorded_iff (s : State) : TimerEventAsWorded s ↔ ∀ n, EventAsWorded s n :=
  forall_and.symm

theorem EventAsWorded.congr {s t : State} {n : Fin 4} (h : EventAsWorded s n)
    (hs : t.slot (timerKind n) = s.slot (timerKind n)) (hp : t.params = s.params) (ht : t.tmr = s.tmr) :
    EventAsWorded t n := by
  unfold EventAsWorded; rw [hs, hp, ht]; exact h

/-- From `s` to `t` timer `n` keeps its event, and its chain is as it was or folded to the new time. -/
structure EventKept (s t : State) (n : Fin 4) : Prop where
  slot : t.slot (timerKind n) = s.slot (timerKind n)
  chain : ChainAgree s.tmr t.tmr n.val n.isLt ∨ ChainAgree (syncBank s.params t.g s.tmr) t.tmr n.val n.isLt

theorem EventKept.of_eq {s t : State} {n : Fin 4} (hs : t.slot (timerKind n) = s.slot (timerKind n))
    (ht : t.tmr = s.tmr) : EventKept s t n :=
  ⟨hs, .inl (by rw [ht]; exact ChainAgree.refl _ _ _)⟩

theorem timerKind_ne_external (n : Fin 4) {k : Fin 16} (hk : 5 ≤ k.val) : timerKind n ≠ k := by
  intro e
  rw [← e] at hk
  have := n.isLt
  simp only [timerKind, Fin.val_castLE] at hk
  omega

/-- The overflow callback leaves the timer's event as item 8 words it, on the timers folded to now (R206). -/
theorem timerOverflowEvent_asWorded {n : Fin 4} {s : State} (hv : (s.slot (timerKind n)).v = false) :
    EventAsWorded (timerOverflowEvent n s) n := by
  have hf := raiseSource_frame (timerSource s.params n) (timerSyncAll s.g s)
  have hold : ((raiseSource (timerSource s.params n) (timerSyncAll s.g s)).slot (timerKind n)).v = false := by
    rw [raiseSource_slot_ne (timerKind_ne_irqKind n)]; exact hv
  unfold timerOverflowEvent EventAsWorded
  simp only
  split
  · rename_i hw
    rw [insert_slot, if_pos rfl, (insert_frame _ _ _).params, (insert_frame _ _ _).tmr]
    exact ⟨iff_of_true rfl ((wantsEvent_iff _ _ _).mp hw), fun _ => rfl⟩
  · rename_i hw
    rw [← wantsEvent_iff]
    exact ⟨by rw [hold]; exact iff_of_false Bool.false_ne_true hw, fun h => absurd h (by rw [hold]; decide)⟩

/-- What the rounds of `Dispatch` keep from its entry `s` on: time stands still, the timers are as they were or folded to
now, and a timer's event is untouched or was due and has been set anew. -/
structure Rounds (s u : State) : Prop where
  sound : Sound u
  time : u.g = s.g
  params : u.params = s.params
  bank : u.tmr = s.tmr ∨ u.tmr = syncBank s.params s.g s.tmr
  events : ∀ n, u.slot (timerKind n) = s.slot (timerKind n) ∨
    ((s.slot (timerKind n)).v = true ∧ (s.slot (timerKind n)).t = s.g ∧ u.tmr = syncBank s.params s.g s.tmr ∧
      EventAsWorded u n)

/-- One more internal callback. -/
theorem Rounds.callback {s u u1 : State} {k : Fin 16} (h : Rounds s u) (hs : RootsBehind s.g s.tmr)
    (hk : headKind u = some k) (hdue : ¬ u.g < (u.slot k).t) (hcb : internalCallback k (pop k u) = some u1) :
    Rounds s u1 := by
  obtain ⟨hsound, htime⟩ := callback_sound h.sound hk hdue hcb
  have hparams : u1.params = s.params := (callback_popFrame hcb).params.trans h.params
  rcases internalCallback_cases hcb with ⟨m, rfl, rfl⟩ | ⟨rfl, rfl⟩
  · have hnow : (u.slot (timerKind m)).t = u.g := h.sound.head_due hk hdue
    have hfold : (timerOverflowEvent m (pop (timerKind m) u)).tmr = syncBank s.params s.g s.tmr := by
      have htmr : (timerOverflowEvent m (pop (timerKind m) u)).tmr =
          syncBank u.params (u.slot (timerKind m)).t u.tmr := (timerOverflowEvent_frame m _).tmr
      rw [htmr, hnow, h.time, h.params]
      rcases h.bank with e | e <;> rw [e]
      exact syncBank_syncBank hs (BitVec.le_refl _)
    refine ⟨hsound, htime.trans h.time, hparams, .inr hfold, fun n => ?_⟩
    by_cases hn : n = m
    · subst hn
      have hworded := timerOverflowEvent_asWorded (n := n) (s := pop (timerKind n) u) (by rw [pop_slot, if_pos rfl])
      rcases h.events n with e | ⟨hv, ht, -⟩
      · exact .inr ⟨by rw [← e]; exact (headKind_spec hk).1, by rw [← e, hnow, h.time], hfold, hworded⟩
      · exact .inr ⟨hv, ht, hfold, hworded⟩
    · have hslot : (timerOverflowEvent m (pop (timerKind m) u)).slot (timerKind n) = u.slot (timerKind n) := by
        have hne : timerKind n ≠ timerKind m := fun e => hn (timerKind_inj e)
        rw [timerOverflowEvent_slot_ne hne (timerKind_ne_irqKind n), pop_slot, if_neg hne]
      rcases h.events n with e | ⟨hv, ht, hbank, hworded⟩
      · exact .inl (hslot.trans e)
      · exact .inr ⟨hv, ht, hfold, hworded.congr hslot (hparams.trans h.params.symm) (hfold.trans hbank.symm)⟩
  · have hslot : ∀ n, (irqDeliver (pop irqKind u)).slot (timerKind n) = u.slot (timerKind n) := fun n => by
      change (pop irqKind u).slot (timerKind n) = _
      rw [pop_slot, if_neg (timerKind_ne_irqKind n)]
    refine ⟨hsound, htime.trans h.time, hparams, h.bank, fun n => ?_⟩
    rw [hslot n]
    exact (h.events n).imp_right fun ⟨hv, ht, hbank, hworded⟩ =>
      ⟨hv, ht, hbank, hworded.congr (hslot n) rfl rfl⟩

/-- No end of `Dispatch` touches the timers, the parameters or a timer's event. -/
theorem DispatchEnd.timers {cw : U16} {u t : State} (h : DispatchEnd cw u t) :
    t.tmr = u.tmr ∧ t.params = u.params ∧ ∀ n, t.slot (timerKind n) = u.slot (timerKind n) := by
  refine ⟨?_, h.params_inbox.1, ?_⟩ <;> rcases h with ⟨-, rfl⟩ | ⟨k, -, -, rfl⟩ | ⟨k, -, -, hext, rfl⟩
  · rw [raiseFault_emptyQueue_eq]
  · rfl
  · rfl
  · rw [raiseFault_emptyQueue_eq]; exact fun _ => rfl
  · exact fun _ => rfl
  · exact fun n => (pop_slot (timerKind n) k u).trans (if_neg (timerKind_ne_external n hext))

/-- The whole of `Dispatch`: its rounds and its end. -/
theorem dispatch_rounds {cw : U16} {s t : State} (h : Sound s) (hd : dispatch cw s = .next t) :
    Rounds s t ∧ Phased t := by
  obtain ⟨m, u, hpops, hend⟩ := dispatch_next hd
  have hu : Rounds s u := hpops.keeps (P := Rounds s)
    (fun _ _ _ hv hk hdue hcb => hv.callback h.rootsBehind hk hdue hcb)
    ⟨h.congr, rfl, rfl, .inl rfl, fun _ => .inl rfl⟩
  obtain ⟨hsound, htime⟩ := hend.sound hu.sound
  obtain ⟨htmr, hparams, hslot⟩ := hend.timers
  refine ⟨⟨hsound, htime.trans hu.time, hparams.trans hu.params, by rw [htmr]; exact hu.bank, fun n => ?_⟩, hend.phased⟩
  rw [hslot, htmr]
  exact (hu.events n).imp_right fun ⟨hv, ht, hbank, hworded⟩ =>
    ⟨hv, ht, hbank, hworded.congr (hslot n) hparams htmr⟩

/-! Every effect. -/

theorem Rests.sound {s t : State} (hr : Rests s t) (h : Sound s) : Sound t := by
  refine ⟨h.toOrdered.wait hr.evt hr.seqNext fun k hv => hr.head k hv (h.ahead k hv), hr.cpu h.cpuActive, ?_, ?_⟩
  · rw [hr.slot, hr.irqPending]; exact h.irqPended
  · rw [hr.tmr]; exact fun r hroot he => BitVec.le_trans (h.rootsBehind r hroot he) hr.le

theorem external_ne_irqKind {k : Fin 16} (hk : 5 ≤ k.val) : irqKind ≠ k := fun e => by
  rw [← e] at hk; exact absurd hk (by decide)

/-- The state a timer write reschedules from is sound and folded. -/
theorem written_sound {s : State} (h : Sound s) {n : Fin 4} {x : Timer}
    (hx : FoldedTo s.params s.g ((syncBank s.params s.g s.tmr).set n x)) :
    Sound { s with tmr := (syncBank s.params s.g s.tmr).set n x } :=
  ⟨⟨h.ahead, h.seqBelow, h.seqDistinct⟩, h.cpuActive, h.irqPended, hx.rootsBehind⟩

theorem Effect.sound {i : Instr} {s t : State} (he : Effect i s t) (h : Sound s) : Sound t := by
  cases he with
  | quiet hq => exact hq.toRests.sound h
  | schedule k x hk hx => exact scheduleAt_sound h (external_ne_irqKind hk) hx
  | cancel k hk => exact remove_sound h (external_ne_irqKind hk)
  | raise m => exact raiseSource_sound h m
  | fold r => exact (timerSyncAll_sound h).congr
  | write n x _ hx =>
    have hfold := hx (syncBank_foldedTo h.rootsBehind)
    exact timerReschedule_sound _ (written_sound h hfold) hfold
  | dispatch cw _ hu hd => exact (dispatch_rounds (hu.sound h) hd).1.sound

theorem Effect.phased {i : Instr} {s t : State} (he : Effect i s t) (hs : Sound s) (h : Phased s) : Phased t := by
  cases he with
  | quiet hq => exact h.quiet hq
  | schedule k x => exact h.frame (scheduleAt_frame k x s)
  | cancel k => exact h.frame (remove_frame k s)
  | raise m => exact h.frame (raiseSource_frame m s)
  | fold r => exact ⟨h.stable, h.runWindow, h.idleAtZero, h.callbackExternal⟩
  | write n x =>
    have hw : Phased { s with tmr := (syncBank s.params s.g s.tmr).set n x } :=
      ⟨h.stable, h.runWindow, h.idleAtZero, h.callbackExternal⟩
    exact hw.frame (timerReschedule_frame _ _)
  | dispatch cw _ hu hd => exact (dispatch_rounds (hu.sound hs) hd).2

/-- No effect takes time back. -/
theorem Effect.time_le {i : Instr} {s t : State} (he : Effect i s t) (h : Sound s) : s.g ≤ t.g := by
  cases he with
  | quiet hq => exact hq.le
  | schedule k x => exact (scheduleAt_frame k x s).time_le
  | cancel k => exact (remove_frame k s).time_le
  | raise m => exact (raiseSource_frame m s).time_le
  | fold r => exact BitVec.le_refl _
  | write n x => exact (timerReschedule_frame _ { s with tmr := (syncBank s.params s.g s.tmr).set n x }).time_le
  | dispatch cw _ hu hd => exact by rw [(dispatch_rounds (hu.sound h) hd).1.time]; exact hu.le

/-- `TimerReschedule` leaves an affected timer's event as item 8 words it, and any other timer's event and chain alone
(43_timer_cascade.md R196, R197). -/
theorem timerReschedule_events (s : State) (n : Fin 4) (x : Timer) (m : Fin 4) :
    let t := timerReschedule (affected (s.tmr.set n x) n) { s with tmr := s.tmr.set n x }
    EventAsWorded t m ∨
      (t.slot (timerKind m) = s.slot (timerKind m) ∧ ChainAgree s.tmr t.tmr m.val m.isLt) := by
  have h := timerReschedule_spec (affected (s.tmr.set n x) n) { s with tmr := s.tmr.set n x } (affected_sorted _ n)
  simp only
  generalize timerReschedule _ _ = t at *
  by_cases hm : m ∈ affected (s.tmr.set n x) n
  · left
    unfold EventAsWorded
    rw [h.frame.params, h.frame.tmr, ← wantsEvent_iff]
    cases hw : wantsEvent s.params (s.tmr.set n x) m
    · rw [h.removed m hm hw]
      exact ⟨Iff.rfl, fun hv => absurd hv Bool.false_ne_true⟩
    · rw [h.scheduled m hm hw]
      exact ⟨Iff.rfl, fun _ => rfl⟩
  · right
    refine ⟨h.others _ fun j hj e => hm (by rw [timerKind_inj e]; exact hj), ?_⟩
    rw [h.frame.tmr]
    exact chainAgree_set_of_not_affected s.tmr n x m.val m.isLt fun hin => hm ((mem_affected _ n m).mpr hin)

/-- What may set a timer's event: a timer write, or `Dispatch` where the event was due. -/
def SetsEvent (i : Instr) (s t : State) (n : Fin 4) : Prop :=
  TimerWrite i ∨ (entersDispatch i ∧ (s.slot (timerKind n)).v = true ∧ (s.slot (timerKind n)).t = t.g)

/-- Every effect keeps a timer's event with its chain, or sets it as item 8 words it. -/
theorem Effect.event {i : Instr} {s t : State} (he : Effect i s t) (h : Sound s) (n : Fin 4) :
    EventKept s t n ∨ (SetsEvent i s t n ∧ EventAsWorded t n) := by
  cases he with
  | quiet hq => exact .inl (.of_eq (hq.slot _) hq.tmr)
  | schedule k x hk =>
    exact .inl (.of_eq (by rw [scheduleAt_slot, if_neg (timerKind_ne_external n hk)]) (scheduleAt_frame k x s).tmr)
  | cancel k hk =>
    exact .inl (.of_eq (by rw [remove_slot, if_neg (timerKind_ne_external n hk)]) (remove_frame k s).tmr)
  | raise m =>
    exact .inl (.of_eq (raiseSource_slot_ne (timerKind_ne_irqKind n) m s) (raiseSource_frame m s).tmr)
  | fold r => exact .inl ⟨rfl, .inr (ChainAgree.refl _ _ _)⟩
  | write m x hi =>
    rcases timerReschedule_events (timerSyncAll s.g s) m x n with hworded | ⟨hslot, hchain⟩
    · exact .inr ⟨.inl hi, hworded⟩
    · refine .inl ⟨hslot, .inr ?_⟩
      rw [(timerReschedule_frame _ _).g]
      exact hchain
  | dispatch cw hi hu hd =>
    have hr := (dispatch_rounds (hu.sound h) hd).1
    rcases hr.events n with hslot | ⟨hv, ht, -, hworded⟩
    · refine .inl ⟨hslot.trans (hu.slot _), ?_⟩
      have hbank := hr.bank
      rw [hu.params, hu.tmr, ← hr.time] at hbank
      exact hbank.imp (fun e => by rw [e]; exact ChainAgree.refl _ _ _) (fun e => by rw [e]; exact ChainAgree.refl _ _ _)
    · rw [hu.slot] at hv ht
      exact .inr ⟨.inr ⟨hi, hv, ht.trans hr.time.symm⟩, hworded⟩

/-! Every command. -/

/-- What every command keeps from a sound state: all but item 8. -/
theorem exec_keeps {i : Instr} {s t : State} (hs : Sound s) (hp : Phased s) (he : exec i s = .next t) :
    Sound t ∧ Phased t ∧ s.g ≤ t.g := by
  have hs0 := (atEntry_rests s).sound hs
  rcases exec_effect he with h | h
  · exact ⟨h.toRests.sound hs, hp.quiet h, h.le⟩
  · exact ⟨h.sound hs0, h.phased hs0 hp.atEntry, BitVec.le_trans (atEntry_rests s).le (h.time_le hs0)⟩

/-- Every command keeps a timer's event with its chain, or sets it as item 8 words it. -/
theorem exec_event {i : Instr} {s t : State} (hs : Sound s) (he : exec i s = .next t) (n : Fin 4) :
    EventKept s t n ∨ (SetsEvent i s t n ∧ EventAsWorded t n) := by
  rcases exec_effect he with h | h
  · exact .inl (.of_eq (h.slot _) h.tmr)
  · refine (h.event ((atEntry_rests s).sound hs) n).imp_left fun hk => ⟨hk.slot, hk.chain⟩

end Sys2Proof.Machine

/-! The invariants of 10_state.md R45 at reset and under every step, and what becomes of item 8. -/

namespace Sys2Proof.Machine

/-! Reset (R49, R300). -/

/-- `s` is as after reset but for the model's own fields and the parameters: the machine right after reset, or after the
reset input. -/
def AsReset (s : State) : Prop :=
  s = { State.reset with trace := s.trace, inbox := s.inbox, params := s.params, freeCtr := s.freeCtr }

theorem AsReset.slot {s : State} (h : AsReset s) (k : Fin 16) : s.slot k = Slot.reset := by
  rw [h]; simp [State.slot, State.reset]

theorem AsReset.timer {s : State} (h : AsReset s) (n : Fin 4) : s.timer n = Timer.reset := by
  rw [h]; simp [State.timer, State.reset]

theorem AsReset.counting {s : State} (h : AsReset s) : ∀ n, counting s.tmr n = false := by
  rw [h]
  change ∀ n, Machine.counting State.reset.tmr n = false
  decide

theorem AsReset.sound {s : State} (h : AsReset s) : Sound s := by
  have hv : ∀ k, (s.slot k).v ≠ true := fun k => by rw [h.slot k]; exact Bool.false_ne_true
  have hirq : s.irqPending = 0 := by rw [h]; rfl
  refine ⟨⟨fun k hk => absurd hk (hv k), fun _ k hk => absurd hk (hv k), fun _ j _ hj => absurd hj (hv j)⟩, ?_,
    iff_of_false (hv _) (fun h0 => h0 hirq), fun r _ he => ?_⟩
  · rw [h]
    change State.reset.active.getLsbD 0 = true
    decide
  · have hr : s.tmr[r] = Timer.reset := h.timer r
    rw [hr] at he
    exact absurd he Bool.false_ne_true

theorem AsReset.phased {s : State} (h : AsReset s) : Phased s := by
  rw [h]
  exact ⟨by simp [State.reset], by simp [State.reset], fun _ => rfl, by simp [State.reset]⟩

theorem AsReset.asWorded {s : State} (h : AsReset s) (n : Fin 4) : EventAsWorded s n := by
  have hv : (s.slot (timerKind n)).v ≠ true := by rw [h.slot]; exact Bool.false_ne_true
  refine ⟨iff_of_false hv fun hw => ?_, fun hk => absurd hk hv⟩
  have hc := hw.1
  rw [h.counting n] at hc
  exact absurd hc Bool.false_ne_true

/-! One step. -/

/-- From `s` to `t` timer `n` keeps its event with its chain while time moves on, or item 8 holds of it word for word. -/
def EventStep (s t : State) (n : Fin 4) : Prop :=
  (EventKept s t n ∧ s.g ≤ t.g ∧ t.params = s.params) ∨ EventAsWorded t n

theorem Phased.takeCommand {s : State} (h : Phased s) (rest : List Input) : Phased (Machine.takeCommand rest s) :=
  ⟨h.stable, h.runWindow, h.idleAtZero, h.callbackExternal⟩

/-- What every step keeps from a state of the invariant: all but item 8, and what it does to each timer's event. -/
theorem step_keeps {s t : State} (h : Inv s) (he : step s = .next t) :
    Sound t ∧ Phased t ∧ ∀ n, EventStep s t n := by
  have hsound := h.sound
  have hphased := h.phased
  rcases step_cases s with ⟨-, e⟩ | ⟨rest, -, e⟩ | ⟨c, rest, i, -, -, e⟩ | ⟨c, rest, err, -, -, e⟩ <;> rw [e] at he
  · obtain rfl := Host.Outcome.next.inj he
    exact ⟨hsound, hphased, fun n => .inl ⟨.of_eq rfl rfl, BitVec.le_refl _, rfl⟩⟩
  · obtain rfl := Host.Outcome.next.inj he
    have hreset : AsReset (takeReset rest s) := rfl
    exact ⟨hreset.sound, hreset.phased, fun n => .inr (hreset.asWorded n)⟩
  · obtain ⟨hst, hpt, hg⟩ := exec_keeps hsound.congr (hphased.takeCommand rest) he
    exact ⟨hst, hpt, fun n => (exec_event hsound.congr he n).imp
      (fun hk => ⟨⟨hk.slot, hk.chain⟩, hg, (exec_params_inbox he).1⟩) (fun hset => hset.2)⟩
  · obtain rfl := Host.Outcome.next.inj he
    have hq := illegalCommand_quiet c.cw (takeCommand rest s)
    exact ⟨hq.toRests.sound hsound.congr, (hphased.takeCommand rest).quiet hq,
      fun n => .inl ⟨.of_eq (hq.slot _) hq.tmr, hq.le, hq.params⟩⟩

/-! A kept event (R45 item 8 of the timers as they stand). -/

theorem EventKept.counting {s t : State} {n : Fin 4} (h : EventKept s t n) :
    Machine.counting t.tmr n = Machine.counting s.tmr n := by
  rcases h.chain with e | e
  · exact e.counting
  · exact e.counting.trans (counting_syncBank _ _ _ _)

theorem EventKept.irqen {s t : State} {n : Fin 4} (h : EventKept s t n) :
    (t.timer n).ctrl.irqen = (s.timer n).ctrl.irqen := by
  unfold State.timer
  rcases h.chain with e | e
  · have hself : t.tmr[n] = s.tmr[n] := e.self
    rw [hself]
  · have hself : t.tmr[n] = (syncBank s.params t.g s.tmr)[n] := e.self
    rw [hself, syncBank_ctrl_fin]

theorem EventKept.period {s t : State} {n : Fin 4} (h : EventKept s t n) :
    Machine.period s.params t.tmr n = Machine.period s.params s.tmr n := by
  rcases h.chain with e | e
  · exact e.period _
  · exact (e.period _).trans (period_syncBank _ _ _ _)

theorem RootsBehind.mono {t u : U64} {ts : TimerBank} (h : RootsBehind t ts) (htu : t ≤ u) : RootsBehind u ts :=
  fun r hr he => BitVec.le_trans (h r hr he) htu

/-- A timer that is to have an event after a fold was to have one before. -/
theorem toHaveEvent_of_fold {p : Params} {t : U64} {ts : TimerBank} (hb : RootsBehind t ts) {n : Fin 4}
    (h : ToHaveEvent p (syncBank p t ts) n) : ToHaveEvent p ts n := by
  obtain ⟨hc, hirq, hlt⟩ := h
  rw [counting_syncBank] at hc
  rw [syncBank_ctrl_fin] at hirq
  have hle := nextOverflowTime_le_fold (p := p) hb hc
  rw [BitVec.le_def] at hle
  rw [BitVec.lt_def] at hlt
  exact ⟨hc, hirq, BitVec.lt_def.mpr (Nat.lt_of_le_of_lt hle hlt)⟩

theorem EventKept.toHaveEvent {s t : State} {n : Fin 4} (h : EventKept s t n) (hb : RootsBehind t.g s.tmr)
    (hp : t.params = s.params) (hw : ToHaveEvent t.params t.tmr n) : ToHaveEvent s.params s.tmr n := by
  rw [hp] at hw
  rcases h.chain with e | e
  · exact (e.toHaveEvent _).mp hw
  · exact toHaveEvent_of_fold hb ((e.toHaveEvent _).mp hw)

/-- What of item 8 is in the invariant, after a step. -/
theorem EventStep.wanted {s t : State} {n : Fin 4} (h : EventStep s t n) (hinv : Inv s)
    (hv : (t.slot (timerKind n)).v = true) :
    counting t.tmr n = true ∧ (t.timer n).ctrl.irqen = true ∧ (t.slot (timerKind n)).t < max64 := by
  rcases h with ⟨hk, -, -⟩ | ⟨hiff, htime⟩
  · rw [hk.slot] at hv ⊢
    rw [hk.counting, hk.irqen]
    exact hinv.timerEventWanted n hv
  · obtain ⟨hc, hirq, hlt⟩ := hiff.mp hv
    exact ⟨hc, hirq, by rw [htime hv]; exact hlt⟩

theorem EventStep.present {s t : State} {n : Fin 4} (h : EventStep s t n) (hinv : Inv s)
    (hw : wantsEvent t.params t.tmr n = true) : (t.slot (timerKind n)).v = true := by
  rw [wantsEvent_iff] at hw
  rcases h with ⟨hk, hg, hp⟩ | ⟨hiff, -⟩
  · rw [hk.slot]
    refine hinv.timerEventPresent n ((wantsEvent_iff _ _ _).mpr (hk.toHaveEvent ?_ hp hw))
    exact RootsBehind.mono hinv.rootsBehind hg
  · exact hiff.mpr hw

theorem Inv.of_parts {t : State} (hs : Sound t) (hp : Phased t)
    (hwanted : ∀ n, (t.slot (timerKind n)).v = true →
      Machine.counting t.tmr n = true ∧ (t.timer n).ctrl.irqen = true ∧ (t.slot (timerKind n)).t < max64)
    (hpresent : ∀ n, wantsEvent t.params t.tmr n = true → (t.slot (timerKind n)).v = true) : Inv t where
  phaseStable := hp.stable
  cpuActive := hs.cpuActive
  eventsAhead := hs.ahead
  seqBelow := hs.seqBelow
  seqDistinct := hs.seqDistinct
  runWindow := hp.runWindow
  rootsBehind := hs.rootsBehind
  irqPended := hs.irqPended
  timerEventWanted := hwanted
  timerEventPresent := hpresent
  idleAtZero := hp.idleAtZero
  callbackExternal := hp.callbackExternal

/-- Settles O54: every effect of a command keeps the parts of the invariant, and a kept event stays wanted. -/
theorem everyStepKeepsInv : Obligations.EveryStepKeepsInv := by
  unfold Obligations.EveryStepKeepsInv
  intro s t hinv he
  obtain ⟨hs, hp, hevents⟩ := step_keeps hinv he
  exact .of_parts hs hp (fun n => (hevents n).wanted hinv) (fun n => (hevents n).present hinv)

/-! The event's time. -/

/-- A fold that stays at or before a timer's event, which is before the horizon: at the event's time it moves the next
overflow by a period, before it does nothing. -/
theorem nextOverflowTime_fold {p : Params} {t : U64} {ts : TimerBank} (hb : RootsBehind t ts) {n : Fin 4}
    (hc : counting ts n = true) (hle : t ≤ nextOverflowTime p ts n) (hmax : nextOverflowTime p ts n < max64) :
    nextOverflowTime p (syncBank p t ts) n = nextOverflowTime p ts n ∨
      (nextOverflowTime p ts n = t ∧
        nextOverflowTime p (syncBank p t ts) n = sat64 (t.toNat + period p ts n)) := by
  have hnat : (nextOverflowTime p ts n).toNat = overflowFrom p ts n.val n.isLt (ticksLeft ts n) := by
    rw [BitVec.lt_def, max64_toNat] at hmax
    rw [nextOverflowTime, sat64_toNat] at hmax ⊢
    omega
  rw [BitVec.le_def, hnat] at hle
  rcases Nat.lt_or_eq_of_le hle with hlt | heq
  · exact .inl (nextOverflowTime_fold_before hb hc hlt)
  · exact .inr ⟨BitVec.eq_of_toNat_eq (hnat.trans heq.symm), nextOverflowTime_fold_at hb hc heq⟩

/-- A fold to a time whose next overflow is one period ahead leaves it there. -/
theorem nextOverflowTime_fold_ahead {p : Params} {t : U64} {ts : TimerBank} (hb : RootsBehind t ts) {n : Fin 4}
    (hc : counting ts n = true) (ht : t < max64) (hnext : nextOverflowTime p ts n = sat64 (t.toNat + period p ts n)) :
    nextOverflowTime p (syncBank p t ts) n = nextOverflowTime p ts n := by
  refine nextOverflowTime_fold_before hb hc ?_
  have hpos := period_pos p ts n
  have hnat := congrArg BitVec.toNat hnext
  rw [nextOverflowTime, sat64_toNat, sat64_toNat] at hnat
  rw [BitVec.lt_def, max64_toNat] at ht
  omega

/-- A kept event is at the next overflow or due after the step, if it was before. -/
theorem EventKept.atNextOverflowOrDue {s t : State} {n : Fin 4} (hk : EventKept s t n) (hg : s.g ≤ t.g)
    (hp : t.params = s.params) (hinv : Inv s) (hold : TimerEventAtNextOverflowOrDue s) (ht : Ordered t)
    (hv : (t.slot (timerKind n)).v = true) :
    (t.slot (timerKind n)).t = nextOverflowTime t.params t.tmr n ∨
      ((t.slot (timerKind n)).t = t.g ∧
        nextOverflowTime t.params t.tmr n = sat64 (t.g.toNat + Machine.period t.params t.tmr n)) := by
  have hahead := ht.ahead _ hv
  have hb : RootsBehind t.g s.tmr := RootsBehind.mono hinv.rootsBehind hg
  rw [hk.slot] at hahead hv ⊢
  rw [hp, hk.period]
  obtain ⟨hc, -, hmax⟩ := hinv.timerEventWanted n hv
  rcases hold n hv with hnext | ⟨hdue, hnext⟩
  · rw [hnext] at hahead hmax ⊢
    rcases hk.chain with e | e <;> rw [e.nextOverflowTime]
    · exact .inl rfl
    · exact (nextOverflowTime_fold hb hc hahead hmax).imp_left Eq.symm
  · have hnow : t.g = s.g := by
      rw [hdue] at hahead
      rw [BitVec.le_def] at hg hahead
      exact BitVec.eq_of_toNat_eq (by omega)
    rw [hdue] at hmax
    rw [hdue, hnow]
    refine .inr ⟨rfl, ?_⟩
    rcases hk.chain with e | e <;> rw [e.nextOverflowTime]
    · exact hnext
    · rw [hnow] at hb ⊢
      exact (nextOverflowTime_fold_ahead hb hc hmax hnext).trans hnext

/-- Settles O55: a kept event is at most reached by the step's fold, and one set anew is at the next overflow. -/
theorem timerEventAtNextOverflowOrDueKept : Obligations.TimerEventAtNextOverflowOrDueKept := by
  unfold Obligations.TimerEventAtNextOverflowOrDueKept
  intro s t hinv hold he n hv
  obtain ⟨hs, -, hevents⟩ := step_keeps hinv he
  rcases hevents n with ⟨hk, hg, hp⟩ | hworded
  · exact hk.atNextOverflowOrDue hg hp hinv hold hs.toOrdered hv
  · exact .inl (hworded.2 hv)

/-- Settles O58: an event set anew is set from the timers as they stand, and for a kept one the timers it was set from have
only been folded further, folds adding up. -/
theorem everyStepKeepsR45 : Obligations.EveryStepKeepsR45 := by
  unfold Obligations.EveryStepKeepsR45
  intro s t hr he
  have hinv : Inv t := everyStepKeepsInv s t hr.inv he
  refine ⟨hinv, fun n => ?_⟩
  rcases (step_keeps hr.inv he).2.2 n with ⟨hk, hg, hp⟩ | hworded
  · exact hr.timerEvents.kept (fun u us hb hle => syncBank_syncBank hb hle) hp hg n hk.slot hk.chain
  · exact ⟨t.tmr, .refl fun hen => hinv.rootsBehind _ (chain_roots t.tmr n.val n.isLt).1 hen, hworded⟩

/-- Settles O13: no pending kind precedes the head, and of two kinds neither of which precedes the other `S` would be
equal, which the invariant excludes. -/
theorem headIsLeastPending : Obligations.HeadIsLeastPending := by
  unfold Obligations.HeadIsLeastPending
  intro s hinv hseq
  have hbefore : ∀ a b : Slot, a.before b = true ↔ a.t < b.t ∨ (a.t = b.t ∧ a.s < b.s) := by simp [Slot.before]
  have hleast : ∀ k, headKind s = some k → ∀ j, j ≠ k → (s.slot j).v = true → (s.slot k).before (s.slot j) = true := by
    intro k hk j hj hv
    obtain ⟨hvk, hmin⟩ := headKind_spec hk
    have hne : (s.slot j).s ≠ (s.slot k).s := fun e => hj (hinv.seqDistinct hseq j k hv hvk e)
    have hnot := hmin j hv
    rw [← Bool.not_eq_true, hbefore] at hnot
    rw [hbefore]
    bv_omega
  refine ⟨fun k => ⟨fun hk => ⟨(headKind_spec hk).1, fun j hj hv => (hbefore _ _).mp (hleast k hk j hj hv)⟩, ?_⟩, ?_, ?_⟩
  · rintro ⟨hv, hmin⟩
    cases hh : headKind s with
    | none => exact absurd hv (by rw [headKind_eq_none.mp hh k]; decide)
    | some j =>
      by_cases hjk : k = j
      · rw [hjk]
      · obtain ⟨hvj, hmin'⟩ := headKind_spec hh
        have hkj := (hbefore _ _).mpr (hmin j (Ne.symm hjk) hvj)
        rw [hmin' k hv] at hkj
        exact absurd hkj Bool.false_ne_true
  · rw [headTime, Option.map_eq_none_iff, headKind_eq_none]
  · intro k hk
    rw [headTime, hk, Option.map_some]

/-- Settles O52: no effect of a command writes the parameters or the inbox, and taking the input leaves its tail. -/
theorem paramsNeverWritten : Obligations.ParamsNeverWritten := by
  unfold Obligations.ParamsNeverWritten
  intro s t he
  rcases step_cases s with ⟨hin, e⟩ | ⟨rest, hin, e⟩ | ⟨c, rest, i, hin, -, e⟩ | ⟨c, rest, err, hin, -, e⟩ <;>
    rw [e] at he <;> rw [hin]
  · obtain rfl := Host.Outcome.next.inj he
    exact ⟨rfl, hin⟩
  · obtain rfl := Host.Outcome.next.inj he
    exact ⟨rfl, rfl⟩
  · exact exec_params_inbox he
  · obtain rfl := Host.Outcome.next.inj he
    have hq := illegalCommand_quiet c.cw (takeCommand rest s)
    exact ⟨hq.params, hq.inbox⟩

/-- Settles O57: an event that is not due is at the next overflow, and the invariant has the rest of item 8. -/
theorem timerEventAsWordedUnlessDue : Obligations.TimerEventAsWordedUnlessDue := by
  unfold Obligations.TimerEventAsWordedUnlessDue
  intro s t hinv hold he hahead
  have hinv' : Inv t := everyStepKeepsInv s t hinv he
  have hnext : TimerEventAtNextOverflow t := by
    intro n hv
    refine (timerEventAtNextOverflowOrDueKept s t hinv hold he n hv).resolve_right fun hdue => ?_
    have hlt := hahead n hv
    rw [hdue.1] at hlt
    exact absurd hlt (BitVec.lt_irrefl _)
  refine ⟨fun n => ⟨fun hv => ?_, fun hw => ?_⟩, hnext⟩
  · obtain ⟨hc, hirq, hmax⟩ := hinv'.timerEventWanted n hv
    exact ⟨hc, hirq, by rw [← hnext n hv]; exact hmax⟩
  · exact hinv'.timerEventPresent n ((wantsEvent_iff _ _ _).mpr hw)

/-- Settles O59: a changed event was not kept, so a timer write or `Dispatch` has set it. -/
theorem timerEventSetAsWorded : Obligations.TimerEventSetAsWorded := by
  unfold Obligations.TimerEventSetAsWorded
  intro i s t n hinv he hchanged
  rcases exec_event hinv.sound he n with hk | ⟨hset, hiff, htime⟩
  · exact absurd hk.slot hchanged
  · exact ⟨hset, hiff, htime⟩

/-- Settles O6: field by field. -/
theorem resetStateValues : Obligations.ResetStateValues := by
  have hreset : AsReset State.reset := rfl
  refine ⟨rfl, rfl, rfl, rfl, rfl, rfl, rfl, rfl, hreset.slot, rfl, rfl, fun d => ?_, hreset.timer, rfl, rfl, rfl, rfl⟩
  simp [State.ledgerOf, State.reset]

/-- Settles O53: after reset nothing is pending and no timer counts. -/
theorem invAtReset : Obligations.InvAtReset := by
  have hreset : AsReset State.reset := rfl
  have hworded : TimerEventAsWorded State.reset := (timerEventAsWorded_iff _).mpr hreset.asWorded
  have hinv : Inv State.reset := .of_parts hreset.sound hreset.phased
    (fun n hv => absurd hv (by rw [hreset.slot]; exact Bool.false_ne_true))
    (fun n hw => (hreset.asWorded n).1.mpr ((wantsEvent_iff _ _ _).mp hw))
  exact ⟨⟨hinv, hworded.asSet hinv.rootsBehind⟩, hworded⟩

/-! Where item 8, read of the timers as they stand, breaks (log entry 14). -/

/-- Timer0 of reload `0xFFF0`, enabled at 0 with its interrupt, so that its event is at 16, under a run of `Cpu` charged to
20; the next input reads the counter. -/
def chargedPastOverflow : State :=
  { State.reset with
    phase := .running, runElapsed := 20, runBudget := 16, seqNext := 1
    evt := State.reset.evt.set 0 { v := true, t := 16, s := 0 }
    tmr := State.reset.tmr.set 0
      { reload := 0xFFF0, value := 0xFFF0, tref := 0, ctrl := { en := true, cascade := false, ps := 0, irqen := true } }
    ledger := State.reset.ledger.set 0 20
    inbox := [.command (encode (.tmrRdCounter 0))] }

/-- A timer of reload 0 at its last count, with prescaler select 3 where it is a root. -/
def lastCount (cascade irqen : Bool) : Timer :=
  { reload := 0, value := 0xFFFF, tref := 0, ctrl := { en := true, cascade := cascade, ps := 3, irqen := irqen } }

/-- A chain of all four timers of reload 0, which overflow together at 1024, where Timer3's event is; its period is `2^74`
cycles. The run of `Cpu` is charged past that time, and the next input reads a counter. -/
def chargedPastHorizon : State :=
  { State.reset with
    phase := .running, runElapsed := 2000, runBudget := 1024, seqNext := 1
    evt := State.reset.evt.set 3 { v := true, t := 1024, s := 0 }
    tmr := #v[lastCount false false, lastCount true false, lastCount true false, lastCount true true]
    ledger := State.reset.ledger.set 0 2000
    inbox := [.command (encode (.tmrRdCounter 0))] }

/-- What a step that reads a counter leaves behind: the queue as it was, the timers folded to the flushed time. -/
theorem step_tmrRdCounter {s : State} {n : Fin 4} {rest : List Input}
    (hin : s.inbox = .command (encode (.tmrRdCounter n)) :: rest)
    (hdec : decode (encode (.tmrRdCounter n)) = .ok (.tmrRdCounter n)) (hphase : s.phase ≠ .dispatch) :
    ∃ t, step s = .next t ∧ t.evt = s.evt ∧ t.params = s.params ∧
      t.tmr = syncBank s.params (seenTime (takeCommand rest s)) s.tmr := by
  have hstep : step s = execTmrRdCounter n (takeCommand rest s) := by
    unfold step
    rw [hin]
    simp only [hdec]
    rfl
  exact ⟨_, hstep.trans (plainCommand_entry _ hphase (admitted_any hphase rfl rfl rfl rfl)), rfl, rfl, rfl⟩

/-- Settles O56, by `chargedPastOverflow`, where the read folds to 16 and the next overflow is at 32, and by
`chargedPastHorizon`, where it folds to 1024 and the next overflow of Timer3 is beyond `MAX64`. -/
theorem timerEventClaimBreaks : Obligations.TimerEventClaimBreaks := by
  unfold Obligations.TimerEventClaimBreaks
  constructor
  · obtain ⟨t, hstep, hevt, hparams, htmr⟩ :=
      step_tmrRdCounter (s := chargedPastOverflow) (n := 0) (rest := []) rfl rfl (by decide)
    have hinv : Inv chargedPastOverflow := by constructor <;> decide
    have hworded : TimerEventAsWorded chargedPastOverflow := by
      unfold TimerEventAsWorded TimerEventAtNextOverflow; decide
    refine ⟨_, t, hinv, hworded, hstep, fun hclaim => ?_⟩
    have hnext := hclaim 0
    rw [State.slot_of_evt hevt, hparams, htmr] at hnext
    exact absurd (hnext (by decide)) (by decide)
  · obtain ⟨t, hstep, hevt, hparams, htmr⟩ :=
      step_tmrRdCounter (s := chargedPastHorizon) (n := 0) (rest := []) rfl rfl (by decide)
    have hinv : Inv chargedPastHorizon := by constructor <;> decide
    have hworded : TimerEventAsWorded chargedPastHorizon := by
      unfold TimerEventAsWorded TimerEventAtNextOverflow; decide
    refine ⟨_, t, hinv, hworded, hstep, 3, ?_⟩
    rw [State.slot_of_evt hevt, hparams, htmr]
    decide

end Sys2Proof.Machine

/-! SUPPORT. A read command issued twice (20_memory.md R66): the flush, the fold of the timers and a fault do nothing
the second time, so a read's own rule meets its entry state again. -/

namespace Sys2Proof.Machine

/-! The flush (41_run_loop.md R140). -/

/-- The seen time looks at the sequencer, the run and the queue only. -/
theorem seenTime_congr {s t : State} (hg : t.g = s.g) (hphase : t.phase = s.phase) (hbase : t.runBase = s.runBase)
    (helapsed : t.runElapsed = s.runElapsed) (hevt : t.evt = s.evt) (hfree : t.freeCtr = s.freeCtr) :
    seenTime t = seenTime s := by
  simp only [seenTime, capAtHead, headTime_congr hevt hfree, hg, hphase, hbase, helapsed]

theorem seenTime_atEntry (s : State) : seenTime (atEntry s) = seenTime s := by
  have hhead : headTime (atEntry s) = headTime s := headTime_congr rfl rfl
  simp only [seenTime, capAtHead, hhead]
  simp only [atEntry, seenTime, capAtHead]
  split
  · exact maxU64_idem _ _
  · rfl

/-! The fold (43_timer_cascade.md R193, R209). -/

/-- After the fold to `t` no root has a whole tick left, wherever the roots stood before. -/
theorem rootTicks_syncBank (p : Params) (t : U64) {ts : TimerBank} {r : Fin 4} (hr : isRoot ts r = true)
    (he : ts[r].ctrl.en = true) : rootTicks p t (syncBank p t ts) r = 0 := by
  have hps := psOf_pos p ts r
  have hlt := lt_foldTref p t ts hr he
  unfold rootTicks
  rw [psOf_syncBank, syncBank_tref_fin]
  exact Nat.div_eq_of_lt (by omega)

/-- The fold to the same time again carries no tick anywhere. -/
theorem foldCounts_syncBank (p : Params) (t : U64) (ts : TimerBank) : FoldCounts p t (syncBank p t ts) fun _ => 0 where
  disabled _ _ := rfl
  root r hr he := by
    rw [isRoot_syncBank] at hr
    rw [syncBank_ctrl_fin] at he
    exact (rootTicks_syncBank p t hr he).symm
  cascaded _ _ _ _ _ := by rw [advance_zero]

theorem foldTref_syncBank (p : Params) (t : U64) (ts : TimerBank) (n : Fin 4) :
    foldTref p t (syncBank p t ts) n = (syncBank p t ts)[n].tref := by
  unfold foldTref
  split
  · rename_i hroot
    obtain ⟨hr, he⟩ := Bool.and_eq_true_iff.mp hroot
    rw [isRoot_syncBank] at hr
    rw [syncBank_ctrl_fin] at he
    rw [rootTicks_syncBank p t hr he, Nat.zero_mul, Nat.add_zero, sat64_toNat_self]
  · rfl

/-- A fold to the same time again changes nothing, of whatever bank. -/
theorem syncBank_idem (p : Params) (t : U64) (ts : TimerBank) : syncBank p t (syncBank p t ts) = syncBank p t ts := by
  ext1 n hn
  have hticks := (foldCounts_syncBank p t ts).eq_foldTicks n hn
  rw [syncBank_getElem p t (syncBank p t ts) n hn, foldTref_syncBank, ← hticks, Timer.ticked_zero]
  rfl

theorem timerSyncAll_idem (t : U64) (s : State) : timerSyncAll t (timerSyncAll t s) = timerSyncAll t s :=
  congrArg (fun ts => { s with tmr := ts }) (syncBank_idem s.params t s.tmr)

/-! A fault (60_exceptions.md R270): the second time the bit is set already, and the fault is not the first. -/

theorem FaultCode.mask_ne_zero (c : FaultCode) : 1#16 <<< c.bit ≠ 0 := by cases c <;> decide

theorem faulted_idem {bit : U16} (hbit : bit ≠ 0) (cw : U16) (s : State) :
    faulted bit cw (faulted bit cw s) = faulted bit cw s := by
  have hset : s.faultStatus ||| bit ≠ 0 := fun h => hbit (BitVec.or_eq_zero_iff.mp h).2
  simp only [faulted, BitVec.or_assoc, BitVec.or_self, hset, if_false, List.append_nil]

/-! The own rule of a read command. -/

/-- The rule `body` reads at the entry of a command in `s`: it writes the timers, the fault registers, `RESULT` and the
outputs only, and run again once `RESULT` is cleared it changes nothing more. -/
structure ReadsAgain (body : State → State) (s : State) : Prop where
  frame : body (atEntry s) =
    { atEntry s with tmr := (body (atEntry s)).tmr, faultStatus := (body (atEntry s)).faultStatus
                     faultCmd := (body (atEntry s)).faultCmd, result := (body (atEntry s)).result
                     trace := (body (atEntry s)).trace }
  again : body { body (atEntry s) with result := 0 } = body (atEntry s)

/-- A value is read off the state. -/
theorem readsAgain_result (r : State → U64) (s : State) : ReadsAgain (fun s0 => { s0 with result := r s0 }) s :=
  ⟨rfl, rfl⟩

/-- A value is read off the state with its timers folded to now. -/
theorem readsAgain_fold (r : State → U64) (s : State) :
    ReadsAgain (fun s0 => { timerSyncAll s0.g s0 with result := r (timerSyncAll s0.g s0) }) s :=
  ⟨rfl, congrArg (fun s1 => { s1 with result := r s1 }) (timerSyncAll_idem (atEntry s).g (atEntry s))⟩

/-- No value is read, and a fault is raised that does not halt. -/
theorem readsAgain_raiseFault {c : FaultCode} (hc : c ≠ .emptyQueue) (cw : U16) (s : State) :
    ReadsAgain (raiseFault c cw) s := by
  have hfault : raiseFault c cw (atEntry s) = faulted (1#16 <<< c.bit) cw (atEntry s) := raiseFault_faulted hc cw rfl
  refine ⟨?_, ?_⟩ <;> simp only [hfault]
  · rfl
  · exact (raiseFault_faulted hc cw rfl).trans (faulted_idem c.mask_ne_zero cw (atEntry s))

/-- A value is read off the state for a driver, and a code that names none faults. -/
theorem readsAgain_onDriver (i : Instr) (d : Fin 8) (r : Driver → State → U64) (s : State) :
    ReadsAgain (onDriver i d fun drv s0 => { s0 with result := r drv s0 }) s := by
  unfold onDriver
  cases driverOf d with
  | none => exact readsAgain_raiseFault (by decide) i.word s
  | some drv => exact readsAgain_result (r drv) s

/-! A read command. -/

/-- The state a read leaves is flushed: entering a command from it only clears `RESULT`. -/
theorem ReadsAgain.atEntry_eq {body : State → State} {s : State} (h : ReadsAgain body s) :
    atEntry (body (atEntry s)) = { body (atEntry s) with result := 0 } := by
  have hseen : seenTime (body (atEntry s)) = (body (atEntry s)).g := by
    rw [h.frame]
    exact (seenTime_congr rfl rfl rfl rfl rfl rfl).trans (seenTime_atEntry s)
  rw [atEntry, hseen]

/-- Every phase admits every read (30_encoding.md R88). -/
theorem admitted_of_isRead {i : Instr} {s : State} (hr : isRead i = true) (hd : s.phase ≠ .dispatch) :
    admitted i.opcode s.phase = true := by
  cases i <;> cases hr <;> exact admitted_any hd rfl rfl rfl rfl

/-- A read whose own rule reads again answers the state it left. -/
theorem plainCommand_again {i : Instr} {body : State → State} {s t : State} (hr : isRead i = true)
    (he : plainCommand i body s = .next t) (hbody : ReadsAgain body s) : plainCommand i body t = .next t := by
  have hd : s.phase ≠ .dispatch := fun hd => by simp [plainCommand, command, hd] at he
  rw [plainCommand_entry body hd (admitted_of_isRead hr hd)] at he
  obtain rfl := Host.Outcome.next.inj he
  have hphase : (body (atEntry s)).phase ≠ .dispatch := by rw [hbody.frame]; exact hd
  rw [plainCommand_entry body hphase (admitted_of_isRead hr hphase), hbody.atEntry_eq, hbody.again]

/-- A read of the status map, and the ill-formed one, which only faults. -/
theorem execRdStatus_again {sel : Fin 16} {s t : State} (he : execRdStatus sel s = .next t) :
    execRdStatus sel t = .next t := by
  unfold execRdStatus at he ⊢
  split at he
  · rename_i hsel
    rw [if_pos hsel]
    exact plainCommand_again rfl he (readsAgain_result _ s)
  · rename_i hsel
    have hfault : ∀ u, illegalCommand (Instr.rdStatus sel).word u = faulted 0x0001 (Instr.rdStatus sel).word u :=
      fun u => illegalCommand_eq _ u
    obtain rfl := Host.Outcome.next.inj he
    rw [if_neg hsel, hfault, hfault, faulted_idem (by decide)]

/-- Settles O49, by the three kinds of read: off the state, off the folded timers, and for a driver that may be none. -/
theorem readsAreIdempotent : Obligations.ReadsAreIdempotent := by
  unfold Obligations.ReadsAreIdempotent
  intro i s t hr he
  unfold exec at he ⊢
  cases i with
  | now => exact plainCommand_again hr he (readsAgain_result _ s)
  | tmrRdCounter n => exact plainCommand_again hr he (readsAgain_fold (fun s1 => (s1.timer n).value.setWidth 64) s)
  | tmrRdControl n => exact plainCommand_again hr he (readsAgain_result _ s)
  | tmrRdReload n => exact plainCommand_again hr he (readsAgain_result _ s)
  | tmrRdNextOvf n =>
    exact plainCommand_again hr he
      (readsAgain_fold (fun s1 => if counting s1.tmr n then nextOverflowTime s1.params s1.tmr n else max64) s)
  | rdStatus sel => exact execRdStatus_again he
  | rdLedger d => exact plainCommand_again hr he (readsAgain_onDriver _ d (fun drv s0 => s0.ledgerOf drv) s)
  | rdEventTime k => exact plainCommand_again hr he (readsAgain_result _ s)
  | rdEventSeq k => exact plainCommand_again hr he (readsAgain_result _ s)
  | schedule _ _ | cancel _ | reschedule _ _ | engage _ | disengage _ | charge _ _ | runEnd _ | callbackDone
  | tmrWrReload _ _ | tmrWrControl _ _ | raiseIrq _ | clrFault | start => cases hr

end Sys2Proof.Machine

/-! SUPPORT. The legal command words (30_encoding.md R80 to R86) are the words `commandWord o sel` with a selector that
row `o` allows: `decode` answers on these, and `IllegalWord` lists the rest. -/

namespace Sys2Proof

/-! The fields of a word (R80). -/

theorem bitField_eq_extract (hi lo : Nat) (cw : U16) :
    bitField hi lo cw = (cw.extractLsb' lo (hi + 1 - lo)).toNat := by
  rw [BitVec.extractLsb'_toNat, Nat.shiftRight_eq_div_pow]; rfl

theorem opField_eq_extract (cw : U16) : opField cw = (cw.extractLsb' 0 5).toNat := bitField_eq_extract 4 0 cw

theorem selField_eq_extract (cw : U16) : (selField cw).val = (cw.extractLsb' 8 4).toNat := by
  rw [← Nat.mod_eq_of_lt (cw.extractLsb' 8 4).isLt, ← bitField_eq_extract 11 8 cw]; rfl

/-! The opcode map (R83). -/

theorem opcodeOf_eq_some {n : Nat} {o : Opcode} : opcodeOf n = some o ↔ n = o.code := by
  constructor
  · intro h
    unfold opcodeOf at h
    split at h <;> cases h <;> rfl
  · rintro rfl
    cases o <;> rfl

/-- The codes `0x01` to `0x16` are all assigned. -/
theorem exists_opcodeOf_eq_some {n : Nat} (hpos : 0 < n) (hlt : n < 0x17) : ∃ o, opcodeOf n = some o := by
  interval_cases n <;> exact ⟨_, rfl⟩

theorem Opcode.code_injective {o p : Opcode} (h : o.code = p.code) : o = p :=
  Option.some.inj ((opcodeOf_eq_some.mpr rfl).symm.trans (opcodeOf_eq_some.mpr h))

/-- A word with zero reserved bits is the command word of its own fields. -/
theorem eq_commandWord {cw : U16} {o : Opcode} (hlow : bitField 7 5 cw = 0) (hhigh : bitField 15 12 cw = 0)
    (hop : opField cw = o.code) : cw = commandWord o (selField cw) := by
  apply BitVec.eq_of_toNat_eq
  have hsel : (selField cw).val = bitField 11 8 cw := by
    rw [selField_eq_extract]; exact (bitField_eq_extract 11 8 cw).symm
  have hlt := cw.isLt
  rw [commandWord, ← hop, hsel, BitVec.toNat_ofNat]
  simp only [opField, bitField] at hlow hhigh ⊢
  omega

/-! Operand assembly (R81, R82). -/

theorem assemble_opcode (o : Opcode) (sel : Fin 16) (data : U64) : (assemble o sel data).opcode = o := by
  cases o <;> rfl

/-- A selector its format allows is not cut by the assembly, and the operand has no part in it. -/
theorem assemble_selector {o : Opcode} {sel : Fin 16} (h : selectorError o.format sel = none) (data : U64) :
    (assemble o sel data).selector = sel := by
  refine (show _ = (assemble o sel 0).selector by cases o <;> rfl).trans ?_
  cases o <;> (revert sel; decide)

theorem assemble_wf {o : Opcode} {sel : Fin 16} (h : selectorError o.format sel = none) (data : U64) :
    (assemble o sel data).wf = true := by
  refine (show _ = (assemble o sel 0).wf by cases o <;> rfl).trans ?_
  cases o <;> (revert sel; decide)

/-! What the decoder answers (R85). -/

/-- The decoder answers exactly on the command words of a row and a selector its format allows. -/
theorem decode_eq_ok_iff {c : Command} {i : Instr} :
    decode c = .ok i ↔
      ∃ o sel, c.cw = commandWord o sel ∧ selectorError o.format sel = none ∧ i = assemble o sel c.data := by
  constructor
  · intro h
    unfold decode at h
    split at h
    · cases h
    · rename_i hres
      obtain ⟨hlow, hhigh⟩ : bitField 7 5 c.cw = 0 ∧ bitField 15 12 c.cw = 0 := by simpa using hres
      split at h
      · cases h
      · rename_i o hop
        split at h
        · cases h
        · rename_i hsel
          cases h
          exact ⟨o, selField c.cw, eq_commandWord hlow hhigh (opcodeOf_eq_some.mp hop), hsel, rfl⟩
  · rintro ⟨o, sel, hcw, hsel, rfl⟩
    obtain ⟨hop, hself, hlow, hhigh⟩ := commandWord_fields o sel
    rw [← hcw] at hop hself hlow hhigh
    simp [decode, hlow, hhigh, opcodeOf_eq_some.mpr hop, hself, hsel]

/-! Rows do not overlap (R84). -/

/-- Every format fixes the low byte, and there a row has its opcode. -/
theorem Opcode.code_of_matchesWord {o : Opcode} {cw : U16} (h : o.matchesWord cw = true) :
    o.code = cw.toNat % 2 ^ 8 := by
  have hmask : o.format.mask &&& 0x00FF = 0x00FF := by cases o <;> decide
  have hcode : (BitVec.ofNat 16 o.code &&& 0x00FF).toNat = o.code := by cases o <;> decide
  have hword : cw &&& o.format.mask = BitVec.ofNat 16 o.code := eq_of_beq h
  rw [← hcode, ← hword, BitVec.and_assoc, hmask, BitVec.toNat_and]
  exact Nat.and_two_pow_sub_one_eq_mod cw.toNat 8

end Sys2Proof

namespace Sys2Proof.Machine

/-! The illegal words (R86). -/

/-- Of the command words, the list has those whose selector their format does not allow. -/
theorem illegalWord_commandWord (o : Opcode) (sel : Fin 16) :
    IllegalWord (commandWord o sel) ↔ selectorError o.format sel ≠ none := by
  unfold IllegalWord
  cases o <;> (revert sel; decide)

/-- A word the list leaves out is a command word. -/
theorem eq_commandWord_of_not_illegal {cw : U16} (h : ¬ IllegalWord cw) : ∃ o, cw = commandWord o (selField cw) := by
  simp only [IllegalWord, ← opField_eq_extract, not_or] at h
  obtain ⟨hzero, hrange, hlow, hhigh, -⟩ := h
  obtain ⟨o, hop⟩ := exists_opcodeOf_eq_some (Nat.pos_of_ne_zero hzero) (Nat.lt_of_not_le hrange)
  refine ⟨o, eq_commandWord ?_ ?_ (opcodeOf_eq_some.mp hop)⟩
  · rw [bitField_eq_extract, not_not.mp hlow]; rfl
  · rw [bitField_eq_extract, not_not.mp hhigh]; rfl

theorem illegalWord_iff {cw : U16} :
    IllegalWord cw ↔ ∀ o sel, cw = commandWord o sel → selectorError o.format sel ≠ none := by
  constructor
  · rintro h o sel rfl
    exact (illegalWord_commandWord o sel).mp h
  · intro h
    by_contra hlegal
    obtain ⟨o, hcw⟩ := eq_commandWord_of_not_illegal hlegal
    rw [hcw] at hlegal
    exact hlegal ((illegalWord_commandWord o _).mpr (h o _ hcw))

/-- Decoding rejects exactly the illegal words (R85). -/
theorem decode_error_iff {c : Command} : (∃ e, decode c = .error e) ↔ IllegalWord c.cw := by
  rw [illegalWord_iff]
  constructor
  · rintro ⟨e, he⟩ o sel hcw hsel
    rw [decode_eq_ok_iff.mpr ⟨o, sel, hcw, hsel, rfl⟩] at he
    cases he
  · intro h
    cases hd : decode c with
    | error e => exact ⟨e, rfl⟩
    | ok i =>
      obtain ⟨o, sel, hcw, hsel, -⟩ := decode_eq_ok_iff.mp hd
      exact absurd hsel (h o sel hcw)

/-- Settles O3: a legal word is the command word of one row and selector, whose fields read back, and all rows fix the low
byte. -/
theorem everyWordIsOneCommandOrIllegal : Obligations.EveryWordIsOneCommandOrIllegal := by
  unfold Obligations.EveryWordIsOneCommandOrIllegal
  refine fun c => ⟨decode_error_iff, fun i hi => ?_, fun o p ho hp => ?_⟩
  · obtain ⟨o, sel, hcw, hsel, rfl⟩ := decode_eq_ok_iff.mp hi
    obtain ⟨hop, hself, -⟩ := commandWord_fields o sel
    rw [Instr.word, assemble_opcode, assemble_selector hsel, ← opField_eq_extract, ← selField_eq_extract, hcw, hop,
      hself]
    exact ⟨assemble_wf hsel _, rfl, rfl, rfl⟩
  · exact Opcode.code_injective ((Opcode.code_of_matchesWord ho).trans (Opcode.code_of_matchesWord hp).symm)

end Sys2Proof.Machine

/-! SUPPORT. How a command faults on a code that names nothing or in a phase that bars it (30_encoding.md R86, R88): only
the common sequence sets the bit of `BAD_PHASE`, and no command ends in `DISPATCH`. -/

namespace Sys2Proof.Machine

/-! The admission table (30_encoding.md R88). -/

/-- A B of the table is a phase that is not admitted; `DISPATCH` has no column. -/
theorem mem_barredPhases_iff (i : Instr) (p : Phase) :
    p ∈ barredPhases i ↔ p ≠ .dispatch ∧ admitted i.opcode p = false := by
  cases i <;> (simp only [barredPhases, Instr.opcode]; cases p <;> decide)

/-- A barred command faults `BAD_PHASE` in the common sequence, before its own rule. -/
theorem exec_bad_phase {i : Instr} {s : State} (hs : s.phase ∈ barredPhases i) :
    exec i s = .next (faulted 0x0002 i.word s) := by
  obtain ⟨hd, ha⟩ := (mem_barredPhases_iff i s.phase).mp hs
  unfold exec
  cases i with
  | runEnd c | callbackDone | start => exact command_bad_phase _ hd ha
  | rdStatus sel => cases hs
  | _ => exact plainCommand_bad_phase _ hd ha

/-! Faults as records (60_exceptions.md R270). -/

theorem illegalCommand_faulted (cw : U16) (s : State) : illegalCommand cw s = faulted 0x0001 cw s :=
  illegalCommand_eq cw s

/-- Outside `RUNNING` there is nothing to flush (41_run_loop.md R140). -/
theorem atEntry_of_not_running {s : State} (h : s.phase ≠ .running) : atEntry s = { s with result := 0 } := by
  rw [atEntry, seenTime, if_neg h]

/-- A driver command on a code that names none (30_encoding.md R86). -/
theorem plainCommand_bad_driver {i : Instr} {d : Fin 8} (body : Driver → State → State) {s : State}
    (hd : s.phase ≠ .dispatch) (ha : admitted i.opcode s.phase = true) (h : 5 ≤ d.val) :
    plainCommand i (onDriver i d body) s = .next (faulted 0x0004 i.word (atEntry s)) := by
  rw [plainCommand_entry _ hd ha, onDriver, driverOf_eq_none h]
  exact congrArg _ (raiseFault_faulted (by decide) _ rfl)

/-- A queue command on an internal kind (30_encoding.md R86). -/
theorem plainCommand_reserved_kind {i : Instr} {k : Fin 16} (body : State → State) {s : State}
    (hd : s.phase ≠ .dispatch) (ha : admitted i.opcode s.phase = true) (h : k.val ≤ 4) :
    plainCommand i (onExternalKind i k body) s = .next (faulted 0x0008 i.word (atEntry s)) := by
  have hinternal : isInternalKind k = true := decide_eq_true h
  rw [plainCommand_entry _ hd ha, onExternalKind, if_pos hinternal]
  exact congrArg _ (raiseFault_faulted (by decide) _ rfl)

/-- Settles O5: the decoder rejects an illegal word, and the shared checks of the driver and the queue commands reject the
codes that name nothing. -/
theorem illegalWordOnlyFaults : Obligations.IllegalWordOnlyFaults := by
  unfold Obligations.IllegalWordOnlyFaults
  refine ⟨fun s c rest hin hill => ?_, fun s d n hlive hd => ?_, fun s k x hlive hk => ?_, fun s sel hsel => ?_⟩
  · obtain ⟨e, he⟩ := decode_error_iff.mpr hill
    simp only [step, hin, he, illegalCommand_faulted, takeCommand]
  · refine ⟨?_, ?_, ?_, ?_⟩ <;>
      exact plainCommand_bad_driver _ hlive.ne_dispatch (admitted_live hlive rfl rfl rfl) hd
  · refine ⟨?_, ?_, ?_⟩ <;>
      exact plainCommand_reserved_kind _ hlive.ne_dispatch (admitted_live hlive rfl rfl rfl) hk
  · rw [← illegalCommand_faulted]
    exact if_neg (Nat.not_lt.mpr hsel)

/-! The phase after a command (10_state.md R21). -/

/-- Every effect from outside `DISPATCH` ends outside it. -/
theorem Effect.ne_dispatch {i : Instr} {s t : State} (he : Effect i s t) (h : s.phase ≠ .dispatch) :
    t.phase ≠ .dispatch := by
  cases he with
  | quiet hq => rwa [hq.phase]
  | schedule k x => rwa [(scheduleAt_frame k x s).phase]
  | cancel k => rwa [(remove_frame k s).phase]
  | raise m => rwa [(raiseSource_frame m s).phase]
  | fold r => exact h
  | write n x => rwa [(timerReschedule_frame _ _).phase]
  | dispatch cw _ _ hd =>
    obtain ⟨m, u, -, hend⟩ := dispatch_next hd
    exact hend.phased.stable

theorem exec_ne_dispatch {i : Instr} {s t : State} (hs : s.phase ≠ .dispatch) (he : exec i s = .next t) :
    t.phase ≠ .dispatch := by
  rcases exec_effect he with hq | he
  · rwa [hq.phase]
  · exact he.ne_dispatch hs

/-! The bit of `BAD_PHASE`. -/

/-- From `s` to `t` the bit of `BAD_PHASE` is not set. -/
def SetsNoBadPhase (s t : State) : Prop := t.faultStatus.getLsbD 1 = true → s.faultStatus.getLsbD 1 = true

theorem SetsNoBadPhase.of_eq {s t : State} (h : t.faultStatus = s.faultStatus) : SetsNoBadPhase s t := fun hb => h ▸ hb

theorem SetsNoBadPhase.trans {s t u : State} (h1 : SetsNoBadPhase s t) (h2 : SetsNoBadPhase t u) : SetsNoBadPhase s u :=
  h1 ∘ h2

theorem QueueFrame.setsNoBadPhase {s t : State} (h : QueueFrame s t) : SetsNoBadPhase s t := .of_eq h.faultStatus

theorem raiseFault_faultStatus (c : FaultCode) (cw : U16) (s : State) :
    (raiseFault c cw s).faultStatus = withFaultBit c s.faultStatus := by
  by_cases hc : c = .emptyQueue
  · rw [hc, raiseFault_emptyQueue_eq]
  · rw [raiseFault_eq hc]

/-- Every other fault has another bit. -/
theorem raiseFault_setsNoBadPhase {c : FaultCode} (hc : c ≠ .badPhase) (cw : U16) (s : State) :
    SetsNoBadPhase s (raiseFault c cw s) := by
  have hbit : (1#16 <<< c.bit).getLsbD 1 = false := by
    cases c with
    | badPhase => exact absurd rfl hc
    | _ => rfl
  intro h
  rw [raiseFault_faultStatus, withFaultBit, BitVec.getLsbD_or, hbit, Bool.or_false] at h
  exact h

theorem clearFaults_setsNoBadPhase (s : State) : SetsNoBadPhase s (clearFaults s) := fun h =>
  absurd (show (0#16).getLsbD 1 = true from h) (by decide)

theorem onDriver_setsNoBadPhase (i : Instr) (d : Fin 8) {body : Driver → State → State} {s : State}
    (hbody : ∀ drv, SetsNoBadPhase s (body drv s)) : SetsNoBadPhase s (onDriver i d body s) := by
  unfold onDriver
  split
  · exact raiseFault_setsNoBadPhase (by decide) _ _
  · exact hbody _

theorem onExternalKind_setsNoBadPhase (i : Instr) (k : Fin 16) {body : State → State} {s : State}
    (hbody : SetsNoBadPhase s (body s)) : SetsNoBadPhase s (onExternalKind i k body s) := by
  unfold onExternalKind
  split
  · exact raiseFault_setsNoBadPhase (by decide) _ _
  · exact hbody

theorem engageDriver_faultStatus (drv : Driver) (s : State) : (engageDriver drv s).faultStatus = s.faultStatus := by
  unfold engageDriver
  simp only
  split
  · rfl
  · split <;> rfl

theorem disengageDriver_faultStatus (drv : Driver) (s : State) :
    (disengageDriver drv s).faultStatus = s.faultStatus := by
  unfold disengageDriver
  simp only
  split
  · split <;> rfl
  · rfl

theorem settleRun_setsNoBadPhase (cw : U16) (c : U64) (s : State) : SetsNoBadPhase s (settleRun cw c s) := by
  unfold settleRun
  split
  · exact raiseFault_setsNoBadPhase (by decide) _ _
  · exact .of_eq rfl

/-- The one fault of `Dispatch` is `EMPTY_QUEUE`. -/
theorem dispatch_setsNoBadPhase {cw : U16} {s t : State} (hd : dispatch cw s = .next t) : SetsNoBadPhase s t := by
  obtain ⟨m, u, hpops, hend⟩ := dispatch_next hd
  refine SetsNoBadPhase.trans (t := u) (.of_eq hpops.frame.faultStatus) ?_
  rcases hend with ⟨-, rfl⟩ | ⟨k, -, -, rfl⟩ | ⟨k, -, -, -, rfl⟩
  · exact raiseFault_setsNoBadPhase (by decide) _ _
  · exact .of_eq rfl
  · exact .of_eq rfl

/-- In a phase that does not bar the command only its own rule can fault. -/
theorem command_setsNoBadPhase {i : Instr} {body : State → Answer} {s t : State} (hs : s.phase ∉ barredPhases i)
    (he : command i body s = .next t) (hbody : body (atEntry s) = .next t → SetsNoBadPhase (atEntry s) t) :
    SetsNoBadPhase s t := by
  rcases command_cases i body s with ⟨-, e⟩ | ⟨-, -, e⟩ | ⟨hd, ha, -⟩
  · rw [e] at he; cases he
  · rw [e] at he; exact hbody he
  · exact absurd ((mem_barredPhases_iff i s.phase).mpr ⟨hd, ha⟩) hs

theorem plainCommand_setsNoBadPhase {i : Instr} {body : State → State} {s t : State} (hs : s.phase ∉ barredPhases i)
    (he : plainCommand i body s = .next t) (hbody : ∀ s0, SetsNoBadPhase s0 (body s0)) : SetsNoBadPhase s t :=
  command_setsNoBadPhase hs he fun h => by
    obtain rfl := Host.Outcome.next.inj h
    exact hbody _

/-- A read of the status map, and the ill-formed one, which faults `ILLEGAL_COMMAND`. -/
theorem execRdStatus_setsNoBadPhase {sel : Fin 16} {s t : State} (hs : s.phase ∉ barredPhases (.rdStatus sel))
    (he : execRdStatus sel s = .next t) : SetsNoBadPhase s t := by
  unfold execRdStatus at he
  split at he
  · exact plainCommand_setsNoBadPhase hs he fun _ => .of_eq rfl
  · obtain rfl := Host.Outcome.next.inj he
    exact raiseFault_setsNoBadPhase (by decide) _ { s with result := 0 }

/-- No command's own rule raises `BAD_PHASE`. -/
theorem exec_setsNoBadPhase {i : Instr} {s t : State} (hs : s.phase ∉ barredPhases i) (he : exec i s = .next t) :
    SetsNoBadPhase s t := by
  unfold exec at he
  cases i with
  | schedule k delay =>
    exact plainCommand_setsNoBadPhase hs he fun _ =>
      onExternalKind_setsNoBadPhase _ _ (scheduleAt_frame _ _ _).setsNoBadPhase
  | cancel k =>
    exact plainCommand_setsNoBadPhase hs he fun _ => onExternalKind_setsNoBadPhase _ _ (remove_frame _ _).setsNoBadPhase
  | reschedule k delay =>
    refine plainCommand_setsNoBadPhase hs he fun _ => onExternalKind_setsNoBadPhase _ _ ?_
    split
    · exact (scheduleAt_frame _ _ _).setsNoBadPhase
    · exact .of_eq rfl
  | engage d =>
    exact plainCommand_setsNoBadPhase hs he fun _ =>
      onDriver_setsNoBadPhase _ _ fun _ => .of_eq (engageDriver_faultStatus _ _)
  | disengage d =>
    refine plainCommand_setsNoBadPhase hs he fun _ => onDriver_setsNoBadPhase _ _ fun _ => ?_
    split
    · exact raiseFault_setsNoBadPhase (by decide) _ _
    · exact .of_eq (disengageDriver_faultStatus _ _)
  | charge d n =>
    refine plainCommand_setsNoBadPhase hs he fun _ => onDriver_setsNoBadPhase _ _ fun _ => ?_
    split
    · exact .of_eq rfl
    · exact raiseFault_setsNoBadPhase (by decide) _ _
  | rdLedger d =>
    exact plainCommand_setsNoBadPhase hs he fun _ => onDriver_setsNoBadPhase _ _ fun _ => .of_eq rfl
  | runEnd c =>
    refine command_setsNoBadPhase hs he fun hd => ?_
    exact (settleRun_setsNoBadPhase _ c (atEntry s)).trans
      (dispatch_setsNoBadPhase (s := { commitTime _ _ with suspendReq := false }) hd)
  | callbackDone | start => exact command_setsNoBadPhase hs he dispatch_setsNoBadPhase
  | tmrWrReload n v | tmrWrControl n w =>
    exact plainCommand_setsNoBadPhase hs he fun _ => (timerReschedule_frame _ _).setsNoBadPhase
  | raiseIrq m => exact plainCommand_setsNoBadPhase hs he fun _ => (raiseSource_frame _ _).setsNoBadPhase
  | rdStatus sel => exact execRdStatus_setsNoBadPhase hs he
  | clrFault => exact plainCommand_setsNoBadPhase hs he clearFaults_setsNoBadPhase
  | now | tmrRdCounter n | tmrRdControl n | tmrRdReload n | tmrRdNextOvf n | rdEventTime k | rdEventSeq k =>
    exact plainCommand_setsNoBadPhase hs he fun _ => .of_eq rfl

/-! `CHARGE` outside a run, and the table whole. -/

theorem driverOf_isSome {d : Fin 8} (h : d.val ≤ 4) : (driverOf d).isSome = true := by revert d; decide

/-- Charging a driver where no run is open (44_bus_accounting.md R240). -/
theorem execCharge_not_running {d : Fin 8} (n : U64) {s : State} (hs : s.phase = .idle ∨ s.phase = .callback)
    (hd : d.val ≤ 4) : execCharge d n s = .next (faulted 0x0020 (Instr.charge d n).word s) := by
  obtain ⟨drv, hdrv⟩ := Option.isSome_iff_exists.mp (driverOf_isSome hd)
  have hlive : Live s := hs.imp_right .inr
  have hrun : s.phase ≠ .running := by rcases hs with h | h <;> rw [h] <;> decide
  rw [execCharge, plainCommand_entry _ hlive.ne_dispatch (admitted_live hlive rfl rfl rfl), atEntry_of_not_running hrun]
  simp only [onDriver, hdrv, hrun, false_and, if_false]
  exact congrArg _ (raiseFault_faulted (by decide) _ rfl)

/-- Settles O8: the barred phases are those the common sequence does not admit, no command's own rule raises `BAD_PHASE`,
and every effect ends outside `DISPATCH`. -/
theorem commandOutsideItsPhaseFaults : Obligations.CommandOutsideItsPhaseFaults := by
  unfold Obligations.CommandOutsideItsPhaseFaults
  exact ⟨fun _ _ => exec_bad_phase, fun _ _ _ => exec_setsNoBadPhase, fun _ _ n => execCharge_not_running n,
    fun _ _ _ => exec_ne_dispatch⟩

/-- Settles O1: the decoder evaluates on each of the fifteen words. -/
theorem decodeOfWrittenWords : Obligations.DecodeOfWrittenWords :=
  ⟨rfl, rfl, rfl, rfl, rfl, rfl, rfl, rfl, rfl, rfl, rfl, rfl, rfl, rfl, rfl⟩

end Sys2Proof.Machine

/-! SUPPORT. The event-queue commands (40_event_queue.md R103 to R108): what `ScheduleAt` and `Remove` leave of the entry
state as plain records, and the value of the flushed time. -/

namespace Sys2Proof.Machine

/-! The queue operations at a command's entry (40_event_queue.md R100, R102). -/

/-- A head is pending, so the strobe of `ScheduleAt` needs no look at `EVT[k].V` for it. -/
theorem pending_and_head (k : Fin 16) (s : State) :
    ((s.slot k).v && decide (headKind s = some k)) = decide (headKind s = some k) := by
  by_cases h : headKind s = some k
  · rw [(headKind_spec h).1, Bool.true_and]
  · rw [decide_eq_false h, Bool.and_false]

theorem scheduleAt_withStrobe (k : Fin 16) (t : U64) (s : State) :
    scheduleAt k t s =
      let evt := s.evt.set k { v := true, t := t, s := s.seqNext }
      withStrobe (decide (headKind s = some k) || decide (headKind { s with evt := evt } = some k)) (front s)
        { s with evt := evt, seqNext := sat64 (s.seqNext.toNat + 1) } := by
  have hhead : headKind (enqueue k t s) = headKind { s with evt := s.evt.set k { v := true, t := t, s := s.seqNext } } :=
    headKind_congr rfl rfl
  rw [scheduleAt_eq, hhead, pending_and_head]
  simp only [withStrobe, Bool.and_assoc]

theorem remove_withStrobe {k : Fin 16} {s : State} (hv : (s.slot k).v = true) :
    remove k s =
      withStrobe (decide (headKind s = some k)) (front s) { s with evt := s.evt.set k { s.slot k with v := false } } := by
  rw [remove_eq, pending_and_head, if_pos hv]
  simp only [withStrobe, Bool.and_assoc]

/-- Removing an absent kind does nothing. -/
theorem remove_absent {k : Fin 16} {s : State} (hv : (s.slot k).v = false) : remove k s = s := by
  rw [remove, hv, if_neg Bool.false_ne_true]

/-- What `SCHEDULE`, and `RESCHEDULE` of a present kind, do (40_event_queue.md R103, R105): the flush and the cleared
`RESULT` touch neither the queue nor the stack. -/
theorem scheduleAt_atEntry (k : Fin 16) (delay : U64) (s : State) :
    scheduleAt k (fireTime delay (atEntry s)) (atEntry s) =
      let evt := s.evt.set k { v := true, t := sat64 ((seenTime s).toNat + delay.toNat), s := s.seqNext }
      withStrobe (decide (headKind s = some k) || decide (headKind { s with evt := evt } = some k)) (front s)
        { s with result := 0, g := seenTime s, evt := evt, seqNext := sat64 (s.seqNext.toNat + 1) } :=
  scheduleAt_withStrobe k _ (atEntry s)

/-- A queue command on an external kind, in a phase that admits it. -/
theorem plainCommand_external_kind {i : Instr} {k : Fin 16} (body : State → State) {s : State}
    (hd : s.phase ≠ .dispatch) (ha : admitted i.opcode s.phase = true) (h : 5 ≤ k.val) :
    plainCommand i (onExternalKind i k body) s = .next (body (atEntry s)) := by
  have hexternal : isInternalKind k = false := decide_eq_false (by omega)
  rw [plainCommand_entry _ hd ha, onExternalKind, hexternal, if_neg Bool.false_ne_true]

/-- Settles O14: on an external kind the command is `ScheduleAt` at the entry state. -/
theorem scheduleCommand : Obligations.ScheduleCommand := by
  unfold Obligations.ScheduleCommand
  refine fun k delay s => ⟨fun hs => exec_bad_phase (List.mem_singleton.mpr hs), fun hlive hk => ?_, fun hlive hk => ?_⟩
  · exact plainCommand_reserved_kind _ hlive.ne_dispatch (admitted_live hlive rfl rfl rfl) hk
  · exact (plainCommand_external_kind _ hlive.ne_dispatch (admitted_live hlive rfl rfl rfl) hk).trans
      (congrArg _ (scheduleAt_atEntry k delay s))

/-- Settles O15: on an external kind the command is `Remove` at the entry state. -/
theorem cancelCommand : Obligations.CancelCommand := by
  unfold Obligations.CancelCommand
  intro k s
  have hremove : Live s → 5 ≤ k.val → exec (.cancel k) s = .next (remove k (atEntry s)) := fun hlive hk =>
    plainCommand_external_kind _ hlive.ne_dispatch (admitted_live hlive rfl rfl rfl) hk
  refine ⟨fun hs => exec_bad_phase (List.mem_singleton.mpr hs), fun hlive hk => ?_, fun hlive hk hv => ?_,
    fun hlive hk hv => ?_⟩
  · exact plainCommand_reserved_kind _ hlive.ne_dispatch (admitted_live hlive rfl rfl rfl) hk
  · exact (hremove hlive hk).trans (congrArg _ (remove_absent hv))
  · exact (hremove hlive hk).trans (congrArg _ (remove_withStrobe (s := atEntry s) hv))

/-- Settles O16: on an external kind the command is `ScheduleAt` at the entry state, if the kind is pending. -/
theorem rescheduleCommand : Obligations.RescheduleCommand := by
  unfold Obligations.RescheduleCommand
  intro k delay s
  have hentry : Live s → 5 ≤ k.val → exec (.reschedule k delay) s =
      .next (if (s.slot k).v then scheduleAt k (fireTime delay (atEntry s)) (atEntry s) else atEntry s) :=
    fun hlive hk => plainCommand_external_kind _ hlive.ne_dispatch (admitted_live hlive rfl rfl rfl) hk
  refine ⟨fun hs => exec_bad_phase (List.mem_singleton.mpr hs), fun hlive hk => ?_, fun hlive hk hv => ?_,
    fun hlive hk hv => ?_⟩
  · exact plainCommand_reserved_kind _ hlive.ne_dispatch (admitted_live hlive rfl rfl rfl) hk
  · rw [hentry hlive hk, hv, if_neg Bool.false_ne_true]
  · rw [hentry hlive hk, if_pos hv, scheduleAt_atEntry]

/-! The flushed time (41_run_loop.md R140). -/

theorem capAtHead_of_empty {s : State} (h : ∀ k, (s.slot k).v = false) (x : U64) : capAtHead s x = x := by
  rw [capAtHead, headTime, headKind_eq_none.mpr h, Option.map_none]

theorem capAtHead_of_head {s : State} {k : Fin 16} (h : headKind s = some k) (x : U64) :
    capAtHead s x = minU64 x (s.slot k).t := by
  rw [capAtHead, headTime, h, Option.map_some]

theorem seenTime_not_running {s : State} (h : s.phase ≠ .running) : seenTime s = s.g := if_neg h

theorem seenTime_running_empty {s : State} (h : s.phase = .running) (hempty : ∀ k, (s.slot k).v = false) :
    (seenTime s).toNat = max s.g.toNat (min (s.runBase.toNat + s.runElapsed.toNat) (2 ^ 64 - 1)) := by
  rw [seenTime, if_pos h, capAtHead_of_empty hempty, maxU64_toNat, sat64_toNat]

/-- A fire time is a `u64`, so the cap at the head makes that of the saturation needless. -/
theorem seenTime_running_head {s : State} (h : s.phase = .running) {k : Fin 16} (hk : headKind s = some k) :
    (seenTime s).toNat = max s.g.toNat (min (s.runBase.toNat + s.runElapsed.toNat) (s.slot k).t.toNat) := by
  have hlt := (s.slot k).t.isLt
  rw [seenTime, if_pos h, capAtHead_of_head hk, maxU64_toNat, minU64_toNat, sat64_toNat]
  omega

/-! The commands that answer a value (40_event_queue.md R106 to R108). -/

/-- A read that only answers a value of the entry state, in every phase (20_memory.md R66). -/
theorem plainCommand_answer {i : Instr} (r : State → U64) {s : State} (hr : isRead i = true)
    (hd : s.phase ≠ .dispatch) :
    plainCommand i (fun s0 => { s0 with result := r s0 }) s =
      .next { s with g := seenTime s, result := r (atEntry s) } :=
  plainCommand_entry _ hd (admitted_of_isRead hr hd)

/-- Settles O17: the answer is the time the command sees, fixed outside `RUNNING`, on an empty queue
and with a head. -/
theorem nowCommand : Obligations.NowCommand := by
  unfold Obligations.NowCommand
  intro s hd
  have hnow : exec .now s = .next { s with g := seenTime s, result := seenTime s } :=
    plainCommand_answer State.g rfl hd
  exact ⟨seenTime s, hnow, seenTime_not_running, seenTime_running_empty, fun h _ => seenTime_running_head h⟩

/-- Settles O18: both reads are admitted in every phase and read the slot at the entry state. -/
theorem rdEventCommands : Obligations.RdEventCommands := by
  unfold Obligations.RdEventCommands
  intro k s hd
  exact ⟨plainCommand_answer (fun s0 => if (s0.slot k).v then (s0.slot k).t else max64) rfl hd,
    plainCommand_answer (fun s0 => if (s0.slot k).v then (s0.slot k).s else max64) rfl hd⟩

end Sys2Proof.Machine

/-! SUPPORT. The Run Loop commands (41_run_loop.md R141 to R151): the model's loop walks the relation `Dispatches`, the
state in which `RUN_END` enters it as a plain record, and what a command does to the sequencer and the run's registers. -/

namespace Sys2Proof.Machine

/-! `Dispatch` as a relation (41_run_loop.md R141, R150). -/

/-- The fatal fault, as the relation records it. -/
theorem raiseFault_emptyQueueHalt (cw : U16) (s : State) : raiseFault .emptyQueue cw s = emptyQueueHalt cw s :=
  raiseFault_emptyQueue_eq cw s

/-- Each end of the loop is one of the relation's three ends, which pop no internal event. -/
theorem DispatchEnd.dispatches {cw : U16} {u t : State} (h : DispatchEnd cw u t) : Dispatches cw 0 u t := by
  rcases h with ⟨hnone, rfl⟩ | ⟨k, hk, hahead, rfl⟩ | ⟨k, hk, hdue, hext, rfl⟩
  · rw [raiseFault_emptyQueueHalt]
    exact .empty u (headKind_eq_none.mp hnone)
  · exact .grant u k hk hahead
  · exact .fire u k hk hdue hext

/-- A chain of internal callbacks before an end is a walk of the relation with as many pops. -/
theorem Pops.dispatches {cw : U16} {m : Nat} {s u t : State} (h : Pops m s u) (hend : DispatchEnd cw u t) :
    Dispatches cw m s t := by
  induction h with
  | done => exact hend.dispatches
  | @more m s s1 u k hk hdue hcb _ ih =>
    rcases internalCallback_cases hcb with ⟨n, rfl, rfl⟩ | ⟨rfl, rfl⟩
    · exact .timer s n hk hdue (ih hend)
    · exact .irq s hk hdue (ih hend)

/-- Settles O19: ten rounds are more than the due internal events can use up, and the chain of rounds is a walk of the
relation. -/
theorem dispatchEndsWithinNinePops : Obligations.DispatchEndsWithinNinePops := by
  unfold Obligations.DispatchEndsWithinNinePops
  intro cw s
  have hle := duePops_le { s with phase := .dispatch }
  obtain ⟨m, u, t, hm, hpops, hend, hd⟩ := dispatchLoop_ends cw 10 { s with phase := .dispatch } (Nat.lt_succ_of_le hle)
  exact ⟨m, t, hm.trans hle, hpops.dispatches hend, hd⟩

/-- `Dispatch` answers from every state, along the relation. -/
theorem dispatch_dispatches (cw : U16) (s : State) :
    ∃ m t, dispatch cw s = .next t ∧ Dispatches cw m { s with phase := .dispatch } t := by
  obtain ⟨m, t, -, hwalk, hd⟩ := dispatchEndsWithinNinePops cw s
  exact ⟨m, t, hd, hwalk⟩

/-- With nothing pending `Dispatch` halts at once (41_run_loop.md R149). -/
theorem dispatch_of_empty (cw : U16) {s : State} (h : ∀ k, (s.slot k).v = false) :
    dispatch cw s = .next (emptyQueueHalt cw s) := by
  have hnone : headKind { s with phase := .dispatch } = none := headKind_eq_none.mpr h
  rw [dispatch, dispatchLoop, hnone]
  exact congrArg _ (raiseFault_emptyQueueHalt cw _)

/-! `START` and `CALLBACK_DONE` (41_run_loop.md R146, R148). -/

theorem execStart_idle {s : State} (hs : s.phase = .idle) :
    exec .start s = dispatch 0x0016 { s with result := 0 } := by
  rw [← atEntry_of_not_running (by rw [hs]; decide)]
  exact command_entry _ (by rw [hs]; decide) (by rw [hs]; rfl)

theorem execCallbackDone_callback {s : State} (hs : s.phase = .callback) :
    exec .callbackDone s = dispatch 0x0009 { s with result := 0 } := by
  rw [← atEntry_of_not_running (by rw [hs]; decide)]
  exact command_entry _ (by rw [hs]; decide) (by rw [hs]; rfl)

/-- Settles O20: in `IDLE` the command is `Dispatch` with nothing to flush. -/
theorem startCommand : Obligations.StartCommand := by
  unfold Obligations.StartCommand
  refine fun s => ⟨fun hs => ?_, fun hs => exec_bad_phase (by simpa [barredPhases] using hs)⟩
  rw [execStart_idle hs]
  exact dispatch_dispatches _ _

/-- Settles O22: in `CALLBACK` the command is `Dispatch` with nothing to flush. -/
theorem callbackDoneCommand : Obligations.CallbackDoneCommand := by
  unfold Obligations.CallbackDoneCommand
  refine fun s => ⟨fun hs => ?_, fun hs => exec_bad_phase (by simpa [barredPhases] using hs)⟩
  rw [execCallbackDone_callback hs]
  exact dispatch_dispatches _ _

/-! `RUN_END` (41_run_loop.md R147). -/

theorem settleRun_charged {c : U64} {s : State} (h : s.runElapsed ≤ c) (cw : U16) :
    settleRun cw c s =
      { s.setLedger s.runDrv (sat64 ((s.ledgerOf s.runDrv).toNat + (c.toNat - s.runElapsed.toNat))) with
        runElapsed := c } :=
  if_neg (BitVec.not_lt.mpr h)

theorem settleRun_underreport {c : U64} {s : State} (h : ¬ s.runElapsed ≤ c) (cw : U16) :
    settleRun cw c s = raiseFault .runUnderreport cw s :=
  if_pos (BitVec.not_le.mp h)

/-- The word does not depend on the operand (30_encoding.md R80). -/
theorem runEnd_word (c : U64) : (Instr.runEnd c).word = 0x0008 := show commandWord .runEnd 0 = 0x0008 by decide

/-- The state in which `RUN_END` enters `Dispatch`: settled, committed, with no suspension asked for. -/
def runEndState (c : U64) (s : State) : State :=
  let s1 := settleRun (Instr.runEnd c).word c (atEntry s)
  { commitTime s1.runElapsed s1 with suspendReq := false }

theorem execRunEnd_running {s : State} (hs : s.phase = .running) (c : U64) :
    exec (.runEnd c) s = dispatch (Instr.runEnd c).word (runEndState c s) := by
  rw [exec, execRunEnd]
  exact command_entry _ (by rw [hs]; decide) (by rw [hs]; rfl)

theorem runEndState_rests (c : U64) (s : State) : Rests (atEntry s) (runEndState c s) :=
  (settleRun_quiet _ c (atEntry s)).toRests.trans (commitTime_rests _ _)

theorem capAtHead_congr {s t : State} (he : t.evt = s.evt) (hc : t.freeCtr = s.freeCtr) (x : U64) :
    capAtHead t x = capAtHead s x := by
  rw [capAtHead, capAtHead, headTime_congr he hc]

theorem capAtHead_mono (s : State) {x y : U64} (h : x ≤ y) : capAtHead s x ≤ capAtHead s y := by
  unfold capAtHead
  cases headTime s with
  | none => exact h
  | some t =>
    rw [BitVec.le_def] at h ⊢
    simp only [minU64_toNat]
    omega

/-- A run's flush does not show after a commit of at least the charged cycles (41_run_loop.md R140, R147). -/
theorem maxU64_seenTime {c : U64} {s : State} (hs : s.phase = .running) (hc : s.runElapsed ≤ c) :
    maxU64 (seenTime s) (capAtHead s (sat64 (s.runBase.toNat + c.toNat))) =
      maxU64 s.g (capAtHead s (sat64 (s.runBase.toNat + c.toNat))) := by
  have hcap := capAtHead_mono s (sat64_mono (Nat.add_le_add_left (BitVec.le_def.mp hc) s.runBase.toNat))
  rw [BitVec.le_def] at hcap
  rw [seenTime, if_pos hs]
  apply BitVec.eq_of_toNat_eq
  simp only [maxU64_toNat]
  omega

/-- So the state in which `RUN_END` enters `Dispatch` is the settled one with the commit taken from the time before it. -/
theorem runEndState_eq {s : State} (hs : s.phase = .running) (c : U64) :
    runEndState c s =
      let s1 := settleRun (Instr.runEnd c).word c (atEntry s)
      { s1 with g := maxU64 s.g (capAtHead s (sat64 (s.runBase.toNat + s1.runElapsed.toNat))), suspendReq := false } := by
  have hquiet := settleRun_quiet (Instr.runEnd c).word c (atEntry s)
  unfold runEndState
  generalize settleRun (Instr.runEnd c).word c (atEntry s) = u at hquiet
  have hfree : u.freeCtr = s.freeCtr := by rw [hquiet.frame]; rfl
  have hbase : u.runBase = s.runBase := hquiet.runBase
  have hg : u.g = seenTime s := hquiet.time
  simp only [commitTime, capAtHead_congr (s := s) hquiet.evt hfree, hbase, hg, maxU64_seenTime hs hquiet.elapsed]

/-- Settles O21: `settleRun` either charges the remainder or records the under-report, and the commit that follows swallows
the flush. -/
theorem runEndCommand : Obligations.RunEndCommand := by
  unfold Obligations.RunEndCommand
  intro c s
  rw [← runEnd_word c]
  refine ⟨fun hs => ?_, fun hs => exec_bad_phase (by simpa [barredPhases] using hs)⟩
  obtain ⟨m, t, hd, hwalk⟩ := dispatch_dispatches (Instr.runEnd c).word (runEndState c s)
  refine ⟨m, t, (execRunEnd_running hs c).trans hd, ?_⟩
  rw [runEndState_eq hs] at hwalk
  by_cases hle : s.runElapsed ≤ c
  · rw [settleRun_charged (s := atEntry s) hle] at hwalk
    simp only [if_pos hle]
    exact hwalk
  · rw [settleRun_underreport (s := atEntry s) hle, raiseFault_faulted (by decide) _ rfl] at hwalk
    simp only [if_neg hle]
    exact hwalk

/-! The trace of a command that enters `Dispatch` only grows (00_scope.md R16). -/

theorem Emits.trace_prefix {s t : State} (h : Emits s t) : s.trace <+: t.trace := by
  obtain ⟨new, e, -⟩ := h
  exact ⟨new, e.symm⟩

theorem callback_trace_prefix {s s1 : State} {k : Fin 16} (hcb : internalCallback k (pop k s) = some s1) :
    s.trace <+: s1.trace := by
  rcases internalCallback_cases hcb with ⟨n, -, rfl⟩ | ⟨-, rfl⟩
  · exact (timerOverflowEvent_emits n (pop k s)).trace_prefix
  · exact List.prefix_append _ _

theorem Pops.trace_prefix {m : Nat} {s u : State} (h : Pops m s u) : s.trace <+: u.trace :=
  h.keeps (P := fun v => s.trace <+: v.trace) (fun _ _ _ hv _ _ hcb => hv.trans (callback_trace_prefix hcb))
    (List.prefix_refl _)

theorem runEndState_trace_prefix (c : U64) (s : State) : s.trace <+: (runEndState c s).trace := by
  change s.trace <+: (settleRun (Instr.runEnd c).word c (atEntry s)).trace
  unfold settleRun
  split
  · exact (raiseFault_emits _ _ (atEntry s)).trace_prefix
  · exact List.prefix_refl _

theorem emptyQueueHalt_trace (cw : U16) (s : State) : ∃ pre, (emptyQueueHalt cw s).trace = s.trace ++ pre ++ [.halt] := by
  by_cases h : s.faultStatus = 0
  · exact ⟨[.faulted], by simp only [emptyQueueHalt, if_pos h, List.append_assoc, List.singleton_append]⟩
  · exact ⟨[], by simp only [emptyQueueHalt, if_neg h, List.append_nil]⟩

/-- Settles O24: the common sequence and the settlement of `RUN_END` leave the queue empty, and `Dispatch` halts at once. -/
theorem emptyQueueHalts : Obligations.EmptyQueueHalts := by
  unfold Obligations.EmptyQueueHalts
  refine fun s hempty => ⟨fun hs => ?_, fun hs => ?_, fun hs c => ?_⟩
  · rw [execStart_idle hs]; exact dispatch_of_empty _ hempty
  · rw [execCallbackDone_callback hs]; exact dispatch_of_empty _ hempty
  · have hempty' : ∀ k, ((runEndState c s).slot k).v = false := fun k => by
      rw [(runEndState_rests c s).slot]; exact hempty k
    obtain ⟨pre1, e1⟩ := runEndState_trace_prefix c s
    obtain ⟨pre2, e2⟩ := emptyQueueHalt_trace (Instr.runEnd c).word (runEndState c s)
    refine ⟨emptyQueueHalt (Instr.runEnd c).word (runEndState c s), pre1 ++ pre2, ?_, rfl, ?_, ?_⟩
    · rw [execRunEnd_running hs]; exact dispatch_of_empty _ hempty'
    · simp [emptyQueueHalt]
    · rw [e2, ← e1, List.append_assoc s.trace]

/-! The sequencer and the run's registers (41_run_loop.md R142; 10_state.md R22, R23, R25, R27). -/

/-- From `s` to `t` the run's registers keep their values. -/
structure RunKept (s t : State) : Prop where
  runDrv : t.runDrv = s.runDrv
  runBase : t.runBase = s.runBase
  runBudget : t.runBudget = s.runBudget

/-- From `s` to `t` the sequencer rests: the run's registers, the phase and the callback kind. -/
structure SequencerKept (s t : State) : Prop extends RunKept s t where
  phase : t.phase = s.phase
  cbKind : t.cbKind = s.cbKind

theorem RunKept.trans {s t u : State} (h1 : RunKept s t) (h2 : RunKept t u) : RunKept s u :=
  ⟨h2.runDrv.trans h1.runDrv, h2.runBase.trans h1.runBase, h2.runBudget.trans h1.runBudget⟩

theorem SequencerKept.trans {s t u : State} (h1 : SequencerKept s t) (h2 : SequencerKept t u) : SequencerKept s u :=
  ⟨h1.toRunKept.trans h2.toRunKept, h2.phase.trans h1.phase, h2.cbKind.trans h1.cbKind⟩

theorem Rests.sequencerKept {s t : State} (h : Rests s t) : SequencerKept s t := by
  rw [h.frame]; exact ⟨⟨rfl, rfl, rfl⟩, rfl, rfl⟩

theorem QueueFrame.sequencerKept {s t : State} (h : QueueFrame s t) : SequencerKept s t :=
  ⟨⟨h.runDrv, h.runBase, h.runBudget⟩, h.phase, h.cbKind⟩

/-- Every effect but `Dispatch` lets the sequencer rest. -/
theorem Effect.sequencerKept {i : Instr} {s t : State} (he : Effect i s t) (hi : ¬ entersDispatch i) :
    SequencerKept s t := by
  cases he with
  | quiet hq => exact hq.sequencerKept
  | schedule k x => exact (scheduleAt_frame k x s).sequencerKept
  | cancel k => exact (remove_frame k s).sequencerKept
  | raise m => exact (raiseSource_frame m s).sequencerKept
  | fold r => exact ⟨⟨rfl, rfl, rfl⟩, rfl, rfl⟩
  | write n x =>
    have hwrite : SequencerKept s { s with tmr := (syncBank s.params s.g s.tmr).set n x } := ⟨⟨rfl, rfl, rfl⟩, rfl, rfl⟩
    exact hwrite.trans (timerReschedule_frame _ _).sequencerKept
  | dispatch cw hi' => exact absurd hi' hi

/-- So does every command that does not enter `Dispatch`, barred ones included. -/
theorem exec_sequencerKept {i : Instr} {s t : State} (he : exec i s = .next t)
    (h : ¬ (entersDispatch i ∧ s.phase ∉ barredPhases i)) : SequencerKept s t := by
  by_cases hs : s.phase ∈ barredPhases i
  · rw [exec_bad_phase hs] at he
    obtain rfl := Host.Outcome.next.inj he
    exact ⟨⟨rfl, rfl, rfl⟩, rfl, rfl⟩
  · rcases exec_effect he with hq | heff
    · exact hq.sequencerKept
    · exact (atEntry_rests s).sequencerKept.trans (heff.sequencerKept fun hi => h ⟨hi, hs⟩)

/-- Where its phase does not bar it, a command that answers runs its own rule from the entry state. -/
theorem command_next_body {i : Instr} {body : State → Answer} {s t : State} (hs : s.phase ∉ barredPhases i)
    (he : command i body s = .next t) : body (atEntry s) = .next t := by
  rcases command_cases i body s with ⟨-, e⟩ | ⟨-, -, e⟩ | ⟨hd, ha, -⟩
  · rw [e] at he; cases he
  · rwa [e] at he
  · exact absurd ((mem_barredPhases_iff i s.phase).mpr ⟨hd, ha⟩) hs

/-- A command that enters `Dispatch` enters it with the queue, the timers and the sequencer as they were. -/
theorem exec_enters {i : Instr} {s t : State} (hi : entersDispatch i) (hs : s.phase ∉ barredPhases i)
    (he : exec i s = .next t) :
    ∃ cw u, Rests s u ∧ s.trace <+: u.trace ∧ dispatch cw u = .next t := by
  rcases hi with rfl | rfl | ⟨c, rfl⟩
  · exact ⟨_, _, atEntry_rests s, List.prefix_refl _, command_next_body hs he⟩
  · exact ⟨_, _, atEntry_rests s, List.prefix_refl _, command_next_body hs he⟩
  · refine ⟨(Instr.runEnd c).word, _, (atEntry_rests s).trans (runEndState_rests c s), runEndState_trace_prefix c s, ?_⟩
    rw [exec, execRunEnd] at he
    exact command_next_body hs he

/-- No end of `Dispatch` but a grant writes the run's registers. -/
theorem DispatchEnd.runKept {cw : U16} {u t : State} (h : DispatchEnd cw u t) (ht : t.phase ≠ .running) :
    RunKept u t := by
  rcases h with ⟨-, rfl⟩ | ⟨k, -, -, rfl⟩ | ⟨k, -, -, -, rfl⟩
  · rw [raiseFault_emptyQueue_eq]; exact ⟨rfl, rfl, rfl⟩
  · exact absurd rfl ht
  · exact ⟨rfl, rfl, rfl⟩

theorem dispatch_runKept {cw : U16} {s t : State} (hd : dispatch cw s = .next t) (ht : t.phase ≠ .running) :
    RunKept s t := by
  obtain ⟨m, u, hpops, hend⟩ := dispatch_next hd
  have hrounds : RunKept s u := ⟨hpops.frame.runDrv, hpops.frame.runBase, hpops.frame.runBudget⟩
  exact hrounds.trans (hend.runKept ht)

/-- What a grant leaves (41_run_loop.md R142): the run starts now, with the front driver, up to the head event. -/
structure Granted (u t : State) : Prop where
  runBase : t.runBase = t.g
  runElapsed : t.runElapsed = 0
  suspendReq : t.suspendReq = false
  active : t.isActive t.runDrv = true
  highest : ∀ d, t.isActive d = true → d.code ≤ t.runDrv.code
  head : ∃ k, headKind t = some k ∧ t.g < (t.slot k).t ∧ t.runBudget = (t.slot k).t - t.g
  trace : t.trace = u.trace ++ [.runGrant t.runDrv t.runBudget]

/-- The grant changes neither the stack nor the queue, so what held of `Front()` and the head holds after it. -/
theorem grant_granted {u : State} {k : Fin 16} (hk : headKind u = some k) (hahead : u.g < (u.slot k).t) :
    Granted u (grant (front u) ((u.slot k).t - u.g) u) where
  runBase := rfl
  runElapsed := rfl
  suspendReq := rfl
  active := (front_spec u).1
  highest := (front_spec u).2
  head := ⟨k, (headKind_congr rfl rfl).trans hk, hahead, rfl⟩
  trace := rfl

/-- `Dispatch` ends in `RUNNING` by a grant only. -/
theorem DispatchEnd.granted {cw : U16} {u t : State} (h : DispatchEnd cw u t) (ht : t.phase = .running) :
    Granted u t := by
  rcases h with ⟨-, rfl⟩ | ⟨k, hk, hahead, rfl⟩ | ⟨k, -, -, -, rfl⟩
  · rw [raiseFault_emptyQueue_eq] at ht; cases ht
  · exact grant_granted hk hahead
  · cases ht

/-- Settles O23: `Dispatch` ends in `RUNNING` by a grant to `Front()` up to the head; its other ends, its rounds and every
other command leave the run's registers alone. -/
theorem grantGoesToHighestDriver : Obligations.GrantGoesToHighestDriver := by
  unfold Obligations.GrantGoesToHighestDriver
  refine ⟨fun i s t hi hs he ht => ?_, fun i s t he h => ?_, fun i s t he h => ?_⟩
  · obtain ⟨cw, u, -, hprefix, hd⟩ := exec_enters hi hs he
    obtain ⟨m, v, hpops, hend⟩ := dispatch_next hd
    have hgrant := hend.granted ht
    obtain ⟨k, hk, hahead, hbudget⟩ := hgrant.head
    obtain ⟨pre, hpre⟩ := hprefix.trans hpops.trace_prefix
    exact ⟨hgrant.runBase, hgrant.runElapsed, hgrant.suspendReq, hgrant.active, hgrant.highest,
      k, pre, hk, hahead, hbudget, by rw [hgrant.trace, ← hpre]⟩
  · by_cases hi : entersDispatch i ∧ s.phase ∉ barredPhases i
    · obtain ⟨cw, u, hrests, -, hd⟩ := exec_enters hi.1 hi.2 he
      have hkept := hrests.sequencerKept.toRunKept.trans (dispatch_runKept hd fun ht => h ⟨hi.1, hi.2, ht⟩)
      exact ⟨hkept.runDrv, hkept.runBase, hkept.runBudget⟩
    · have hkept := exec_sequencerKept he hi
      exact ⟨hkept.runDrv, hkept.runBase, hkept.runBudget⟩
  · have hkept := exec_sequencerKept he h
    exact ⟨hkept.phase, hkept.cbKind⟩

/-! Time (41_run_loop.md R151). -/

/-- Settles O26: the invariant has every pending event at or after `G`, so neither a flush nor a pop takes time back. -/
theorem timeNeverDecreases : Obligations.TimeNeverDecreases := by
  unfold Obligations.TimeNeverDecreases
  intro i s t hinv he
  obtain ⟨-, -, hle⟩ := exec_keeps hinv.sound hinv.phased he
  exact hle

end Sys2Proof.Machine

/-! SUPPORT. The arbitration commands (42_driver_arbitration.md R171, R172): the front driver after one more driver is
active, a conditional strobe as a plain record, and which command writes which ledger (R174). -/

namespace Sys2Proof.Machine

/-! The stack (10_state.md R30 to R32). -/

/-- The active driver that no active driver outranks is the front. -/
theorem front_eq {s : State} {d : Driver} (hactive : s.isActive d = true)
    (hhighest : ∀ e, s.isActive e = true → e.code ≤ d.code) : front s = d := by
  obtain ⟨hfront, hmax⟩ := front_spec s
  exact Driver.code_injective (le_antisymm (hhighest _ hfront) (Fin.le_def.mpr (hmax d hactive)))

theorem isActive_setActive (s : State) (d e : Driver) :
    (s.setActive d).isActive e = (s.isActive e || decide (e = d)) := by
  have hbit : (1#5 <<< d.code.val).getLsbD e.code.val = decide (e = d) := by cases d <;> cases e <;> rfl
  simp only [State.isActive, State.activeMask, State.setActive_active, BitVec.getLsbD_or, hbit]
  exact Bool.or_right_comm _ _ _

/-- A driver put on the stack becomes the front exactly if it outranks the front (42_driver_arbitration.md R171). -/
theorem front_setActive (s : State) (d : Driver) :
    front (s.setActive d) = if (front s).code < d.code then d else front s := by
  obtain ⟨hfront, hmax⟩ := front_spec s
  split
  · rename_i hlt
    refine front_eq (by simp [isActive_setActive]) fun e he => ?_
    rw [isActive_setActive, Bool.or_eq_true, decide_eq_true_eq] at he
    rcases he with he | rfl
    · exact le_trans (Fin.le_def.mpr (hmax e he)) (le_of_lt hlt)
    · exact le_refl _
  · rename_i hle
    refine front_eq (by rw [isActive_setActive, hfront, Bool.true_or]) fun e he => ?_
    rw [isActive_setActive, Bool.or_eq_true, decide_eq_true_eq] at he
    rcases he with he | rfl
    · exact Fin.le_def.mpr (hmax e he)
    · exact not_lt.mp hle

theorem front_setActive_ne_iff {s : State} {d : Driver} :
    front (s.setActive d) ≠ front s ↔ (front s).code < d.code := by
  rw [front_setActive]
  split
  · rename_i hlt
    exact iff_of_true (fun h => absurd (h ▸ hlt) (lt_irrefl _)) hlt
  · rename_i hle
    exact iff_of_false (fun h => h rfl) hle

/-! The strobe (42_driver_arbitration.md R170). -/

theorem suspend_if_eq_withStrobe (p : Prop) [Decidable p] (d : Driver) (s : State) :
    (if p then suspend d s else s) = withStrobe (decide p) d s := by
  by_cases h : p <;> simp [h, suspend, withStrobe]

theorem engageDriver_absent {drv : Driver} {s : State} (h : s.isActive drv = false) :
    engageDriver drv s = withStrobe (decide ((front s).code < drv.code)) (front s) (s.setActive drv) := by
  rw [engageDriver, h, if_neg Bool.false_ne_true, suspend_if_eq_withStrobe]
  simp only [front_setActive_ne_iff]

theorem disengageDriver_active {drv : Driver} {s : State} (h : s.isActive drv = true) :
    disengageDriver drv s = withStrobe (decide (front s = drv)) drv (s.clearActive drv) := by
  rw [disengageDriver, if_pos h, suspend_if_eq_withStrobe]

/-! The commands (42_driver_arbitration.md R171, R172). -/

/-- A driver command on a code that names a driver, in a phase that admits it. -/
theorem plainCommand_on_driver {i : Instr} {d : Fin 8} {drv : Driver} (body : Driver → State → State) {s : State}
    (hd : s.phase ≠ .dispatch) (ha : admitted i.opcode s.phase = true) (h : driverOf d = some drv) :
    plainCommand i (onDriver i d body) s = .next (body drv (atEntry s)) := by
  rw [plainCommand_entry _ hd ha, onDriver, h]

/-- Settles O27: on a driver's code the command is `engageDriver` at the entry state, whose stack is the state's own, and
the front moves exactly if the new driver outranks it. -/
theorem engageCommand : Obligations.EngageCommand := by
  unfold Obligations.EngageCommand
  refine fun d s => ⟨fun hs => exec_bad_phase (List.mem_singleton.mpr hs), fun hlive hd => ?_, fun hlive drv hdrv => ?_⟩
  · exact plainCommand_bad_driver _ hlive.ne_dispatch (admitted_live hlive rfl rfl rfl) hd
  · have hexec : exec (.engage d) s = .next (engageDriver drv (atEntry s)) :=
      plainCommand_on_driver _ hlive.ne_dispatch (admitted_live hlive rfl rfl rfl) hdrv
    exact ⟨fun hactive => hexec.trans (congrArg _ (if_pos hactive)),
      fun habsent => hexec.trans (congrArg _ (engageDriver_absent (s := atEntry s) habsent))⟩

/-- Settles O28: on a driver's code other than `Cpu`'s the command is `disengageDriver` at the entry state, whose stack is
the state's own. -/
theorem disengageCommand : Obligations.DisengageCommand := by
  unfold Obligations.DisengageCommand
  intro d s
  have hexec : Live s → ∀ drv, driverOf d = some drv → exec (.disengage d) s =
      .next (if drv = .cpu then raiseFault .cpuDisengage (Instr.disengage d).word (atEntry s)
        else disengageDriver drv (atEntry s)) :=
    fun hlive _ hdrv => plainCommand_on_driver _ hlive.ne_dispatch (admitted_live hlive rfl rfl rfl) hdrv
  refine ⟨fun hs => exec_bad_phase (List.mem_singleton.mpr hs), fun hlive hd => ?_, fun hlive hd => ?_,
    fun hlive drv hdrv hcpu => ?_⟩
  · exact plainCommand_bad_driver _ hlive.ne_dispatch (admitted_live hlive rfl rfl rfl) hd
  · rw [hexec hlive .cpu (by rw [hd]; rfl), if_pos rfl]
    exact congrArg _ (raiseFault_faulted (by decide) _ rfl)
  · rw [hexec hlive drv hdrv, if_neg hcpu]
    refine ⟨fun habsent => ?_, fun hactive => congrArg _ (disengageDriver_active (s := atEntry s) hactive)⟩
    exact congrArg _ (if_neg (ne_true_of_eq_false habsent))

/-! Ledgers: what leaves them alone. -/

theorem raiseFault_ledger (c : FaultCode) (cw : U16) (s : State) : (raiseFault c cw s).ledger = s.ledger := by
  by_cases hc : c = .emptyQueue
  · rw [hc, raiseFault_emptyQueue_eq]
  · rw [raiseFault_eq hc]

theorem onDriver_ledger (i : Instr) (d : Fin 8) {body : Driver → State → State} {s : State}
    (hbody : ∀ drv, driverOf d = some drv → (body drv s).ledger = s.ledger) :
    (onDriver i d body s).ledger = s.ledger := by
  unfold onDriver
  split
  · exact raiseFault_ledger _ _ _
  · exact hbody _ ‹_›

theorem onExternalKind_ledger (i : Instr) (k : Fin 16) {body : State → State} {s : State}
    (hbody : (body s).ledger = s.ledger) : (onExternalKind i k body s).ledger = s.ledger := by
  unfold onExternalKind
  split
  · exact raiseFault_ledger _ _ _
  · exact hbody

theorem engageDriver_ledger (drv : Driver) (s : State) : (engageDriver drv s).ledger = s.ledger := by
  cases h : s.isActive drv
  · rw [engageDriver_absent h]; rfl
  · rw [engageDriver, if_pos h]

theorem disengageDriver_ledger (drv : Driver) (s : State) : (disengageDriver drv s).ledger = s.ledger := by
  cases h : s.isActive drv
  · rw [disengageDriver, if_neg (ne_true_of_eq_false h)]
  · rw [disengageDriver_active h]; rfl

/-- Neither the rounds nor the end of `Dispatch` charges anybody. -/
theorem dispatch_ledger {cw : U16} {s t : State} (hd : dispatch cw s = .next t) : t.ledger = s.ledger := by
  obtain ⟨m, u, hpops, hend⟩ := dispatch_next hd
  refine Eq.trans ?_ hpops.frame.ledger
  rcases hend with ⟨-, rfl⟩ | ⟨k, -, -, rfl⟩ | ⟨k, -, -, -, rfl⟩
  · exact raiseFault_ledger _ _ _
  · rfl
  · rfl

/-- A command that answers has run its own rule from the entry state, or has faulted `BAD_PHASE`. -/
theorem command_next {i : Instr} {body : State → Answer} {s t : State} (he : command i body s = .next t) :
    (admitted i.opcode s.phase = true ∧ body (atEntry s) = .next t) ∨ t = faulted 0x0002 i.word s := by
  rcases command_cases i body s with ⟨-, e⟩ | ⟨-, ha, e⟩ | ⟨hd, ha, -⟩
  · rw [e] at he; cases he
  · rw [e] at he; exact .inl ⟨ha, he⟩
  · rw [command_bad_phase body hd ha] at he; exact .inr (Host.Outcome.next.inj he).symm

theorem command_ledger {i : Instr} {body : State → Answer} {s t : State} (he : command i body s = .next t)
    (hbody : admitted i.opcode s.phase = true → body (atEntry s) = .next t → t.ledger = s.ledger) :
    t.ledger = s.ledger := by
  rcases command_next he with ⟨ha, hb⟩ | rfl
  · exact hbody ha hb
  · rfl

theorem plainCommand_ledger {i : Instr} {body : State → State} {s t : State} (he : plainCommand i body s = .next t)
    (hbody : (body (atEntry s)).ledger = s.ledger) : t.ledger = s.ledger :=
  command_ledger he fun _ h => by rwa [← Host.Outcome.next.inj h]

theorem execRdStatus_ledger {sel : Fin 16} {s t : State} (he : execRdStatus sel s = .next t) : t.ledger = s.ledger := by
  unfold execRdStatus at he
  split at he
  · exact plainCommand_ledger he rfl
  · obtain rfl := Host.Outcome.next.inj he
    exact raiseFault_ledger _ _ { s with result := 0 }

/-! Single mastership (42_driver_arbitration.md R174). -/

/-- The commands that write a ledger: in `RUNNING`, the running driver's `CHARGE` and `RUN_END`. -/
def ChargesRun (i : Instr) (s : State) : Prop :=
  s.phase = .running ∧ ((∃ e n, i = .charge e n ∧ driverOf e = some s.runDrv) ∨ ∃ c, i = .runEnd c)

/-- From `s` to `t` the running driver's ledger grows by `n`, saturated, and no other ledger changes. -/
def RunCharged (n : Nat) (s t : State) : Prop :=
  t.ledger = (s.setLedger s.runDrv (sat64 ((s.ledgerOf s.runDrv).toNat + n))).ledger

theorem RunCharged.of_ledger_eq {s t : State} (h : t.ledger = s.ledger) : RunCharged 0 s t := by
  rw [RunCharged, h, Nat.add_zero, sat64_toNat_self]
  exact (Vector.set_getElem_self _).symm

theorem RunCharged.ledgerOf {n : Nat} {s t : State} (h : RunCharged n s t) (d : Driver) :
    t.ledgerOf d = if d = s.runDrv then sat64 ((s.ledgerOf s.runDrv).toNat + n) else s.ledgerOf d := by
  have hread : t.ledgerOf d = (s.setLedger s.runDrv (sat64 ((s.ledgerOf s.runDrv).toNat + n))).ledgerOf d := by
    rw [State.ledgerOf, h, ← State.ledgerOf]
  split
  · rename_i hd
    rw [hread, hd, State.ledgerOf_setLedger_self]
  · rename_i hd
    rw [hread, State.ledgerOf_setLedger_ne s _ hd]

theorem running_of_admitted_runEnd {p : Phase} (h : admitted .runEnd p = true) : p = .running := by
  revert h; cases p <;> decide

/-- Every other command leaves all ledgers alone. -/
theorem exec_ledger_kept {i : Instr} {s t : State} (he : exec i s = .next t) (hi : ¬ ChargesRun i s) :
    t.ledger = s.ledger := by
  unfold exec at he
  cases i with
  | charge d n =>
    refine plainCommand_ledger he (onDriver_ledger _ _ fun drv hdrv => ?_)
    have hnot : ¬ ((atEntry s).phase = .running ∧ drv = (atEntry s).runDrv) := fun h =>
      hi ⟨h.1, .inl ⟨d, n, rfl, hdrv.trans (congrArg some h.2)⟩⟩
    rw [if_neg hnot]
    exact raiseFault_ledger _ _ _
  | runEnd c =>
    exact command_ledger he fun ha _ => absurd ⟨running_of_admitted_runEnd ha, .inr ⟨c, rfl⟩⟩ hi
  | schedule k delay => exact plainCommand_ledger he (onExternalKind_ledger _ _ (scheduleAt_frame _ _ _).ledger)
  | cancel k => exact plainCommand_ledger he (onExternalKind_ledger _ _ (remove_frame _ _).ledger)
  | reschedule k delay =>
    refine plainCommand_ledger he (onExternalKind_ledger _ _ ?_)
    split
    · exact (scheduleAt_frame _ _ _).ledger
    · rfl
  | engage d => exact plainCommand_ledger he (onDriver_ledger _ _ fun _ _ => engageDriver_ledger _ _)
  | disengage d =>
    refine plainCommand_ledger he (onDriver_ledger _ _ fun _ _ => ?_)
    split
    · exact raiseFault_ledger _ _ _
    · exact disengageDriver_ledger _ _
  | rdLedger d => exact plainCommand_ledger he (onDriver_ledger _ _ fun _ _ => rfl)
  | callbackDone | start => exact command_ledger he fun _ hd => dispatch_ledger (s := atEntry s) hd
  | tmrWrReload n v | tmrWrControl n w => exact plainCommand_ledger he (timerReschedule_frame _ _).ledger
  | raiseIrq m => exact plainCommand_ledger he (raiseSource_frame _ _).ledger
  | rdStatus sel => exact execRdStatus_ledger he
  | now | tmrRdCounter n | tmrRdControl n | tmrRdReload n | tmrRdNextOvf n | rdEventTime k | rdEventSeq k | clrFault =>
    exact plainCommand_ledger he rfl

theorem settleRun_runCharged (cw : U16) (c : U64) (s : State) : ∃ n, RunCharged n s (settleRun cw c s) := by
  by_cases hc : s.runElapsed ≤ c
  · exact ⟨_, by rw [settleRun_charged hc]; rfl⟩
  · exact ⟨0, .of_ledger_eq (by rw [settleRun_underreport hc, raiseFault_ledger])⟩

/-- Those commands charge the running driver only. -/
theorem exec_runCharged {i : Instr} {s t : State} (he : exec i s = .next t) (hi : ChargesRun i s) :
    ∃ n, RunCharged n s t := by
  obtain ⟨hrun, ⟨d, n, rfl, hd⟩ | ⟨c, rfl⟩⟩ := hi
  · have hlive : Live s := .inr (.inl hrun)
    rw [exec, execCharge,
      plainCommand_on_driver _ hlive.ne_dispatch (admitted_live hlive rfl rfl rfl) hd] at he
    obtain rfl := Host.Outcome.next.inj he
    have hown : (atEntry s).phase = .running ∧ s.runDrv = (atEntry s).runDrv := ⟨hrun, rfl⟩
    exact ⟨n.toNat, by rw [if_pos hown]; rfl⟩
  · rw [execRunEnd_running hrun] at he
    obtain ⟨n, hsettle⟩ := settleRun_runCharged (Instr.runEnd c).word c (atEntry s)
    exact ⟨n, (dispatch_ledger he).trans hsettle⟩

/-- Settles O31: only the running driver's `CHARGE` and `RUN_END` write a ledger, the running driver's, and a saturated
sum is not below its first term. -/
theorem onlyTheRunningLedgerGrows : Obligations.OnlyTheRunningLedgerGrows := by
  unfold Obligations.OnlyTheRunningLedgerGrows
  intro i s t he d
  by_cases hi : ChargesRun i s
  · obtain ⟨n, hcharged⟩ := exec_runCharged he hi
    rw [hcharged.ledgerOf d]
    split
    · rename_i hd
      exact ⟨hd ▸ le_sat64_add _ _, fun _ => ⟨hi.1, hd, hi.2⟩⟩
    · exact ⟨BitVec.le_refl _, fun h => absurd rfl h⟩
  · have hsame : t.ledgerOf d = s.ledgerOf d := by rw [State.ledgerOf, exec_ledger_kept he hi, ← State.ledgerOf]
    exact ⟨hsame ▸ BitVec.le_refl _, fun h => absurd hsame h⟩

end Sys2Proof.Machine

/-! SUPPORT. The ticks of a fold spelled out (43_timer_cascade.md R192, R193, R195): `Advance` one count at a time
and as a sum, the timers a fold leaves alone, and the chain of a timer at its overflow. -/

namespace Sys2Proof.Machine

/-! `Advance` (43_timer_cascade.md R192). -/

/-- One count: from `0xFFFF` an overflow that loads the reload. -/
theorem advance_one (v r : U16) : advance v r 1 = if v = 0xFFFF then (r, 1) else (v + 1, 0) := by
  have hv := v.isLt
  by_cases htop : v = 0xFFFF
  · subst htop
    simp [advance]
  · have hlt : v.toNat ≠ 0xFFFF := fun h => htop (BitVec.eq_of_toNat_eq h)
    have hcount : BitVec.ofNat 16 (v.toNat + 1) = v + 1 := by simp [BitVec.ofNat_add]
    rw [if_neg htop, advance, if_pos (by omega), hcount]

/-- Settles O33, by induction on the counts: `Advance` adds up, and one more tick is one more count. -/
theorem advanceIsRepeatedCount : Obligations.AdvanceIsRepeatedCount := by
  unfold Obligations.AdvanceIsRepeatedCount
  intro v r k
  induction k with
  | zero => exact advance_zero v r
  | succ k ih =>
    rw [advance_add, ih, advance_one, countUp]
    split <;> rfl

/-- The value after `k` ticks: the sum, or past `0xFFFF` what is left of it in whole periods above the reload. -/
theorem advance_value_toNat (v r : U16) (k : Nat) :
    (advance v r k).1.toNat =
      if v.toNat + k < 0x10000 then v.toNat + k
      else r.toNat + (v.toNat + k - 0x10000) % (0x10000 - r.toNat) := by
  have hv := v.isLt
  have hr := r.isLt
  unfold advance
  simp only [Nat.reducePow]
  by_cases hk : v.toNat + k < 0x10000
  · rw [if_pos (by omega), if_pos hk, BitVec.toNat_ofNat, Nat.mod_eq_of_lt hk]
  · have hrest := Nat.mod_lt (v.toNat + k - 0x10000) (y := 0x10000 - r.toNat) (by omega)
    have hspent : k - (0x10000 - v.toNat) = v.toNat + k - 0x10000 := by omega
    rw [if_neg (by omega), if_neg hk, hspent, BitVec.toNat_ofNat, Nat.mod_eq_of_lt (by omega)]

/-- The ticks to the next overflow and `m` whole periods more leave the counter at its reload. -/
theorem advance_whole_periods (v r : U16) (m : Nat) :
    advance v r ((2 ^ 16 - v.toNat) + m * (2 ^ 16 - r.toNat)) = (r, m + 1) := by
  have hv := v.isLt
  have hbal : (2 ^ 16 - r.toNat) + ((2 ^ 16 - v.toNat) + m * (2 ^ 16 - r.toNat)) =
      (2 ^ 16 - v.toNat) + (m + 1) * (2 ^ 16 - r.toNat) := by
    rw [Nat.add_mul]; omega
  obtain ⟨hvalue, hovf⟩ :=
    advance_unique (advance_balance v r _) (advance_bound v r _) hbal (.inr (Nat.le_refl _))
  exact Prod.ext hvalue hovf

/-! The fold (43_timer_cascade.md R193, R209). -/

/-- Settles O34: the ticks and the anchor of every timer add up over the two folds. -/
theorem foldInvariance : Obligations.FoldInvariance := by
  unfold Obligations.FoldInvariance
  intro p ts t u hb htu
  exact syncBank_syncBank hb htu

/-- A timer that does not count takes no tick: it is disabled, or its predecessor does not overflow. -/
theorem foldTicks_of_not_counting (p : Params) (t : U64) (ts : TimerBank) :
    ∀ n h, countingFrom ts n h = false → foldTicks p t ts n h = 0
  | 0, _, hc => if_neg (Bool.eq_false_iff.mp hc)
  | n + 1, h, hc => by
    unfold foldTicks
    split
    · rename_i he
      obtain ⟨hcas, hprev⟩ : ts[n + 1].ctrl.cascade = true ∧ countingFrom ts n (by omega) = false := by
        simpa [countingFrom, he] using hc
      rw [if_pos hcas, foldTicks_of_not_counting p t ts n (by omega) hprev, Timer.overflows_zero]
    · rfl

theorem syncBank_value (p : Params) (t : U64) (ts : TimerBank) (n : Fin 4) :
    (syncBank p t ts)[n].value = (advance ts[n].value ts[n].reload (foldTicks p t ts n.val n.isLt)).1 := by
  rw [syncBank_get]; rfl

/-- An enabled root takes its whole prescaler ticks. -/
theorem foldTicks_root (p : Params) (t : U64) {ts : TimerBank} {r : Fin 4} (hr : isRoot ts r = true)
    (he : ts[r].ctrl.en = true) : foldTicks p t ts r.val r.isLt = rootTicks p t ts r :=
  (foldCounts_foldTicks p t ts).root r hr he

/-- The anchor after a fold, by the ticks the timer takes in it. -/
theorem foldTref_eq_foldTicks (p : Params) (t : U64) (ts : TimerBank) (n : Fin 4) :
    foldTref p t ts n =
      if isRoot ts n = true ∧ ts[n].ctrl.en = true then
        sat64 (ts[n].tref.toNat + foldTicks p t ts n.val n.isLt * psOf p ts n)
      else ts[n].tref := by
  by_cases hroot : isRoot ts n = true ∧ ts[n].ctrl.en = true
  · rw [if_pos hroot, foldTref, if_pos (Bool.and_eq_true_iff.mpr hroot), foldTicks_root p t hroot.1 hroot.2]
  · rw [if_neg hroot, foldTref, if_neg (mt Bool.and_eq_true_iff.mp hroot)]

/-! The chain at an overflow (43_timer_cascade.md R195). -/

theorem tickCycles_pos (p : Params) (ts : TimerBank) : ∀ n h, 0 < tickCycles p ts n h
  | 0, _ => psOf_pos p ts 0
  | n + 1, h => by
    simp only [tickCycles]
    split
    · exact periodFrom_pos p ts n _
    · exact psOf_pos p ts _

/-- A fold to the very time at which `need` ticks of a timer are done gives it those ticks. -/
theorem foldTicks_of_overflowFrom_eq {p : Params} {t : U64} {ts : TimerBank} (hb : RootsBehind t ts) {n : Nat}
    {h : n < 4} {need : Nat} (hneed : 1 ≤ need) (hc : countingFrom ts n h = true)
    (ht : t.toNat = overflowFrom p ts n h need) : foldTicks p t ts n h = need := by
  have hdone : ¬ foldTicks p t ts n h < need := fun hlt =>
    absurd ((foldTicks_lt hb n h need hneed hc).mp hlt) (by omega)
  have hnext : foldTicks p t ts n h < need + 1 := by
    refine (foldTicks_lt hb n h (need + 1) (by omega) hc).mpr ?_
    have hcycles := tickCycles_pos p ts n h
    rw [overflowFrom_add p ts n h need 1 hneed, ← ht]
    omega
  omega

/-- At an overflow of a timer, the next one or one `m` periods later, it holds its reload. -/
theorem value_at_overflow {p : Params} {t : U64} {ts : TimerBank} (hb : RootsBehind t ts) {n m : Nat} {h : n < 4}
    (hc : countingFrom ts n h = true)
    (ht : t.toNat = overflowFrom p ts n h (ticksLeft ts ⟨n, h⟩ + m * cme ts ⟨n, h⟩)) :
    (syncBank p t ts)[(⟨n, h⟩ : Fin 4)].value = ts[(⟨n, h⟩ : Fin 4)].reload := by
  have hpos := ticksLeft_pos ts ⟨n, h⟩
  rw [syncBank_value, foldTicks_of_overflowFrom_eq hb (by omega) hc ht]
  exact congrArg Prod.fst (advance_whole_periods _ _ m)

/-- At such an overflow every timer of the chain does: the timer's last tick is an overflow of its
predecessor at the same time. -/
theorem chain_at_reload {p : Params} {t : U64} {ts : TimerBank} (hb : RootsBehind t ts) :
    ∀ n h m, countingFrom ts n h = true →
      t.toNat = overflowFrom p ts n h (ticksLeft ts ⟨n, h⟩ + m * cme ts ⟨n, h⟩) →
      ∀ j, rootFrom ts n h ≤ j → j.val ≤ n → (syncBank p t ts)[j].value = ts[j].reload := by
  intro n
  induction n with
  | zero =>
    intro h m hc ht j _ hj
    obtain rfl : j = ⟨0, h⟩ := Fin.ext (Nat.le_zero.mp hj)
    exact value_at_overflow hb hc ht
  | succ n ih =>
    intro h m hc ht j hr hj
    by_cases hjn : j.val = n + 1
    · obtain rfl : j = ⟨n + 1, h⟩ := Fin.ext hjn
      exact value_at_overflow hb hc ht
    · cases hcas : ts[n + 1].ctrl.cascade with
      | false =>
        rw [rootFrom, hcas, if_neg Bool.false_ne_true, Fin.le_def] at hr
        simp only at hr
        omega
      | true =>
        have hprev : countingFrom ts n (by omega) = true := by
          simp only [countingFrom, hcas, Bool.and_eq_true, Bool.not_true, Bool.false_or] at hc; exact hc.2
        rw [rootFrom, if_pos hcas] at hr
        rw [overflowFrom, if_pos hcas] at ht
        exact ih (by omega) _ hprev ht j hr (by omega)

/-- Below the horizon the next overflow time is not saturated. -/
theorem overflowFrom_of_nextOverflowTime {p : Params} {ts : TimerBank} {n : Fin 4} {f : U64}
    (hf : nextOverflowTime p ts n = f) (hlt : f < max64) :
    f.toNat = overflowFrom p ts n.val n.isLt (ticksLeft ts n) := by
  rw [BitVec.lt_def, max64_toNat] at hlt
  have hsat := congrArg BitVec.toNat hf
  rw [nextOverflowTime, sat64_toNat] at hsat
  omega

/-- Settles O36: below the horizon the overflow is at the time R194 counts, where the whole chain is at its reloads. -/
theorem periodAfterOverflow : Obligations.PeriodAfterOverflow := by
  unfold Obligations.PeriodAfterOverflow
  intro p ts n f hb hc hf hlt
  have hat := overflowFrom_of_nextOverflowTime hf hlt
  refine ⟨fun j hr hj => ?_, nextOverflowTime_fold_at hb hc hat⟩
  exact chain_at_reload hb n.val n.isLt 0 hc (by rw [Nat.zero_mul, Nat.add_zero]; exact hat) j hr hj

end Sys2Proof.Machine

/-! SUPPORT. The timer commands and the overflow callback (43_timer_cascade.md R198 to R206): the reads that fold, the
timer as a control write leaves it, and both insertions of the callback as plain records. -/

namespace Sys2Proof.Machine

/-! The reads (43_timer_cascade.md R202 to R205). -/

/-- A read that folds the timers and answers a value of the folded state, in every phase (20_memory.md R66). -/
theorem plainCommand_fold_answer {i : Instr} (r : State → U64) {s : State} (hr : isRead i = true)
    (hd : s.phase ≠ .dispatch) :
    plainCommand i (fun s0 => let s1 := timerSyncAll s0.g s0; { s1 with result := r s1 }) s =
      .next { s with g := seenTime s, tmr := syncBank s.params (seenTime s) s.tmr
                     result := r (timerSyncAll (seenTime s) (atEntry s)) } :=
  plainCommand_entry _ hd (admitted_of_isRead hr hd)

/-- Settles O37: every timer takes the ticks `foldTicks` counts as R193 does; they are none for a timer that does not
count and the whole prescaler ticks for an enabled root. -/
theorem tmrRdCounterCommand : Obligations.TmrRdCounterCommand := by
  unfold Obligations.TmrRdCounterCommand
  intro n s hd
  refine ⟨plainCommand_fold_answer (fun s1 => (s1.timer n).value.setWidth 64) rfl hd, fun hc => ?_, fun hr he => ?_,
    _, foldCounts_foldTicks s.params (seenTime s) s.tmr, fun j => ?_⟩
  · rw [syncBank_value, foldTicks_of_not_counting _ _ _ _ _ hc, advance_zero]
    rfl
  · rw [syncBank_value, advance_value_toNat, foldTicks_root _ _ hr he]
    rfl
  · rw [syncBank_get, foldTref_eq_foldTicks]
    rfl

/-- The four fields of the control word fit in it. -/
theorem ctrlToWord_toNat (c : TimerCtrl) :
    (ctrlToWord c).toNat = c.en.toNat * 0x80 + c.irqen.toNat * 0x40 + c.cascade.toNat * 4 + c.ps.toNat := by
  have hen := Bool.toNat_le c.en
  have hirq := Bool.toNat_le c.irqen
  have hcas := Bool.toNat_le c.cascade
  have hps := c.ps.isLt
  rw [ctrlToWord, BitVec.toNat_ofNat, Nat.mod_eq_of_lt (by omega)]

/-- Settles O38: both reads are admitted in every phase and read the timer at the entry state. -/
theorem tmrRdControlAndReload : Obligations.TmrRdControlAndReload := by
  unfold Obligations.TmrRdControlAndReload
  intro n s hd
  exact ⟨⟨_, plainCommand_answer (fun s0 => ctrlToWord (s0.timer n).ctrl) rfl hd, ctrlToWord_toNat _⟩,
    plainCommand_answer (fun s0 => (s0.timer n).reload.setWidth 64) rfl hd⟩

/-- Settles O39: no fold changes which timers count. -/
theorem tmrRdNextOvfCommand : Obligations.TmrRdNextOvfCommand := by
  unfold Obligations.TmrRdNextOvfCommand
  intro n s hd
  rw [← counting_syncBank s.params (seenTime s)]
  exact plainCommand_fold_answer
    (fun s1 => if counting s1.tmr n then nextOverflowTime s1.params s1.tmr n else max64) rfl hd

/-! The writes (43_timer_cascade.md R198 to R201). -/

/-- Settles O40: in a live phase the command is the fold, the write and `TimerReschedule` at the entry state. -/
theorem tmrWrReloadCommand : Obligations.TmrWrReloadCommand := by
  unfold Obligations.TmrWrReloadCommand
  intro n v s
  refine ⟨fun hp => ?_, fun hlive => ⟨_, ?_, timerReschedule_rewritten n _ s⟩⟩
  · rw [exec, execTmrWrReload, plainCommand_bad_phase _ (by rw [hp]; decide) (by rw [hp]; rfl)]
  · rw [exec, execTmrWrReload, plainCommand_entry _ hlive.ne_dispatch (admitted_live hlive rfl rfl rfl)]
    rfl

/-- `TMR_WR_CONTROL` in a live phase: the fold, the write and `TimerReschedule` at the entry state. -/
theorem execTmrWrControl_live (n : Fin 4) (w : U16) {s : State} (h : Live s) :
    let b := syncBank s.params (seenTime s) s.tmr
    ∃ t, exec (.tmrWrControl n w) s = .next t ∧
      TimersRewritten n (b.set n (writeCtrl n w (seenTime s) b[n])) s t := by
  refine ⟨_, ?_, timerReschedule_rewritten n _ s⟩
  rw [exec, execTmrWrControl, plainCommand_entry _ h.ne_dispatch (admitted_live h rfl rfl rfl)]
  rfl

/-- The write enables a disabled timer (43_timer_cascade.md R198). -/
abbrev Enables (w : U16) (x : Timer) : Prop := x.ctrl.en = false ∧ (ctrlOfWord w).en = true

/-- The write restarts the phase of a timer it leaves enabled (43_timer_cascade.md R199). -/
abbrev Restarts (n : Fin 4) (w : U16) (x : Timer) : Prop :=
  (ctrlOfWord w).en = true ∧ (n = 0 ∨ (ctrlOfWord w).cascade = false) ∧
    (x.ctrl.ps ≠ (ctrlOfWord w).ps ∨ ¬ (n = 0 ∨ x.ctrl.cascade = false))

/-- The timer as a control write leaves it. -/
theorem writeCtrl_eq (n : Fin 4) (w : U16) (g : U64) (x : Timer) :
    writeCtrl n w g x =
      { x with ctrl := ctrlOfWord w
               value := if Enables w x then x.reload else x.value
               tref := if Enables w x ∨ Restarts n w x then g else x.tref } := by
  have hen : (!x.ctrl.en && (ctrlOfWord w).en) = true ↔ Enables w x := by simp
  have hrs : ((ctrlOfWord w).en && (decide (n = 0) || !(ctrlOfWord w).cascade) &&
      (decide (x.ctrl.ps ≠ (ctrlOfWord w).ps) || !(decide (n = 0) || !x.ctrl.cascade))) = true ↔
      Restarts n w x := by simp [and_assoc]
  simp only [writeCtrl, hen, hrs]
  by_cases he : Enables w x
  · rw [if_pos he, if_pos he, if_pos (.inl he)]
  · rw [if_neg he, if_neg he]
    by_cases hr : Restarts n w x
    · rw [if_pos hr, if_pos (.inr hr)]
    · rw [if_neg hr, if_neg (not_or.mpr ⟨he, hr⟩)]

/-- The stored control, field by field (43_timer_cascade.md R190). -/
theorem ctrlOfWord_eq (w : U16) :
    ctrlOfWord w =
      { en := w.getLsbD 7, cascade := w.getLsbD 2, ps := w.extractLsb' 0 2, irqen := w.getLsbD 6 } := by
  rw [ctrlOfWord, BitVec.setWidth_eq_extractLsb' (by decide)]

/-- Settles O41: a control write enables the timer, restarts its phase or does neither, and `TimerReschedule`
follows. -/
theorem tmrWrControlCommand : Obligations.TmrWrControlCommand := by
  unfold Obligations.TmrWrControlCommand
  intro n w s
  refine ⟨fun hp => ?_, fun hlive => ?_⟩
  · rw [exec, execTmrWrControl, plainCommand_bad_phase _ (by rw [hp]; decide) (by rw [hp]; rfl)]
  · obtain ⟨t, hexec, hrewritten⟩ := execTmrWrControl_live n w hlive
    simp only [← ctrlOfWord_eq]
    rw [writeCtrl_eq] at hrewritten
    refine ⟨_, t, hexec, hrewritten, rfl, rfl, fun hen => ⟨if_pos hen, if_pos (.inl hen)⟩, fun hne => if_neg hne,
      fun _ hrs => if_pos (.inr hrs), fun hne hrs => if_neg (not_or.mpr ⟨hne, hrs⟩)⟩

/-! The control word (43_timer_cascade.md R190). -/

/-- The fields of a control in the places of the word's layout. -/
def ctrlLayout (c : TimerCtrl) : BitVec 8 :=
  BitVec.ofBool c.en ++ BitVec.ofBool c.irqen ++ 0#3 ++ BitVec.ofBool c.cascade ++ c.ps

theorem ctrlToWord_eq_layout (c : TimerCtrl) : ctrlToWord c = (ctrlLayout c).setWidth 64 := by
  obtain ⟨en, cascade, ps, irqen⟩ := c
  revert en cascade ps irqen
  decide

/-- The mask leaves of a word its four fields, all in the low byte. -/
theorem ctrlLayout_ctrlOfWord (w : U16) : (ctrlLayout (ctrlOfWord w)).setWidth 64 = (w &&& 0x00C7).setWidth 64 := by
  have hbyte : ctrlLayout (ctrlOfWord w) = (w &&& 0x00C7).setWidth 8 := by
    have hbits : ∀ v : BitVec 8, ctrlLayout (ctrlOfWord (v.setWidth 16)) = v &&& 0xC7 := by decide
    rw [BitVec.setWidth_and]
    exact .trans (by simp [ctrlLayout, ctrlOfWord]) (hbits (w.setWidth 8))
  have hlow : (w &&& 0x00C7).toNat ≤ 0x00C7 := by
    rw [BitVec.toNat_and]; exact Nat.and_le_right
  apply BitVec.eq_of_toNat_eq
  rw [hbyte, BitVec.toNat_setWidth, BitVec.toNat_setWidth, BitVec.toNat_setWidth,
    Nat.mod_eq_of_lt (a := (w &&& 0x00C7).toNat) (b := 2 ^ 8) (by omega)]

/-- Settles O42: the read finds the control the write stored, whose word is its layout. -/
theorem controlWordReadsBack : Obligations.ControlWordReadsBack := by
  unfold Obligations.ControlWordReadsBack
  intro n w s hlive
  obtain ⟨t, hexec, hrewritten⟩ := execTmrWrControl_live n w hlive
  have hphase : t.phase = s.phase := by rw [hrewritten.frame]
  have hctrl : (t.timer n).ctrl = ctrlOfWord w := by
    rw [State.timer, hrewritten.frame]
    simp [writeCtrl_eq]
  refine ⟨t, _, hexec, plainCommand_answer (fun s0 => ctrlToWord (s0.timer n).ctrl) rfl
    (by rw [hphase]; exact hlive.ne_dispatch), ?_⟩
  change ctrlToWord (t.timer n).ctrl = _
  rw [hctrl, ctrlToWord_eq_layout, ctrlLayout_ctrlOfWord]

/-! The overflow callback (43_timer_cascade.md R206). -/

theorem timerSource_ne_zero (p : Params) (n : Fin 4) : timerSource p n ≠ 0 := by
  unfold timerSource
  generalize p.timerSrcBit[n] = bit
  revert bit
  decide

/-- `RaiseSource(m)` as a plain record (60_exceptions.md R277). -/
theorem raiseSource_withStrobe {m : U16} (hm : m ≠ 0) (s : State) :
    raiseSource m s =
      let raised := { s with irqPending := s.irqPending ||| m }
      let evt := s.evt.set irqKind { v := true, t := sat64 (s.g.toNat + s.params.irqDelay), s := s.seqNext }
      if (s.slot irqKind).v = true then raised
      else
        withStrobe (decide (headKind { s with evt := evt } = some irqKind)) (front s)
          { raised with evt := evt, seqNext := sat64 (s.seqNext.toNat + 1) } := by
  rcases raiseSource_cases m s with ⟨h0, -⟩ | ⟨-, hv, h⟩ | ⟨-, hv, h⟩
  · exact absurd h0 hm
  · rw [h, if_pos hv]
  · rw [h, insert_withStrobe, hv, if_neg Bool.false_ne_true]
    rfl

/-- After a fold to `g` a next overflow short of the horizon lies after `g` (43_timer_cascade.md R194, R206). -/
theorem lt_nextOverflowTime_syncBank {p : Params} {g : U64} {ts : TimerBank} {n : Fin 4}
    (h : ToHaveEvent p (syncBank p g ts) n) : g < nextOverflowTime p (syncBank p g ts) n := by
  obtain ⟨hc, -, hlt⟩ := h
  rw [counting_syncBank] at hc
  rw [BitVec.lt_def, overflowFrom_of_nextOverflowTime rfl hlt]
  exact lt_overflow_syncBank hc

/-- The source the callback raises, on the timers folded to now (43_timer_cascade.md R206). -/
def overflowRaised (n : Fin 4) (s : State) : State := raiseSource (timerSource s.params n) (timerSyncAll s.g s)

/-- Raising a source leaves the timers and the parameters, so the callback asks of the folded bank whether the timer is
to have an event. -/
theorem timerOverflowEvent_eq (n : Fin 4) (s : State) :
    timerOverflowEvent n s =
      if wantsEvent s.params (syncBank s.params s.g s.tmr) n then
        insert (timerKind n) (nextOverflowTime s.params (syncBank s.params s.g s.tmr) n) (overflowRaised n s)
      else overflowRaised n s := by
  have hframe := raiseSource_frame (timerSource s.params n) (timerSyncAll s.g s)
  simp only [timerOverflowEvent, overflowRaised, hframe.params, hframe.tmr, timerSyncAll_params, timerSyncAll_tmr]

/-- Settles O43: the source is raised on the folded state, and the timer's event is inserted after it. -/
theorem timerOverflowCallback : Obligations.TimerOverflowCallback := by
  unfold Obligations.TimerOverflowCallback
  intro n s _
  have hframe : QueueFrame (timerSyncAll s.g s) (overflowRaised n s) := raiseSource_frame _ _
  have hraised := raiseSource_withStrobe (timerSource_ne_zero s.params n) (timerSyncAll s.g s)
  extract_lets t b raised delivery evt posted again evt'
  have hposted : overflowRaised n s = posted := hraised
  have ht : t = if wantsEvent s.params b n then insert (timerKind n) again.t posted else posted := by
    rw [← hposted]; exact timerOverflowEvent_eq n s
  rw [hposted] at hframe
  refine ⟨fun hw => ⟨lt_nextOverflowTime_syncBank hw, ?_⟩, fun hw => ?_⟩
  · have hhead : headKind { posted with evt := evt' } = headKind { s with evt := evt' } :=
      headKind_congr rfl hframe.freeCtr
    have hfront : front posted = front s := front_of_active hframe.active
    rw [ht, if_pos ((wantsEvent_iff _ _ _).mpr hw), insert_withStrobe, hfront, ← hhead]
  · rw [ht, if_neg (mt (wantsEvent_iff _ _ _).mp hw)]

end Sys2Proof.Machine

/-! SUPPORT. Bus cycle accounting (44_bus_accounting.md R240 to R243): the ledger commands, what a charge adds to the sum
of the ledgers, and the time the ledgers have to cover along a command. -/

namespace Sys2Proof.Machine

/-! The commands (44_bus_accounting.md R240, R241). -/

/-- Settles O29: on a driver's code the command charges or faults at the entry state, whose phase and running driver are
the state's own. -/
theorem chargeCommand : Obligations.ChargeCommand := by
  unfold Obligations.ChargeCommand
  refine fun d n s => ⟨fun hs => exec_bad_phase (List.mem_singleton.mpr hs), fun hlive hd => ?_,
    fun hlive drv hdrv hnot => ?_, fun hrun hdrv => ?_⟩
  · exact plainCommand_bad_driver _ hlive.ne_dispatch (admitted_live hlive rfl rfl rfl) hd
  · refine (plainCommand_on_driver _ hlive.ne_dispatch (admitted_live hlive rfl rfl rfl) hdrv).trans (congrArg _ ?_)
    exact (if_neg hnot).trans (raiseFault_faulted (by decide) _ rfl)
  · have hlive : Live s := .inr (.inl hrun)
    refine (plainCommand_on_driver _ hlive.ne_dispatch (admitted_live hlive rfl rfl rfl) hdrv).trans (congrArg _ ?_)
    exact if_pos ⟨hrun, rfl⟩

/-- Settles O30: the read is admitted in every phase and answers the ledger at the entry state. -/
theorem rdLedgerCommand : Obligations.RdLedgerCommand := by
  unfold Obligations.RdLedgerCommand
  refine fun d s hd => ⟨fun hcode => ?_, fun drv hdrv => ?_⟩
  · exact plainCommand_bad_driver _ hd (admitted_of_isRead rfl hd) hcode
  · exact plainCommand_on_driver _ hd (admitted_of_isRead rfl hd) hdrv

/-! The sum of the ledgers (44_bus_accounting.md R243). -/

theorem ledgerSum_eq (s : State) :
    ledgerSum s = (s.ledgerOf .cpu).toNat + (s.ledgerOf .dma0).toNat + (s.ledgerOf .dma1).toNat +
      (s.ledgerOf .dma2).toNat + (s.ledgerOf .dma3).toNat := by
  have hlist : ∀ v : Vector U64 5, v.toList = [v[0], v[1], v[2], v[3], v[4]] := fun v =>
    List.ext_getElem (by simp) fun i hi _ => by
      have : i < 5 := by simpa using hi
      interval_cases i <;> simp
  rw [ledgerSum, hlist]
  simp only [List.map_cons, List.map_nil, List.sum_cons, List.sum_nil, ← Nat.add_assoc, Nat.add_zero]
  rfl

/-- A charge that saturates no ledger fits the running driver's. -/
theorem RunCharged.fits {n : Nat} {s t : State} (h : RunCharged n s t) (ht : LedgersUnsaturated t) :
    (s.ledgerOf s.runDrv).toNat + n < 2 ^ 64 - 1 := by
  have hlt := ht s.runDrv
  rw [h.ledgerOf, if_pos rfl, BitVec.lt_def, sat64_toNat, max64_toNat] at hlt
  omega

theorem RunCharged.unsaturated {n : Nat} {s t : State} (h : RunCharged n s t) (ht : LedgersUnsaturated t) :
    LedgersUnsaturated s := by
  intro d
  by_cases hd : d = s.runDrv
  · have hfits := h.fits ht
    rw [hd, BitVec.lt_def, max64_toNat]
    omega
  · have hlt := ht d
    rwa [h.ledgerOf, if_neg hd] at hlt

/-- It adds exactly its cycles to the sum. -/
theorem RunCharged.ledgerSum_eq {n : Nat} {s t : State} (h : RunCharged n s t) (ht : LedgersUnsaturated t) :
    ledgerSum t = ledgerSum s + n := by
  have hrun : (t.ledgerOf s.runDrv).toNat = (s.ledgerOf s.runDrv).toNat + n := by
    rw [h.ledgerOf, if_pos rfl, sat64_of_lt (lt_of_lt_of_le (h.fits ht) (Nat.sub_le _ _))]
  have hother : ∀ d, d ≠ s.runDrv → t.ledgerOf d = s.ledgerOf d := fun d hd => by rw [h.ledgerOf, if_neg hd]
  rw [Machine.ledgerSum_eq, Machine.ledgerSum_eq]
  generalize s.runDrv = d at hrun hother
  cases d <;> simp only [hrun, hother, ne_eq, reduceCtorEq, not_false_eq_true] <;> omega

/-! The time the ledgers have to cover (44_bus_accounting.md R243). -/

/-- The time the ledgers have to cover: `G`, and while a run is open the end of what it has been charged. -/
def timeToCover (s : State) : Nat :=
  if s.phase = .running then s.runBase.toNat + s.runElapsed.toNat else s.g.toNat

theorem timeToCover_running {s : State} (h : s.phase = .running) :
    timeToCover s = s.runBase.toNat + s.runElapsed.toNat := if_pos h

theorem timeToCover_not_running {s : State} (h : s.phase ≠ .running) : timeToCover s = s.g.toNat := if_neg h

/-- The flush moves `G` inside the window of the run, whose end it leaves alone (41_run_loop.md R140). -/
theorem timeToCover_atEntry (s : State) : timeToCover (atEntry s) = timeToCover s := by
  by_cases h : s.phase = .running
  · rw [timeToCover_running h, timeToCover_running (s := atEntry s) h]; rfl
  · rw [atEntry_of_not_running h]; rfl

/-- `G` never passes it (10_state.md R45 item 5). -/
theorem Phased.time_le_timeToCover {s : State} (h : Phased s) : s.g.toNat ≤ timeToCover s := by
  by_cases hrun : s.phase = .running
  · have hhi := (h.runWindow hrun).2
    rw [BitVec.le_def, sat64_toNat] at hhi
    rw [timeToCover_running hrun]
    omega
  · rw [timeToCover_not_running hrun]

/-- From `s` to `t` the running driver's ledger grows by at least as much as the time the ledgers have to cover. -/
def ChargesTime (s t : State) : Prop := ∃ n, RunCharged n s t ∧ timeToCover t ≤ timeToCover s + n

theorem ChargesTime.of_ledger_eq {s t : State} (hledger : t.ledger = s.ledger) (hle : timeToCover t ≤ timeToCover s) :
    ChargesTime s t := ⟨0, .of_ledger_eq hledger, hle⟩

theorem ChargesTime.ledgersCoverTime {s t : State} (h : ChargesTime s t) (hs : LedgersCoverTime s) :
    LedgersCoverTime t := by
  intro ht
  obtain ⟨n, hcharged, hle⟩ := h
  have hsum : timeToCover s ≤ ledgerSum s := hs (hcharged.unsaturated ht)
  change timeToCover t ≤ ledgerSum t
  rw [hcharged.ledgerSum_eq ht]
  omega

/-! `CHARGE` and the commands that enter `Dispatch`. -/

/-- What is charged goes both to the ledger and to the run. -/
theorem execCharge_chargesTime {d : Fin 8} {n : U64} {s t : State} (hrun : s.phase = .running)
    (hd : driverOf d = some s.runDrv) (he : exec (.charge d n) s = .next t) : ChargesTime s t := by
  obtain ⟨-, -, -, hcharge⟩ := chargeCommand d n s
  rw [hcharge hrun hd] at he
  obtain rfl := Host.Outcome.next.inj he
  refine ⟨n.toNat, rfl, ?_⟩
  rw [timeToCover_running hrun, timeToCover_running (by exact hrun)]
  simp only [sat64_toNat]
  omega

/-- `Dispatch` takes no time, and a run it grants starts now, with nothing charged (41_run_loop.md R142). -/
theorem dispatch_timeToCover {cw : U16} {s t : State} (hs : Sound s) (hd : dispatch cw s = .next t) :
    timeToCover t = s.g.toNat := by
  have htime : t.g = s.g := (dispatch_rounds hs hd).1.time
  by_cases hrun : t.phase = .running
  · obtain ⟨m, u, -, hend⟩ := dispatch_next hd
    have hgrant := hend.granted hrun
    rw [timeToCover_running hrun, hgrant.runBase, hgrant.runElapsed, htime]
    rfl
  · rw [timeToCover_not_running hrun, htime]

/-- `START` and `CALLBACK_DONE` enter `Dispatch` as the common sequence leaves the state. -/
theorem dispatch_atEntry_chargesTime {cw : U16} {s t : State} (hs : Sound s) (hp : Phased s)
    (hd : dispatch cw (atEntry s) = .next t) : ChargesTime s t := by
  refine .of_ledger_eq (dispatch_ledger (s := atEntry s) hd) ?_
  rw [dispatch_timeToCover ((atEntry_rests s).sound hs) hd, ← timeToCover_atEntry s]
  exact hp.atEntry.time_le_timeToCover

/-- The settlement of `RUN_END` adds as much to the ledger as to the run (41_run_loop.md R147). -/
theorem settleRun_charges (cw : U16) (c : U64) (s : State) :
    ∃ n, RunCharged n s (settleRun cw c s) ∧ (settleRun cw c s).runElapsed.toNat = s.runElapsed.toNat + n := by
  by_cases hc : s.runElapsed ≤ c
  · rw [settleRun_charged hc]
    exact ⟨_, rfl, (Nat.add_sub_cancel' (BitVec.le_def.mp hc)).symm⟩
  · rw [settleRun_underreport hc, raiseFault_eq (by decide)]
    exact ⟨0, .of_ledger_eq rfl, rfl⟩

/-- `RUN_END` commits no more than the run consumed. -/
theorem execRunEnd_chargesTime {c : U64} {s t : State} (hrun : s.phase = .running) (hs : Sound s) (hp : Phased s)
    (he : exec (.runEnd c) s = .next t) : ChargesTime s t := by
  rw [execRunEnd_running hrun] at he
  have hsound := (runEndState_rests c s).sound ((atEntry_rests s).sound hs)
  obtain ⟨n, hcharged, helapsed⟩ := settleRun_charges (Instr.runEnd c).word c (atEntry s)
  refine ⟨n, (dispatch_ledger he).trans hcharged, ?_⟩
  have hcap := (capAtHead_le s
    (sat64 (s.runBase.toNat + (settleRun (Instr.runEnd c).word c (atEntry s)).runElapsed.toNat))).1
  have helapsed' : (settleRun (Instr.runEnd c).word c (atEntry s)).runElapsed.toNat = s.runElapsed.toNat + n := helapsed
  have hg := hp.time_le_timeToCover
  rw [timeToCover_running hrun] at hg
  rw [dispatch_timeToCover hsound he, timeToCover_running hrun, runEndState_eq hrun]
  rw [BitVec.le_def, sat64_toNat] at hcap
  simp only [maxU64_toNat]
  omega

/-! Every other command. -/

theorem raiseFault_runElapsed (c : FaultCode) (cw : U16) (s : State) :
    (raiseFault c cw s).runElapsed = s.runElapsed := by
  by_cases hc : c = .emptyQueue
  · rw [hc, raiseFault_emptyQueue_eq]
  · rw [raiseFault_eq hc]

theorem onDriver_runElapsed (i : Instr) (d : Fin 8) {body : Driver → State → State} {s : State}
    (hbody : ∀ drv, driverOf d = some drv → (body drv s).runElapsed = s.runElapsed) :
    (onDriver i d body s).runElapsed = s.runElapsed := by
  unfold onDriver
  split
  · exact raiseFault_runElapsed _ _ _
  · exact hbody _ ‹_›

theorem onExternalKind_runElapsed (i : Instr) (k : Fin 16) {body : State → State} {s : State}
    (hbody : (body s).runElapsed = s.runElapsed) : (onExternalKind i k body s).runElapsed = s.runElapsed := by
  unfold onExternalKind
  split
  · exact raiseFault_runElapsed _ _ _
  · exact hbody

theorem engageDriver_runElapsed (drv : Driver) (s : State) : (engageDriver drv s).runElapsed = s.runElapsed := by
  cases h : s.isActive drv
  · rw [engageDriver_absent h]; rfl
  · rw [engageDriver, if_pos h]

theorem disengageDriver_runElapsed (drv : Driver) (s : State) :
    (disengageDriver drv s).runElapsed = s.runElapsed := by
  cases h : s.isActive drv
  · rw [disengageDriver, if_neg (ne_true_of_eq_false h)]
  · rw [disengageDriver_active h]; rfl

theorem plainCommand_runElapsed {i : Instr} {body : State → State} {s t : State}
    (he : plainCommand i body s = .next t) (hbody : (body (atEntry s)).runElapsed = s.runElapsed) :
    t.runElapsed = s.runElapsed := by
  rcases command_next he with ⟨-, h⟩ | rfl
  · rwa [← Host.Outcome.next.inj h]
  · rfl

theorem execRdStatus_runElapsed {sel : Fin 16} {s t : State} (he : execRdStatus sel s = .next t) :
    t.runElapsed = s.runElapsed := by
  unfold execRdStatus at he
  split at he
  · exact plainCommand_runElapsed he rfl
  · obtain rfl := Host.Outcome.next.inj he
    exact raiseFault_runElapsed _ _ { s with result := 0 }

/-- Only an accepted `CHARGE` and the commands that enter `Dispatch` write `RUN_ELAPSED` (10_state.md R24). -/
theorem exec_runElapsed_kept {i : Instr} {s t : State} (he : exec i s = .next t) (henters : ¬ entersDispatch i)
    (hi : ¬ ChargesRun i s) : t.runElapsed = s.runElapsed := by
  unfold exec at he
  cases i with
  | charge d n =>
    refine plainCommand_runElapsed he (onDriver_runElapsed _ _ fun drv hdrv => ?_)
    have hnot : ¬ ((atEntry s).phase = .running ∧ drv = (atEntry s).runDrv) := fun ⟨hrun, hown⟩ =>
      hi ⟨hrun, .inl ⟨d, n, rfl, hdrv.trans (congrArg some hown)⟩⟩
    rw [if_neg hnot]
    exact raiseFault_runElapsed _ _ _
  | schedule k delay =>
    exact plainCommand_runElapsed he (onExternalKind_runElapsed _ _ (scheduleAt_frame _ _ _).runElapsed)
  | cancel k => exact plainCommand_runElapsed he (onExternalKind_runElapsed _ _ (remove_frame _ _).runElapsed)
  | reschedule k delay =>
    refine plainCommand_runElapsed he (onExternalKind_runElapsed _ _ ?_)
    split
    · exact (scheduleAt_frame _ _ _).runElapsed
    · rfl
  | engage d => exact plainCommand_runElapsed he (onDriver_runElapsed _ _ fun _ _ => engageDriver_runElapsed _ _)
  | disengage d =>
    refine plainCommand_runElapsed he (onDriver_runElapsed _ _ fun _ _ => ?_)
    split
    · exact raiseFault_runElapsed _ _ _
    · exact disengageDriver_runElapsed _ _
  | rdLedger d => exact plainCommand_runElapsed he (onDriver_runElapsed _ _ fun _ _ => rfl)
  | runEnd c => exact absurd (.inr (.inr ⟨c, rfl⟩)) henters
  | callbackDone => exact absurd (.inr (.inl rfl)) henters
  | start => exact absurd (.inl rfl) henters
  | tmrWrReload n v | tmrWrControl n w => exact plainCommand_runElapsed he (timerReschedule_frame _ _).runElapsed
  | raiseIrq m => exact plainCommand_runElapsed he (raiseSource_frame _ _).runElapsed
  | rdStatus sel => exact execRdStatus_runElapsed he
  | now | tmrRdCounter n | tmrRdControl n | tmrRdReload n | tmrRdNextOvf n | rdEventTime k | rdEventSeq k | clrFault =>
    exact plainCommand_runElapsed he rfl

/-- No effect but `Dispatch` takes time. -/
theorem Effect.time_kept {i : Instr} {s t : State} (he : Effect i s t) (hi : ¬ entersDispatch i) : t.g = s.g := by
  cases he with
  | quiet hq => exact hq.time
  | schedule k x => exact (scheduleAt_frame k x s).g
  | cancel k => exact (remove_frame k s).g
  | raise m => exact (raiseSource_frame m s).g
  | fold r => rfl
  | write n x => exact (timerReschedule_frame _ { s with tmr := (syncBank s.params s.g s.tmr).set n x }).g
  | dispatch cw hi' => exact absurd hi' hi

/-- So with no run to flush, time stands still in every command that does not enter `Dispatch`. -/
theorem exec_time_kept {i : Instr} {s t : State} (he : exec i s = .next t) (hi : ¬ entersDispatch i)
    (hrun : s.phase ≠ .running) : t.g = s.g := by
  rcases exec_effect he with hq | heff
  · exact hq.time
  · exact (heff.time_kept hi).trans (seenTime_not_running hrun)

theorem exec_timeToCover_kept {i : Instr} {s t : State} (he : exec i s = .next t) (henters : ¬ entersDispatch i)
    (hi : ¬ ChargesRun i s) : timeToCover t = timeToCover s := by
  have hkept := exec_sequencerKept he fun h => henters h.1
  by_cases hrun : s.phase = .running
  · rw [timeToCover_running hrun, timeToCover_running (hkept.phase.trans hrun), hkept.runBase,
      exec_runElapsed_kept he henters hi]
  · rw [timeToCover_not_running hrun, timeToCover_not_running (by rwa [hkept.phase]), exec_time_kept he henters hrun]

/-! Every command and every step. -/

theorem exec_chargesTime_of_kept {i : Instr} {s t : State} (he : exec i s = .next t) (henters : ¬ entersDispatch i)
    (hi : ¬ ChargesRun i s) : ChargesTime s t :=
  .of_ledger_eq (exec_ledger_kept he hi) (le_of_eq (exec_timeToCover_kept he henters hi))

theorem exec_chargesTime {i : Instr} {s t : State} (hs : Sound s) (hp : Phased s) (he : exec i s = .next t) :
    ChargesTime s t := by
  by_cases hbarred : s.phase ∈ barredPhases i
  · rw [exec_bad_phase hbarred] at he
    obtain rfl := Host.Outcome.next.inj he
    exact .of_ledger_eq rfl (le_refl _)
  · by_cases henters : entersDispatch i
    · rcases henters with rfl | rfl | ⟨c, rfl⟩
      · exact dispatch_atEntry_chargesTime hs hp (command_next_body hbarred he)
      · exact dispatch_atEntry_chargesTime hs hp (command_next_body hbarred he)
      · have hadmitted : admitted .runEnd s.phase = true := by
          simpa [mem_barredPhases_iff, hp.stable, Instr.opcode] using hbarred
        exact execRunEnd_chargesTime (running_of_admitted_runEnd hadmitted) hs hp he
    · by_cases hi : ChargesRun i s
      · obtain ⟨hrun, ⟨d, n, rfl, hd⟩ | ⟨c, rfl⟩⟩ := hi
        · exact execCharge_chargesTime hrun hd he
        · exact absurd (.inr (.inr ⟨c, rfl⟩)) henters
      · exact exec_chargesTime_of_kept he henters hi

/-- Settles O32: reset has no time to cover, and every command charges at least the time it adds. -/
theorem ledgersCoverTimeKept : Obligations.LedgersCoverTimeKept := by
  unfold Obligations.LedgersCoverTimeKept
  intro s t hinv hcover he
  rcases step_cases s with ⟨-, e⟩ | ⟨rest, -, e⟩ | ⟨c, rest, i, -, -, e⟩ | ⟨c, rest, err, -, -, e⟩ <;> rw [e] at he
  · obtain rfl := Host.Outcome.next.inj he
    exact hcover
  · obtain rfl := Host.Outcome.next.inj he
    exact fun _ => Nat.zero_le _
  · have hcharges := exec_chargesTime hinv.sound.congr (hinv.phased.takeCommand rest) he
    exact hcharges.ledgersCoverTime hcover
  · obtain rfl := Host.Outcome.next.inj he
    rw [illegalCommand_faulted]
    exact hcover

end Sys2Proof.Machine

/-! SUPPORT. Interrupt raise, status and fault control (45_status_irq.md R255 to R257): the words of the status map that
are made of several elements, field by field. -/

namespace Sys2Proof.Machine

/-! The commands that raise and clear (45_status_irq.md R255, R257). -/

theorem raiseIrq_word (m : U16) : (Instr.raiseIrq m).word = 0x0010 := show commandWord .raiseIrq 0 = 0x0010 by decide

/-- Settles O45: in a live phase the command is `RaiseSource` at the entry state, whose queue, stack and parameters are
the state's own. -/
theorem raiseIrqCommand : Obligations.RaiseIrqCommand := by
  unfold Obligations.RaiseIrqCommand
  intro m s
  have hentry : Live s → exec (.raiseIrq m) s = .next (raiseSource m (atEntry s)) := fun hlive =>
    plainCommand_entry _ hlive.ne_dispatch (admitted_live hlive rfl rfl rfl)
  refine ⟨fun hs => ?_, fun hlive hm => ?_, fun hlive hm hv => ?_,
    fun hlive hm hv => ?_⟩
  · rw [← raiseIrq_word m]
    exact exec_bad_phase (List.mem_singleton.mpr hs)
  · rw [hentry hlive, raiseSource, if_pos hm]
  · rw [hentry hlive, raiseSource_withStrobe hm]
    exact congrArg Host.Outcome.next (if_pos hv)
  · rw [hentry hlive, raiseSource_withStrobe hm]
    exact congrArg _ (if_neg (ne_true_of_eq_false hv))

/-- Settles O47: the command is admitted in every phase and clears the fault register of the entry state. -/
theorem clrFaultCommand : Obligations.ClrFaultCommand := by
  unfold Obligations.ClrFaultCommand
  exact fun s hd => plainCommand_entry (i := .clrFault) _ hd (admitted_any hd rfl rfl rfl rfl)

/-! `PHASEWORD` (10_state.md R43, selector 2). -/

theorem Phase.code_lt (p : Phase) : p.code < 8 := by cases p <;> decide

/-- The numbers in the word fit their places. -/
theorem phaseWord_bounds (s : State) :
    s.phase.code < 8 ∧ (if s.phase = .running then s.runDrv.code.val else 0) < 8 ∧
      (if s.phase = .callback then s.cbKind.val else 0) < 16 ∧ s.suspendReq.toNat < 2 :=
  ⟨s.phase.code_lt, by split <;> omega, by split <;> omega, Bool.toNat_lt _⟩

theorem phaseWord_toNat (s : State) :
    (phaseWord s).toNat =
      s.phase.code + (if s.phase = .running then s.runDrv.code.val else 0) * 2 ^ 4 +
        (if s.phase = .callback then s.cbKind.val else 0) * 2 ^ 8 + s.suspendReq.toNat * 2 ^ 12 := by
  obtain ⟨hphase, hdrv, hkind, hsuspend⟩ := phaseWord_bounds s
  rw [phaseWord, BitVec.toNat_ofNat, Nat.mod_eq_of_lt (by omega)]

/-- Each field reads back. -/
theorem phaseWord_fields (s : State) :
    ((phaseWord s).extractLsb' 0 3).toNat = s.phase.code ∧
    ((phaseWord s).extractLsb' 4 3).toNat = (if s.phase = .running then s.runDrv.code.val else 0) ∧
    ((phaseWord s).extractLsb' 8 4).toNat = (if s.phase = .callback then s.cbKind.val else 0) ∧
    (phaseWord s).getLsbD 12 = s.suspendReq := by
  obtain ⟨hphase, hdrv, hkind, hsuspend⟩ := phaseWord_bounds s
  simp only [BitVec.extractLsb'_toNat, Nat.shiftRight_eq_div_pow, ← BitVec.testBit_toNat,
    Nat.testBit_eq_decide_div_mod_eq, phaseWord_toNat]
  refine ⟨by omega, by omega, by omega, ?_⟩
  cases hs : s.suspendReq
  · exact decide_eq_false (by rw [Bool.toNat_false]; omega)
  · exact decide_eq_true (by rw [Bool.toNat_true]; omega)

/-- The word's layout: its fields with the reserved bits between and above them. -/
def phaseLayout (phase drv : BitVec 3) (kind : BitVec 4) (suspend : Bool) : BitVec (51 + 1 + 4 + 1 + 3 + 1 + 3) :=
  0#51 ++ BitVec.ofBool suspend ++ kind ++ 0#1 ++ drv ++ 0#1 ++ phase

theorem toNat_append_eq_add {m n : Nat} (x : BitVec m) (y : BitVec n) :
    (x ++ y).toNat = x.toNat * 2 ^ n + y.toNat := by
  rw [BitVec.toNat_append, ← Nat.shiftLeft_add_eq_or_of_lt y.isLt, Nat.shiftLeft_eq]

theorem phaseLayout_toNat (phase drv : BitVec 3) (kind : BitVec 4) (suspend : Bool) :
    (phaseLayout phase drv kind suspend).toNat =
      phase.toNat + drv.toNat * 2 ^ 4 + kind.toNat * 2 ^ 8 + suspend.toNat * 2 ^ 12 := by
  simp only [phaseLayout, toNat_append_eq_add, BitVec.toNat_ofBool, BitVec.toNat_ofNat]
  omega

/-- The mask of the reserved bits, cut at the fields of the layout, meets only its zeros. -/
theorem phaseLayout_reserved (phase drv : BitVec 3) (kind : BitVec 4) (suspend : Bool) :
    phaseLayout phase drv kind suspend &&& ~~~0x1F77 = 0 := by
  have hmask : ~~~(0x1F77 : BitVec (51 + 1 + 4 + 1 + 3 + 1 + 3)) =
      BitVec.allOnes 51 ++ 0#1 ++ 0#4 ++ 1#1 ++ 0#3 ++ 1#1 ++ 0#3 := by decide
  rw [hmask, phaseLayout]
  simp only [BitVec.and_append, BitVec.and_zero, BitVec.zero_and]
  rfl

theorem phaseWord_reserved (s : State) : phaseWord s &&& ~~~0x1F77#64 = 0 := by
  obtain ⟨hphase, hdrv, hkind, -⟩ := phaseWord_bounds s
  have hlayout : phaseWord s =
      phaseLayout (BitVec.ofNat 3 s.phase.code) (BitVec.ofNat 3 (if s.phase = .running then s.runDrv.code.val else 0))
        (BitVec.ofNat 4 (if s.phase = .callback then s.cbKind.val else 0)) s.suspendReq := by
    apply BitVec.eq_of_toNat_eq
    rw [phaseWord_toNat, phaseLayout_toNat, BitVec.toNat_ofNat, BitVec.toNat_ofNat, BitVec.toNat_ofNat,
      Nat.mod_eq_of_lt hphase, Nat.mod_eq_of_lt hdrv, Nat.mod_eq_of_lt hkind]
  rw [hlayout]
  exact phaseLayout_reserved _ _ _ _

/-! `EVENT_VALID` (10_state.md R43, selector 5). -/

/-- The sum of the set bits' places is the number of these bits. -/
theorem sum_places_eq_ofBits : ∀ {n : Nat} (f : Fin n → Bool),
    ((List.finRange n).map fun k => (f k).toNat * 2 ^ k.val).sum = Nat.ofBits f
  | 0, _ => rfl
  | n + 1, f => by
    have hplace : ∀ k : Fin n, (f k.succ).toNat * 2 ^ k.succ.val = 2 * ((f k.succ).toNat * 2 ^ k.val) := fun k => by
      rw [Fin.val_succ, pow_succ', mul_left_comm]
    rw [List.finRange_succ, List.map_cons, List.sum_cons, List.map_map, Nat.ofBits_succ,
      ← sum_places_eq_ofBits (f ∘ Fin.succ), ← List.sum_map_mul_left]
    simp only [Function.comp_def, hplace, Fin.val_zero, pow_zero, mul_one]
    exact Nat.add_comm _ _

theorem eventValidWord_toNat (s : State) : (eventValidWord s).toNat = Nat.ofBits fun k : Fin 16 => (s.slot k).v := by
  have hlt := Nat.ofBits_lt_two_pow fun k : Fin 16 => (s.slot k).v
  have hsum := sum_places_eq_ofBits fun k : Fin 16 => (s.slot k).v
  unfold State.slot at hlt hsum ⊢
  rw [eventValidWord, BitVec.toNat_ofNat, hsum, Nat.mod_eq_of_lt (by omega)]

theorem eventValidWord_lt (s : State) : (eventValidWord s).toNat < 0x10000 := by
  rw [eventValidWord_toNat]
  exact Nat.ofBits_lt_two_pow _

theorem eventValidWord_getLsbD (s : State) (k : Fin 16) : (eventValidWord s).getLsbD k.val = (s.slot k).v := by
  rw [← BitVec.testBit_toNat, eventValidWord_toNat, Nat.testBit_ofBits_lt _ _ k.isLt]

/-! The other words of the map (10_state.md R43). -/

theorem activeMask_getLsbD_zero (s : State) : (s.activeMask.setWidth 64).getLsbD 0 = true := by
  simp [State.activeMask]

theorem frontWord_toNat (s : State) : (BitVec.ofNat 64 (front s).code.val).toNat = (front s).code.val := by
  rw [BitVec.toNat_ofNat, Nat.mod_eq_of_lt (by omega)]

theorem headWord_of_empty {s : State} (h : ∀ k, (s.slot k).v = false) : headWord s = 0 := by
  rw [headWord, headKind_eq_none.mpr h]

theorem headWord_of_head {s : State} {k : Fin 16} (h : headKind s = some k) : (headWord s).toNat = 16 + k.val := by
  rw [headWord, h]
  exact Nat.mod_eq_of_lt (by omega)

/-- `RD_STATUS` of a selector of the map, in every phase (45_status_irq.md R256). -/
theorem execRdStatus_answer {sel : Fin 16} {s : State} (hd : s.phase ≠ .dispatch) (hsel : sel.val < 12) :
    execRdStatus sel s = .next { s with g := seenTime s, result := (statusValue sel s).getD 0 } := by
  rw [execRdStatus, if_pos hsel]
  exact plainCommand_answer (fun s0 => (statusValue sel s0).getD 0) rfl hd

/-- Settles O46: the read answers the status map at the entry state, which differs from the state in no element the map
shows; the composite words are taken field by field. -/
theorem rdStatusCommand : Obligations.RdStatusCommand := by
  unfold Obligations.RdStatusCommand
  intro sel s hd hsel
  refine ⟨_, execRdStatus_answer hd hsel, ?_, ?_, ?_, ?_, ?_, ?_, ?_, ?_, ?_, ?_, ?_, ?_⟩ <;> rintro rfl
  -- This closes the selectors of a single element; those of the composite words remain, 2 to 6 in order.
  all_goals simp only [statusValue, Option.getD_some]
  · obtain ⟨hphase, hdrv, hkind, hsuspend⟩ := phaseWord_fields s
    exact ⟨hphase, hdrv, hkind, hsuspend, phaseWord_reserved s⟩
  · exact ⟨trivial, activeMask_getLsbD_zero s⟩
  · exact frontWord_toNat s
  · exact ⟨eventValidWord_lt s, eventValidWord_getLsbD s⟩
  · exact ⟨headWord_of_empty, fun _ => headWord_of_head⟩

end Sys2Proof.Machine

/-! SUPPORT. The faults of a command (60_exceptions.md R270 to R275, R287), said once: `exec_faultOutcome`. A command
gives the record of one precise fault, or raises faults of the Run Loop on its way, and it does either only against the
client protocol. -/

namespace Sys2Proof.Machine

/-! Raising faults (60_exceptions.md R270, R275). -/

/-- On the way from `s` to `t` the faults with the bits `mask` are raised for the word `cw`: the bits are added to the
register, and if it was 0 before, the first of them writes `FAULT_CMD` and emits the one `FAULTED`. -/
structure Raises (cw mask : U16) (s t : State) : Prop where
  status : t.faultStatus = s.faultStatus ||| mask
  cmd : t.faultCmd = if s.faultStatus = 0 ∧ mask ≠ 0 then cw else s.faultCmd
  outputs : ∃ new, t.trace = s.trace ++ new ∧ new.count .faulted = if s.faultStatus = 0 ∧ mask ≠ 0 then 1 else 0

/-- The fault register rests, and no `FAULTED` is emitted. -/
theorem Raises.nothing {cw : U16} {s t : State} (new : List Output) (htrace : t.trace = s.trace ++ new)
    (hnew : .faulted ∉ new) (hstatus : t.faultStatus = s.faultStatus := by rfl)
    (hcmd : t.faultCmd = s.faultCmd := by rfl) : Raises cw 0 s t :=
  ⟨hstatus.trans BitVec.or_zero.symm, by rw [hcmd, if_neg (by simp)],
    new, htrace, by rw [List.count_eq_zero_of_not_mem hnew, if_neg (by simp)]⟩

/-- The fault register and the trace rest. -/
theorem Raises.rest {cw : U16} {s t : State} (htrace : t.trace = s.trace := by rfl)
    (hstatus : t.faultStatus = s.faultStatus := by rfl) (hcmd : t.faultCmd = s.faultCmd := by rfl) : Raises cw 0 s t :=
  .nothing [] (htrace.trans (List.append_nil _).symm) List.not_mem_nil hstatus hcmd

/-- Of two faults on the way only the first can find the register at 0. -/
theorem Raises.trans {cw m1 m2 : U16} {s t u : State} (h1 : Raises cw m1 s t) (h2 : Raises cw m2 t u) :
    Raises cw (m1 ||| m2) s u := by
  obtain ⟨status1, cmd1, new1, trace1, count1⟩ := h1
  obtain ⟨status2, cmd2, new2, trace2, count2⟩ := h2
  rw [cmd1] at cmd2
  rw [status1] at status2 cmd2 count2
  refine ⟨by rw [status2, BitVec.or_assoc], ?_, new1 ++ new2, by rw [trace2, trace1, List.append_assoc], ?_⟩
  · grind [BitVec.or_eq_zero_iff]
  · grind [BitVec.or_eq_zero_iff]

/-- Before the faults nothing is raised. -/
theorem Raises.trans_left {cw mask : U16} {s t u : State} (h1 : Raises cw 0 s t) (h2 : Raises cw mask t u) :
    Raises cw mask s u := by
  have h := h1.trans h2
  exact (BitVec.zero_or (x := mask)) ▸ h

/-- After the faults nothing is raised. -/
theorem Raises.trans_right {cw mask : U16} {s t u : State} (h1 : Raises cw mask s t) (h2 : Raises cw 0 t u) :
    Raises cw mask s u := by
  have h := h1.trans h2
  exact (BitVec.or_zero (x := mask)) ▸ h

/-- One fault, with the outputs `rest` after its `FAULTED`. -/
theorem Raises.fault {c : FaultCode} {cw : U16} {s t : State} (rest : List Output)
    (hcmd : t.faultCmd = if s.faultStatus = 0 then cw else s.faultCmd)
    (htrace : t.trace = s.trace ++ if s.faultStatus = 0 then .faulted :: rest else rest) (hrest : .faulted ∉ rest)
    (hstatus : t.faultStatus = s.faultStatus ||| 1#16 <<< c.bit := by rfl) : Raises cw (1#16 <<< c.bit) s t := by
  have hcount : rest.count .faulted = 0 := List.count_eq_zero_of_not_mem hrest
  have hfirst : (s.faultStatus = 0 ∧ 1#16 <<< c.bit ≠ 0) ↔ s.faultStatus = 0 := and_iff_left c.mask_ne_zero
  refine ⟨hstatus, by simp only [hcmd, hfirst], _, htrace, ?_⟩
  simp only [hfirst]
  split
  · rw [List.count_cons_self, hcount]
  · exact hcount

/-- The fault record of a precise fault (60_exceptions.md R270). -/
theorem faulted_raises (c : FaultCode) (cw : U16) (s : State) :
    Raises cw (1#16 <<< c.bit) s (faulted (1#16 <<< c.bit) cw s) :=
  .fault [] rfl rfl List.not_mem_nil

theorem raiseFault_raises (c : FaultCode) (cw : U16) (s : State) :
    Raises cw (1#16 <<< c.bit) s (raiseFault c cw s) := by
  by_cases hc : c = .emptyQueue
  · subst hc
    rw [raiseFault_emptyQueue_eq]
    exact .fault [.halt] rfl rfl (by decide)
  · rw [raiseFault_eq hc]
    exact .fault [] rfl rfl List.not_mem_nil

/-! What raises nothing: the queue, the interrupt source, the timers, the stack. -/

/-- An operation on the queue that at most strobes. -/
theorem Raises.strobe {cw : U16} {s t : State} (hf : QueueFrame s t) {b : Bool} {d : Driver}
    (h : t.trace = s.trace ++ if b then [.suspend d] else []) : Raises cw 0 s t :=
  .nothing _ h (by cases b <;> simp) hf.faultStatus hf.faultCmd

theorem remove_raises {cw : U16} (k : Fin 16) (s : State) : Raises cw 0 s (remove k s) :=
  .strobe (remove_frame k s) (by rw [remove_eq])

theorem scheduleAt_raises {cw : U16} (k : Fin 16) (t : U64) (s : State) : Raises cw 0 s (scheduleAt k t s) :=
  .strobe (scheduleAt_frame k t s) (by rw [scheduleAt_eq])

theorem insert_raises {cw : U16} (k : Fin 16) (t : U64) (s : State) : Raises cw 0 s (insert k t s) :=
  .strobe (insert_frame k t s) (by rw [insert_eq])

theorem raiseSource_raises {cw : U16} (m : U16) (s : State) : Raises cw 0 s (raiseSource m s) := by
  rcases raiseSource_cases m s with ⟨-, h⟩ | ⟨-, -, h⟩ | ⟨-, -, h⟩ <;> rw [h]
  · exact .rest
  · exact .rest
  · exact .trans_left .rest (insert_raises _ _ _)

theorem rescheduleTimer_raises {cw : U16} (s : State) (n : Fin 4) : Raises cw 0 s (rescheduleTimer s n) := by
  unfold rescheduleTimer
  split
  · exact scheduleAt_raises _ _ s
  · exact remove_raises _ s

theorem timerReschedule_raises {cw : U16} (l : List (Fin 4)) (s : State) : Raises cw 0 s (timerReschedule l s) := by
  induction l generalizing s with
  | nil => exact .rest
  | cons n l ih => exact (rescheduleTimer_raises s n).trans_left (ih _)

theorem timerOverflowEvent_raises {cw : U16} (n : Fin 4) (s : State) : Raises cw 0 s (timerOverflowEvent n s) := by
  have hsource : Raises cw 0 s (overflowRaised n s) :=
    .trans_left .rest (raiseSource_raises _ _)
  rw [timerOverflowEvent_eq]
  split
  · exact hsource.trans_left (insert_raises _ _ _)
  · exact hsource

theorem engageDriver_raises {cw : U16} (drv : Driver) (s : State) : Raises cw 0 s (engageDriver drv s) := by
  cases h : s.isActive drv
  · rw [engageDriver_absent h]
    exact .nothing _ rfl (by split <;> simp)
  · rw [engageDriver, if_pos h]
    exact .rest

theorem disengageDriver_raises {cw : U16} (drv : Driver) (s : State) : Raises cw 0 s (disengageDriver drv s) := by
  cases h : s.isActive drv
  · rw [disengageDriver, if_neg (ne_true_of_eq_false h)]
    exact .rest
  · rw [disengageDriver_active h]
    exact .nothing _ rfl (by split <;> simp)

/-! `Dispatch` and `RUN_END`, which may raise the faults of the Run Loop (60_exceptions.md R271, bits 6 and 7). -/

theorem callback_raises {cw : U16} {s s1 : State} {k : Fin 16} (hcb : internalCallback k (pop k s) = some s1) :
    Raises cw 0 s s1 := by
  rcases internalCallback_cases hcb with ⟨n, -, rfl⟩ | ⟨-, rfl⟩
  · exact .trans_left .rest (timerOverflowEvent_raises n _)
  · exact .nothing [.irqAssert s.irqPending] rfl (by simp)

/-- An internal callback takes no external event out of the queue. -/
theorem callback_externalPending {s s1 : State} {k : Fin 16} (hcb : internalCallback k (pop k s) = some s1)
    (h : ExternalPending s) : ExternalPending s1 := by
  obtain ⟨j, hj, hv⟩ := h
  have hirq : j ≠ irqKind := (external_ne_irqKind hj).symm
  refine ⟨j, hj, ?_⟩
  rcases internalCallback_cases hcb with ⟨n, rfl, rfl⟩ | ⟨rfl, rfl⟩
  · have hne : j ≠ timerKind n := (timerKind_ne_external n hj).symm
    rwa [timerOverflowEvent_slot_ne hne hirq, pop_slot, if_neg hne]
  · change ((pop irqKind s).slot j).v = true
    rwa [pop_slot, if_neg hirq]

theorem Pops.raises {cw : U16} {m : Nat} {s u : State} (h : Pops m s u) : Raises cw 0 s u :=
  h.keeps (P := Raises cw 0 s) (fun _ _ _ hv _ _ hcb => hv.trans_left (callback_raises hcb)) .rest

theorem Pops.externalPending {m : Nat} {s u : State} (h : Pops m s u) (hs : ExternalPending s) : ExternalPending u :=
  h.keeps (P := ExternalPending) (fun _ _ _ hv _ _ hcb => callback_externalPending hcb hv) hs

theorem ExternalPending.head_ne_none {s : State} (h : ExternalPending s) : headKind s ≠ none := by
  obtain ⟨k, -, hv⟩ := h
  intro hnone
  rw [headKind_eq_none.mp hnone k] at hv
  exact absurd hv Bool.false_ne_true

/-- The masks of the faults that are not precise: `RUN_UNDERREPORT` and `EMPTY_QUEUE` have bits 6 and 7. -/
abbrev RunLoopMask (mask : U16) : Prop := mask &&& 0xFF3F = 0

theorem RunLoopMask.or {m1 m2 : U16} (h1 : RunLoopMask m1) (h2 : RunLoopMask m2) : RunLoopMask (m1 ||| m2) := by
  rw [RunLoopMask, BitVec.and_or_distrib_right, h1, h2]
  rfl

/-- `Dispatch` raises at most `EMPTY_QUEUE`, and neither faults nor halts with an external event pending. -/
theorem dispatch_raises {cw : U16} {s t : State} (hd : dispatch cw s = .next t) :
    ∃ mask, RunLoopMask mask ∧ Raises cw mask s t ∧ (ExternalPending s → mask = 0 ∧ t.phase ≠ .halted) := by
  obtain ⟨m, u, hpops, hend⟩ := dispatch_next hd
  have hrounds : Raises cw 0 s u := .trans_left .rest hpops.raises
  rcases hend with ⟨hnone, rfl⟩ | ⟨k, -, -, rfl⟩ | ⟨k, -, -, -, rfl⟩
  · exact ⟨_, by decide, hrounds.trans_left (raiseFault_raises .emptyQueue cw u),
      fun hext => absurd hnone (hpops.externalPending hext).head_ne_none⟩
  · exact ⟨0, by decide, hrounds.trans_left (.nothing [.runGrant _ _] rfl (by simp)), fun _ => ⟨rfl, nofun⟩⟩
  · exact ⟨0, by decide, hrounds.trans_left (.nothing [.fire k] rfl (by simp)), fun _ => ⟨rfl, nofun⟩⟩

/-- The settlement of `RUN_END` raises at most `RUN_UNDERREPORT`, for a report below the charged cycles. -/
theorem settleRun_raises (cw : U16) (c : U64) (s : State) :
    ∃ mask, RunLoopMask mask ∧ Raises cw mask s (settleRun cw c s) ∧ (s.runElapsed ≤ c → mask = 0) := by
  by_cases hc : s.runElapsed ≤ c
  · rw [settleRun_charged hc]
    exact ⟨0, by decide, .rest, fun _ => rfl⟩
  · rw [settleRun_underreport hc]
    exact ⟨_, by decide, raiseFault_raises .runUnderreport cw s, fun h => absurd h hc⟩

/-! Every command. -/

/-- What command `i` from `s` to `t` does about faults: it gives the record of a precise fault (60_exceptions.md R271,
bits 0 to 5), or raises faults of the Run Loop or none on its way; a fault is raised only against the client protocol
(R287). -/
inductive FaultOutcome (i : Instr) (s t : State) : Prop
  | precise (c : FaultCode) (hbit : c.bit ≤ 5) (hp : ¬ FollowsProtocol s i)
      (h : t = faulted (1#16 <<< c.bit) i.word s ∨ t = faulted (1#16 <<< c.bit) i.word (atEntry s))
  | raises (mask : U16) (hm : RunLoopMask mask) (hp : FollowsProtocol s i → mask = 0) (h : Raises i.word mask s t)

/-- No fault at all; the entry state has the fault register and the trace of the state before it. -/
theorem FaultOutcome.of_entry {i : Instr} {s t : State} (h : Raises i.word 0 (atEntry s) t) : FaultOutcome i s t :=
  .raises 0 rfl (fun _ => rfl) (.trans_left .rest h)

/-- A precise fault of a command's own rule. -/
theorem FaultOutcome.of_raiseFault {i : Instr} {s : State} (c : FaultCode) (hbit : c.bit ≤ 5)
    (hp : ¬ FollowsProtocol s i) : FaultOutcome i s (raiseFault c i.word (atEntry s)) := by
  have hc : c ≠ .emptyQueue := fun e => absurd hbit (by rw [e]; decide)
  exact .precise c hbit hp (.inr (raiseFault_faulted hc _ rfl))

/-- The protocol's first point: each command only in its admitted phases. -/
theorem FollowsProtocol.not_barred {i : Instr} {s : State} (h : FollowsProtocol s i) : s.phase ∉ barredPhases i := by
  cases i <;> simp only [FollowsProtocol] at h <;> simp [barredPhases, h]

/-- A barred command gives the record of `BAD_PHASE`; any other runs its own rule. -/
theorem command_faultOutcome {i : Instr} {body : State → Answer} {s t : State} (he : command i body s = .next t)
    (hbody : body (atEntry s) = .next t → FaultOutcome i s t) : FaultOutcome i s t := by
  by_cases hs : s.phase ∈ barredPhases i
  · obtain ⟨hd, ha⟩ := (mem_barredPhases_iff i s.phase).mp hs
    rw [command_bad_phase body hd ha] at he
    exact .precise .badPhase (by decide) (fun hp => hp.not_barred hs) (.inl (Host.Outcome.next.inj he).symm)
  · exact hbody (command_next_body hs he)

theorem plainCommand_faultOutcome {i : Instr} {body : State → State} {s t : State}
    (he : plainCommand i body s = .next t) (hbody : FaultOutcome i s (body (atEntry s))) : FaultOutcome i s t :=
  command_faultOutcome he fun h => by
    obtain rfl := Host.Outcome.next.inj h
    exact hbody

theorem onExternalKind_faultOutcome {i : Instr} {k : Fin 16} {body : State → State} {s : State}
    (hp : FollowsProtocol s i → 5 ≤ k.val) (hbody : Raises i.word 0 (atEntry s) (body (atEntry s))) :
    FaultOutcome i s (onExternalKind i k body (atEntry s)) := by
  unfold onExternalKind
  split
  · rename_i hk
    have hinternal : k.val ≤ 4 := of_decide_eq_true hk
    exact .of_raiseFault .reservedKind (by decide) fun h => absurd (hp h) (by omega)
  · exact .of_entry hbody

theorem onDriver_faultOutcome {i : Instr} {d : Fin 8} {body : Driver → State → State} {s : State}
    (hp : FollowsProtocol s i → ∃ drv, driverOf d = some drv)
    (hbody : ∀ drv, driverOf d = some drv → FaultOutcome i s (body drv (atEntry s))) :
    FaultOutcome i s (onDriver i d body (atEntry s)) := by
  unfold onDriver
  split
  · rename_i hnone
    refine .of_raiseFault .badDriver (by decide) fun h => ?_
    obtain ⟨drv, hdrv⟩ := hp h
    exact absurd (hnone.symm.trans hdrv) nofun
  · exact hbody _ ‹_›

/-- Codes 0 to 4 name a driver. -/
theorem exists_driverOf {d : Fin 8} (h : d.val ≤ 4) : ∃ drv, driverOf d = some drv :=
  Option.isSome_iff_exists.mp (driverOf_isSome h)

/-- Only code 0 names `Cpu`. -/
theorem driverOf_ne_cpu {d : Fin 8} (h : 1 ≤ d.val) : driverOf d ≠ some .cpu := by revert d; decide

/-- A command whose own rule is `Dispatch`. -/
theorem dispatch_faultOutcome {i : Instr} {s t : State} (hp : FollowsProtocol s i → ExternalPending s)
    (hd : dispatch i.word (atEntry s) = .next t) : FaultOutcome i s t := by
  obtain ⟨mask, hm, hraises, hext⟩ := dispatch_raises hd
  exact .raises mask hm (fun h => (hext (hp h)).1) (.trans_left .rest hraises)

/-- `RUN_END` may raise both faults, `RUN_UNDERREPORT` first. -/
theorem execRunEnd_faultOutcome {c : U64} {s t : State} (he : execRunEnd c s = .next t) :
    FaultOutcome (.runEnd c) s t := by
  refine command_faultOutcome he fun hd => ?_
  obtain ⟨m1, hm1, hsettle, hreport⟩ := settleRun_raises (Instr.runEnd c).word c (atEntry s)
  obtain ⟨m2, hm2, hdispatch, hext⟩ := dispatch_raises hd
  have hcommit : Raises (Instr.runEnd c).word m1 (atEntry s) (runEndState c s) := hsettle.trans_right .rest
  refine .raises (m1 ||| m2) (hm1.or hm2) (fun hp => ?_) (.trans_left .rest (hcommit.trans hdispatch))
  obtain ⟨-, hcharged, k, hk, hv⟩ := hp
  have hpending : ExternalPending (runEndState c s) := ⟨k, hk, by rw [(runEndState_rests c s).slot]; exact hv⟩
  rw [hreport hcharged, (hext hpending).1]
  rfl

theorem execRdStatus_faultOutcome {sel : Fin 16} {s t : State} (he : execRdStatus sel s = .next t) :
    FaultOutcome (.rdStatus sel) s t := by
  unfold execRdStatus at he
  split at he
  · exact plainCommand_faultOutcome he (.of_entry .rest)
  · rename_i hsel
    rw [illegalCommand_faulted] at he
    exact .precise .illegalCommand (by decide) hsel (.inl (Host.Outcome.next.inj he).symm)

/-- Everything a command can do about faults; `CLR_FAULT` clears them. -/
theorem exec_faultOutcome {i : Instr} {s t : State} (hi : i ≠ .clrFault) (he : exec i s = .next t) :
    FaultOutcome i s t := by
  unfold exec at he
  cases i with
  | schedule k delay =>
    exact plainCommand_faultOutcome he (onExternalKind_faultOutcome And.right (scheduleAt_raises _ _ _))
  | cancel k => exact plainCommand_faultOutcome he (onExternalKind_faultOutcome And.right (remove_raises _ _))
  | reschedule k delay =>
    refine plainCommand_faultOutcome he (onExternalKind_faultOutcome And.right ?_)
    split
    · exact scheduleAt_raises _ _ _
    · exact .rest
  | engage d =>
    exact plainCommand_faultOutcome he (onDriver_faultOutcome (fun hp => exists_driverOf hp.2)
      fun drv _ => .of_entry (engageDriver_raises drv _))
  | disengage d =>
    refine plainCommand_faultOutcome he (onDriver_faultOutcome (fun hp => exists_driverOf hp.2.2) fun drv hdrv => ?_)
    split
    · rename_i hcpu
      refine .of_raiseFault .cpuDisengage (by decide) fun hp => ?_
      exact driverOf_ne_cpu hp.2.1 (hdrv.trans (congrArg some hcpu))
    · exact .of_entry (disengageDriver_raises drv _)
  | charge d n =>
    refine plainCommand_faultOutcome he (onDriver_faultOutcome (fun hp => ⟨_, hp.2⟩) fun drv hdrv => ?_)
    split
    · exact .of_entry .rest
    · rename_i hrun
      exact .of_raiseFault .chargeNotRunning (by decide) fun hp =>
        hrun ⟨hp.1, Option.some.inj (hdrv.symm.trans hp.2)⟩
  | rdLedger d =>
    exact plainCommand_faultOutcome he (onDriver_faultOutcome exists_driverOf fun _ _ => .of_entry .rest)
  | runEnd c => exact execRunEnd_faultOutcome he
  | callbackDone | start => exact command_faultOutcome he (dispatch_faultOutcome And.right)
  | tmrWrReload n v | tmrWrControl n w =>
    exact plainCommand_faultOutcome he (.of_entry (.trans_left .rest (timerReschedule_raises _ _)))
  | raiseIrq m => exact plainCommand_faultOutcome he (.of_entry (raiseSource_raises m _))
  | rdStatus sel => exact execRdStatus_faultOutcome he
  | clrFault => exact absurd rfl hi
  | now | tmrRdCounter n | tmrRdControl n | tmrRdReload n | tmrRdNextOvf n | rdEventTime k | rdEventSeq k =>
    exact plainCommand_faultOutcome he (.of_entry .rest)

/-- `CLR_FAULT` answers in the phases that do not bar it, which are all but `DISPATCH`. -/
theorem clrFault_next {s t : State} (he : exec .clrFault s = .next t) :
    t = { s with result := 0, g := seenTime s, faultStatus := 0, faultCmd := 0 } :=
  (Host.Outcome.next.inj
    (command_next_body (i := .clrFault) (body := fun s0 => .next (clearFaults s0)) List.not_mem_nil he)).symm

end Sys2Proof.Machine

/-! The statements of 60_exceptions.md: the client protocol, the fault register, `HALTED`, the interrupt delivery. -/

namespace Sys2Proof.Machine

/-! The protocol (60_exceptions.md R287). -/

/-- With an external event pending a command that enters `Dispatch` does not halt; any other command keeps the phase. -/
theorem protocol_exec_halted {i : Instr} {s t : State} (hp : FollowsProtocol s i) (he : exec i s = .next t)
    (ht : t.phase = .halted) : s.phase = .halted := by
  by_cases hi : entersDispatch i
  · have hpending : ExternalPending s := by
      rcases hi with rfl | rfl | ⟨c, rfl⟩
      · exact hp.2
      · exact hp.2
      · exact hp.2.2
    obtain ⟨cw, u, hrests, -, hd⟩ := exec_enters hi hp.not_barred he
    obtain ⟨_, _, _, hext⟩ := dispatch_raises hd
    obtain ⟨k, hk, hv⟩ := hpending
    exact absurd ht (hext ⟨k, hk, by rwa [hrests.slot]⟩).2
  · exact (exec_sequencerKept he fun h => hi h.1).phase.symm.trans ht

/-- The common sequence of a command that its phase does not stop answers as its own rule does. -/
theorem command_answers {i : Instr} {body : State → Answer} {s : State} (hd : s.phase ≠ .dispatch)
    (hbody : ∀ s0, ∃ t, body s0 = .next t) : ∃ t, command i body s = .next t := by
  rcases command_cases i body s with ⟨h, -⟩ | ⟨-, -, h⟩ | ⟨-, -, h⟩
  · exact absurd h hd
  · rw [h]; exact hbody _
  · exact ⟨_, h⟩

theorem plainCommand_answers {i : Instr} {body : State → State} {s : State} (hd : s.phase ≠ .dispatch) :
    ∃ t, plainCommand i body s = .next t :=
  command_answers hd fun _ => ⟨_, rfl⟩

theorem dispatch_answers (cw : U16) (s : State) : ∃ t, dispatch cw s = .next t := by
  obtain ⟨-, t, hd, -⟩ := dispatch_dispatches cw s
  exact ⟨t, hd⟩

/-- Outside `DISPATCH` every command completes (20_memory.md R65). -/
theorem exec_answers (i : Instr) {s : State} (hd : s.phase ≠ .dispatch) : ∃ t, exec i s = .next t := by
  unfold exec
  cases i with
  | runEnd c | callbackDone | start => exact command_answers hd fun _ => dispatch_answers _ _
  | rdStatus sel =>
    simp only [execRdStatus]
    split
    · exact plainCommand_answers hd
    · exact ⟨_, rfl⟩
  | _ => exact plainCommand_answers hd

/-- Settles O51: a command raises a fault only against the protocol, and `Dispatch` halts only with no external event
pending, which its internal callbacks leave alone. -/
theorem protocolRaisesNoFault : Obligations.ProtocolRaisesNoFault := by
  unfold Obligations.ProtocolRaisesNoFault
  intro i s hd hp
  obtain ⟨t, he⟩ := exec_answers i hd
  refine ⟨t, he, ?_, protocol_exec_halted hp he⟩
  split
  · rename_i hi
    subst hi
    rw [clrFault_next he]
  · rename_i hi
    cases exec_faultOutcome hi he with
    | precise c hbit hagainst => exact absurd hp hagainst
    | raises mask hm hnone h => rw [h.status, hnone hp]; exact BitVec.or_zero

/-! The records (60_exceptions.md R270, R275). -/

/-- A mask of the Run Loop's faults has none of the bits 0 to 5. -/
theorem RunLoopMask.getLsbD {mask : U16} (hm : RunLoopMask mask) {b : Nat} (hb : b ≤ 5) : mask.getLsbD b = false := by
  have hbit : (mask &&& 0xFF3F#16).getLsbD b = false := by
    rw [show mask &&& 0xFF3F#16 = 0#16 from hm, BitVec.getLsbD_zero]
  have hin : (0xFF3F#16).getLsbD b = true := by interval_cases b <;> rfl
  rwa [BitVec.getLsbD_and, hin, Bool.and_true] at hbit

/-- The mask of one fault has that fault's bit only. -/
theorem FaultCode.getLsbD_mask {c : FaultCode} {b : Nat} (h : (1#16 <<< c.bit).getLsbD b = true) : b = c.bit := by
  have hplace : b < 16 ∧ c.bit ≤ b ∧ b - c.bit = 0 := by
    simpa [BitVec.getLsbD_shiftLeft, BitVec.getLsbD_one, and_assoc] using h
  omega

/-- Settles O9: the bits 0 to 5 are set by a precise fault's record only, each by its own. -/
theorem faultsArePrecise : Obligations.FaultsArePrecise := by
  unfold Obligations.FaultsArePrecise
  intro i s t b hb he hclear hset
  by_cases hi : i = .clrFault
  · subst hi
    rw [clrFault_next he] at hset
    exact absurd hset (by simp)
  · cases exec_faultOutcome hi he with
    | precise c hbit hp h =>
      have hstatus : t.faultStatus = s.faultStatus ||| 1#16 <<< c.bit := by rcases h with rfl | rfl <;> rfl
      rw [hstatus, BitVec.getLsbD_or, hclear, Bool.false_or] at hset
      rwa [FaultCode.getLsbD_mask hset]
    | raises mask hm hp h =>
      rw [h.status, BitVec.getLsbD_or, hclear, hm.getLsbD hb] at hset
      exact absurd hset Bool.false_ne_true

/-- What raising faults keeps of the register (60_exceptions.md R275, 10_state.md R42). -/
theorem Raises.keeps_first {cw mask : U16} {s t : State} (h : Raises cw mask s t) (hm : mask &&& 0xFF00 = 0) :
    s.faultStatus &&& ~~~t.faultStatus = 0 ∧ t.faultStatus &&& 0xFF00 = s.faultStatus &&& 0xFF00 ∧
      (s.faultStatus ≠ 0 → t.faultCmd = s.faultCmd) ∧
      (s.faultStatus = 0 → t.faultCmd = if t.faultStatus = 0 then s.faultCmd else cw) ∧
      ∃ new, t.trace = s.trace ++ new ∧
        new.count .faulted = if s.faultStatus = 0 ∧ t.faultStatus ≠ 0 then 1 else 0 := by
  obtain ⟨status, cmd, new, htrace, hcount⟩ := h
  have hzero : s.faultStatus = 0 → (t.faultStatus = 0 ↔ mask = 0) := fun hs => by
    rw [status]
    exact BitVec.or_eq_zero_iff.trans (and_iff_right hs)
  refine ⟨?_, ?_, fun hs => by rw [cmd, if_neg (hs ·.1)], fun hs => ?_, new, htrace, ?_⟩
  · rw [status]
    ext b hb
    cases hbit : s.faultStatus[b] <;> simp [hbit]
  · rw [status, BitVec.and_or_distrib_right, hm]
    exact BitVec.or_zero
  · grind
  · grind

/-- No fault has a bit above 7. -/
theorem RunLoopMask.high {mask : U16} (hm : RunLoopMask mask) : mask &&& 0xFF00 = 0 := by
  rw [show (0xFF00 : U16) = 0xFF3F &&& 0xFF00 by decide, ← BitVec.and_assoc, hm]
  rfl

/-- Settles O10: a command raises a precise fault's bit or bits of the Run Loop, all below 8. -/
theorem faultRegisterKeepsTheFirst : Obligations.FaultRegisterKeepsTheFirst := by
  unfold Obligations.FaultRegisterKeepsTheFirst
  refine ⟨fun s t he => ?_, fun i s t hi he => ?_⟩
  · rw [clrFault_next he]
    exact ⟨rfl, rfl⟩
  · cases exec_faultOutcome hi he with
    | precise c hbit hp h =>
      have hm : 1#16 <<< c.bit &&& 0xFF00 = 0 := by cases c <;> rfl
      rcases h with rfl | rfl
      · exact (faulted_raises c i.word s).keeps_first hm
      · exact (faulted_raises c i.word (atEntry s)).keeps_first hm
    | raises mask hm hp h => exact h.keeps_first hm.high

/-! `HALTED` (60_exceptions.md R272). -/

/-- From `s` to `t` everything stays but `RESULT`, the fault registers, the trace, which grows by `FAULTED` only, and a
fold of the timers to the frozen time. -/
def Frozen (s t : State) : Prop :=
  (∃ b, (b = s.tmr ∨ b = syncBank s.params s.g s.tmr) ∧
    t = { s with tmr := b, result := t.result, faultStatus := t.faultStatus, faultCmd := t.faultCmd
                 trace := t.trace }) ∧
  ∃ new, t.trace = s.trace ++ new ∧ ∀ o ∈ new, o = .faulted

theorem faulted_frozen (bit cw : U16) (s : State) : Frozen s (faulted bit cw s) :=
  ⟨⟨s.tmr, .inl rfl, rfl⟩, _, rfl, by split <;> simp⟩

/-- A read, and `CLR_FAULT`. -/
theorem Frozen.of_kept {s t : State}
    (h : t = { s with result := t.result, faultStatus := t.faultStatus, faultCmd := t.faultCmd }) : Frozen s t :=
  ⟨⟨s.tmr, .inl rfl, by rw [h]⟩, [], by rw [h, List.append_nil], nofun⟩

/-- A read of the folded timers. -/
theorem Frozen.of_fold {s t : State} (h : t = { timerSyncAll s.g s with result := t.result }) : Frozen s t :=
  ⟨⟨_, .inr rfl, by rw [h]; rfl⟩, [], by rw [h, List.append_nil]; rfl, nofun⟩

/-- In `HALTED` there is nothing to flush, so a command's own rule starts with `RESULT` cleared only. -/
theorem plainCommand_frozen {i : Instr} {body : State → State} {s t : State} (hs : s.phase = .halted)
    (he : plainCommand i body s = .next t) (hbody : Frozen s (body { s with result := 0 })) : Frozen s t := by
  rcases command_next he with ⟨-, h⟩ | rfl
  · rw [atEntry_of_not_running (by rw [hs]; decide)] at h
    rwa [← Host.Outcome.next.inj h]
  · exact faulted_frozen _ _ s

theorem onDriver_frozen (i : Instr) (d : Fin 8) {body : Driver → State → State} {s : State}
    (hbody : ∀ drv, Frozen s (body drv { s with result := 0 })) :
    Frozen s (onDriver i d body { s with result := 0 }) := by
  unfold onDriver
  split
  · rw [raiseFault_faulted (by decide) _ rfl]
    exact faulted_frozen _ _ s
  · exact hbody _

theorem execRdStatus_frozen {sel : Fin 16} {s t : State} (hs : s.phase = .halted) (he : execRdStatus sel s = .next t) :
    Frozen s t := by
  unfold execRdStatus at he
  split at he
  · exact plainCommand_frozen hs he (.of_kept rfl)
  · rw [illegalCommand_faulted] at he
    obtain rfl := Host.Outcome.next.inj he
    exact faulted_frozen _ _ s

/-- Of the commands `HALTED` admits, two fold the timers, and the others only read or clear the fault register. -/
theorem exec_frozen {i : Instr} {s t : State} (hs : s.phase = .halted) (he : exec i s = .next t) : Frozen s t := by
  by_cases hbarred : s.phase ∈ barredPhases i
  · rw [exec_bad_phase hbarred] at he
    obtain rfl := Host.Outcome.next.inj he
    exact faulted_frozen _ _ s
  · rw [hs] at hbarred
    unfold exec at he
    cases i with
    | now | tmrRdControl n | tmrRdReload n | rdEventTime k | rdEventSeq k | clrFault =>
      exact plainCommand_frozen hs he (.of_kept rfl)
    | tmrRdCounter n | tmrRdNextOvf n => exact plainCommand_frozen hs he (.of_fold rfl)
    | rdStatus sel => exact execRdStatus_frozen hs he
    | rdLedger d => exact plainCommand_frozen hs he (onDriver_frozen _ _ fun _ => .of_kept rfl)
    | _ => exact absurd (by simp [barredPhases]) hbarred

/-- Settles O11: `HALTED` admits the reads and `CLR_FAULT` only. -/
theorem haltedIsFrozen : Obligations.HaltedIsFrozen := by
  unfold Obligations.HaltedIsFrozen
  exact ⟨fun _ => rfl, fun i s hs hb => exec_bad_phase (hs ▸ hb), fun i s t => exec_frozen⟩

/-! The interrupt delivery (60_exceptions.md R278). -/

/-- A `Dispatch` that finds the delivery due asserts the mask before anything else. -/
theorem dispatch_irq_first {cw : U16} {s t : State} (hk : headKind s = some irqKind) (hdue : (s.slot irqKind).t ≤ s.g)
    (hd : dispatch cw s = .next t) : s.trace ++ [.irqAssert s.irqPending] <+: t.trace := by
  have hk' : headKind { s with phase := .dispatch } = some irqKind := (headKind_congr rfl rfl).trans hk
  obtain ⟨m, u, hpops, hend⟩ := dispatch_next hd
  cases hpops with
  | done =>
    rcases hend with ⟨hnone, -⟩ | ⟨k, hhead, hahead, -⟩ | ⟨k, hhead, -, hext, -⟩
    · exact absurd (hk'.symm.trans hnone) nofun
    · obtain rfl := Option.some.inj (hk'.symm.trans hhead)
      exact absurd hahead (BitVec.not_lt.mpr hdue)
    · obtain rfl := Option.some.inj (hk'.symm.trans hhead)
      exact absurd hext (by decide)
  | more k hhead _ hcb rest =>
    obtain rfl := Option.some.inj (hk'.symm.trans hhead)
    obtain rfl := Option.some.inj hcb
    exact rest.trace_prefix.trans hend.emits.trace_prefix

/-- Settles O44: `CALLBACK_DONE` is `Dispatch`, whose first round is the delivery. -/
theorem interruptDelivery : Obligations.InterruptDelivery := by
  unfold Obligations.InterruptDelivery
  refine ⟨fun _ => rfl, fun s hs hk hdue => ?_⟩
  obtain ⟨t, hd⟩ := dispatch_answers 0x0009 { s with result := 0 }
  obtain ⟨rest, hrest⟩ := dispatch_irq_first (s := { s with result := 0 }) ((headKind_congr rfl rfl).trans hk) hdue hd
  exact ⟨t, rest, (execCallbackDone_callback hs).trans hd, hrest.symm.trans (List.append_assoc _ _ _)⟩

end Sys2Proof.Machine

/-! SUPPORT. The encoder's side of the command words (30_encoding.md R80 to R86): the selector it writes is legal, and the
operand assembly undoes it. -/

namespace Sys2Proof

/-- The selector the encoder writes for a well-formed command is one its format allows (30_encoding.md R81). -/
theorem selectorError_selector {i : Instr} (h : i.wf = true) : selectorError i.opcode.format i.selector = none := by
  cases i with
  | schedule k _ | cancel k | reschedule k _ | rdEventTime k | rdEventSeq k => rfl
  | now | runEnd _ | callbackDone | raiseIrq _ | clrFault | start => rfl
  | engage d | disengage d | charge d _ | rdLedger d => exact if_pos d.isLt
  | tmrWrReload n _ | tmrWrControl n _ | tmrRdCounter n | tmrRdControl n | tmrRdReload n | tmrRdNextOvf n =>
    exact if_pos n.isLt
  | rdStatus sel => exact if_pos (of_decide_eq_true h)

theorem driverField_castLE (d : Fin 8) : driverField (d.castLE (by decide)) = d :=
  Fin.ext (Nat.mod_eq_of_lt d.isLt)

theorem timerField_castLE (n : Fin 4) : timerField (n.castLE (by decide)) = n :=
  Fin.ext (Nat.mod_eq_of_lt n.isLt)

/-- A 16-bit operand survives its extension to `DATA` (20_memory.md R64). -/
theorem dataLow_setWidth (v : U16) : dataLow (v.setWidth 64) = v :=
  (BitVec.setWidth_setWidth_of_le v (by decide)).trans (BitVec.setWidth_eq v)

/-- The fields the encoder writes assemble to the command again (30_encoding.md R82). -/
theorem assemble_encode (i : Instr) : assemble i.opcode i.selector i.operand = i := by
  cases i with
  | schedule _ _ | cancel _ | reschedule _ _ | now | runEnd _ | callbackDone | rdStatus _ | rdEventTime _
  | rdEventSeq _ | clrFault | start => rfl
  | engage d => exact congrArg Instr.engage (driverField_castLE d)
  | disengage d => exact congrArg Instr.disengage (driverField_castLE d)
  | charge d n => exact congrArg (Instr.charge · n) (driverField_castLE d)
  | rdLedger d => exact congrArg Instr.rdLedger (driverField_castLE d)
  | tmrWrReload n v => exact congrArg₂ Instr.tmrWrReload (timerField_castLE n) (dataLow_setWidth v)
  | tmrWrControl n w => exact congrArg₂ Instr.tmrWrControl (timerField_castLE n) (dataLow_setWidth w)
  | tmrRdCounter n => exact congrArg Instr.tmrRdCounter (timerField_castLE n)
  | tmrRdControl n => exact congrArg Instr.tmrRdControl (timerField_castLE n)
  | tmrRdReload n => exact congrArg Instr.tmrRdReload (timerField_castLE n)
  | tmrRdNextOvf n => exact congrArg Instr.tmrRdNextOvf (timerField_castLE n)
  | raiseIrq m => exact congrArg Instr.raiseIrq (dataLow_setWidth m)

/-- Settles O2: the encoder's word is the command word of the command's row and a legal selector, on which the decoder
assembles the command. -/
theorem decodeEncodeRoundTrip : Obligations.DecodeEncodeRoundTrip := by
  unfold Obligations.DecodeEncodeRoundTrip
  intro i hwf
  exact decode_eq_ok_iff.mpr ⟨i.opcode, i.selector, rfl, selectorError_selector hwf, (assemble_encode i).symm⟩

end Sys2Proof

/-! The statements about one step: the next input (20_memory.md R65, R68), the reset input (70_reset_and_hazards.md R300),
and that every command completes or, in `DISPATCH`, stops. -/

namespace Sys2Proof.Machine

/-! One step. -/

/-- Settles O4: the two cases of `step` without a reset and without an illegal word. -/
theorem stepRunsDecodedCommand : Obligations.StepRunsDecodedCommand := by
  unfold Obligations.StepRunsDecodedCommand
  refine ⟨fun s c rest i hin hdec => ?_, fun s hin => ?_⟩
  · simp only [step, hin, hdec, takeCommand]
  · simp only [step, hin]

/-- `HALTED` lasts through every command, an illegal word included (60_exceptions.md R272). -/
theorem step_halted {s t : State} (hs : s.phase = .halted) (he : step s = .next t) :
    t.phase = .halted ∨ ∃ rest, s.inbox = .reset :: rest := by
  rcases step_cases s with ⟨-, e⟩ | ⟨rest, hin, -⟩ | ⟨c, rest, i, -, -, e⟩ | ⟨c, rest, x, -, -, e⟩
  · rw [e] at he
    obtain rfl := Host.Outcome.next.inj he
    exact .inl hs
  · exact .inr ⟨rest, hin⟩
  · rw [e] at he
    obtain ⟨⟨b, -, hframe⟩, -⟩ := exec_frozen (s := takeCommand rest s) hs he
    exact .inl (by rw [hframe]; exact hs)
  · rw [e, illegalCommand_faulted] at he
    obtain rfl := Host.Outcome.next.inj he
    exact .inl hs

/-- Settles O7: the reset input takes the reset state field by field, and in `HALTED` every command is frozen. -/
theorem resetInputRestoresEveryElement : Obligations.ResetInputRestoresEveryElement := by
  unfold Obligations.ResetInputRestoresEveryElement
  refine ⟨fun s rest hin => ?_, fun s t => step_halted⟩
  simp only [step, hin]
  rfl

/-! How a command ends. -/

/-- Settles O48: outside `DISPATCH` a command answers, and `Dispatch` ends in another phase. -/
theorem everyCommandCompletes : Obligations.EveryCommandCompletes := by
  unfold Obligations.EveryCommandCompletes
  intro i s hs
  obtain ⟨t, he⟩ := exec_answers i hs
  exact ⟨t, he, exec_ne_dispatch hs he⟩

/-- The common sequence stops before a command's own rule in `DISPATCH`. -/
theorem command_during_dispatch (i : Instr) (body : State → Answer) {s : State} (hs : s.phase = .dispatch) :
    command i body s = .fault .commandDuringDispatch :=
  if_pos hs

theorem plainCommand_during_dispatch (i : Instr) (body : State → State) {s : State} (hs : s.phase = .dispatch) :
    plainCommand i body s = .fault .commandDuringDispatch :=
  command_during_dispatch i _ hs

/-- Settles O12: every command starts with the common sequence, `RD_STATUS` for the selectors that name something. -/
theorem commandDuringDispatchStops : Obligations.CommandDuringDispatchStops := by
  unfold Obligations.CommandDuringDispatchStops
  intro i s hwf hs
  unfold exec
  cases i with
  | runEnd c | callbackDone | start => exact command_during_dispatch _ _ hs
  | rdStatus sel => exact (if_pos (of_decide_eq_true hwf)).trans (plainCommand_during_dispatch _ _ hs)
  | _ => exact plainCommand_during_dispatch _ _ hs

end Sys2Proof.Machine

/-! SUPPORT. What a command that enters `Dispatch` leaves alone (41_run_loop.md R141 to R148): the rounds and the end of
`Dispatch`, and the commands' own rules before it. -/

namespace Sys2Proof.Machine

/-! `Dispatch` (41_run_loop.md R141 to R145). -/

/-- An internal callback leaves the external events alone. -/
theorem callback_slot_external {s s1 : State} {k j : Fin 16} (hcb : internalCallback k (pop k s) = some s1)
    (hj : 5 ≤ j.val) : s1.slot j = s.slot j := by
  have hirq : j ≠ irqKind := (external_ne_irqKind hj).symm
  rcases internalCallback_cases hcb with ⟨n, rfl, rfl⟩ | ⟨rfl, rfl⟩
  · have hne : j ≠ timerKind n := (timerKind_ne_external n hj).symm
    rw [timerOverflowEvent_slot_ne hne hirq, pop_slot, if_neg hne]
  · exact (pop_slot j irqKind s).trans (if_neg hirq)

theorem Pops.slot_external {m : Nat} {s u : State} (h : Pops m s u) {j : Fin 16} (hj : 5 ≤ j.val) :
    u.slot j = s.slot j :=
  h.keeps (P := fun v => v.slot j = s.slot j) (fun _ _ _ hv _ _ hcb => (callback_slot_external hcb hj).trans hv) rfl

/-- `Dispatch` takes out of the queue no external event but the one it fires. -/
theorem dispatch_slot_external {cw : U16} {s t : State} (hd : dispatch cw s = .next t) {j : Fin 16} (hj : 5 ≤ j.val) :
    t.slot j = s.slot j ∨ (t.phase = .callback ∧ t.cbKind = j ∧ t.slot j = { s.slot j with v := false }) := by
  obtain ⟨m, u, hpops, hend⟩ := dispatch_next hd
  have hrounds : u.slot j = s.slot j := hpops.slot_external hj
  rw [← hrounds]
  rcases hend with ⟨-, rfl⟩ | ⟨k, -, -, rfl⟩ | ⟨k, -, -, -, rfl⟩
  · rw [raiseFault_emptyQueue_eq]
    exact .inl rfl
  · exact .inl rfl
  · have hpop : (fireExternal k (pop k u)).slot j = if j = k then { u.slot k with v := false } else u.slot j :=
      pop_slot j k u
    by_cases hjk : j = k
    · subst hjk
      exact .inr ⟨rfl, rfl, hpop.trans (if_pos rfl)⟩
    · exact .inl (hpop.trans (if_neg hjk))

/-- From `s` to `t` no timer's reload or control changes: what a fold keeps (43_timer_cascade.md R193). -/
def TimersConfigured (s t : State) : Prop :=
  ∀ n, (t.timer n).reload = (s.timer n).reload ∧ (t.timer n).ctrl = (s.timer n).ctrl

theorem TimersConfigured.of_tmr {s t : State} (h : t.tmr = s.tmr) : TimersConfigured s t := fun n => by
  rw [State.timer, h]
  exact ⟨rfl, rfl⟩

theorem TimersConfigured.of_fold {s t : State} {p : Params} {x : U64} (h : t.tmr = syncBank p x s.tmr) :
    TimersConfigured s t := fun n => by
  rw [State.timer, h]
  exact ⟨syncBank_reload p x s.tmr n.val n.isLt, syncBank_ctrl p x s.tmr n.val n.isLt⟩

theorem TimersConfigured.trans {s t u : State} (h1 : TimersConfigured s t) (h2 : TimersConfigured t u) :
    TimersConfigured s u := fun n =>
  ⟨(h2 n).1.trans (h1 n).1, (h2 n).2.trans (h1 n).2⟩

/-- An internal callback at most folds the timers. -/
theorem callback_timersConfigured {s s1 : State} {k : Fin 16} (hcb : internalCallback k (pop k s) = some s1) :
    TimersConfigured s s1 := by
  rcases internalCallback_cases hcb with ⟨n, -, rfl⟩ | ⟨-, rfl⟩
  · exact .of_fold (timerOverflowEvent_frame n (pop k s)).tmr
  · exact .of_tmr rfl

theorem dispatch_timersConfigured {cw : U16} {s t : State} (hd : dispatch cw s = .next t) : TimersConfigured s t := by
  obtain ⟨m, u, hpops, hend⟩ := dispatch_next hd
  have hrounds : TimersConfigured s u :=
    hpops.keeps (P := TimersConfigured s) (fun _ _ _ hv _ _ hcb => hv.trans (callback_timersConfigured hcb))
      (.of_tmr rfl)
  exact hrounds.trans (.of_tmr hend.timers.1)

/-- `Dispatch` answers no value, leaves the stack alone, and names a callback's kind only on entering the callback. -/
theorem dispatch_result_active_cbKind {cw : U16} {s t : State} (hd : dispatch cw s = .next t) :
    t.result = s.result ∧ t.active = s.active ∧ (t.phase ≠ .callback → t.cbKind = s.cbKind) := by
  obtain ⟨m, u, hpops, hend⟩ := dispatch_next hd
  have hresult : u.result = s.result := hpops.frame.result
  have hactive : u.active = s.active := hpops.frame.active
  have hkind : u.cbKind = s.cbKind := hpops.frame.cbKind
  rcases hend with ⟨-, rfl⟩ | ⟨k, -, -, rfl⟩ | ⟨k, -, -, -, rfl⟩
  · rw [raiseFault_emptyQueue_eq]
    exact ⟨hresult, hactive, fun _ => hkind⟩
  · exact ⟨hresult, hactive, fun _ => hkind⟩
  · exact ⟨hresult, hactive, fun h => absurd rfl h⟩

/-! The commands that enter it (41_run_loop.md R146 to R148). -/

/-- The bits of the precise faults and the reserved bits of `FAULT_STATUS` rest (60_exceptions.md R271). -/
def PreciseBitsKept (s t : State) : Prop := t.faultStatus &&& 0xFF3F = s.faultStatus &&& 0xFF3F

theorem PreciseBitsKept.trans {s t u : State} (h1 : PreciseBitsKept s t) (h2 : PreciseBitsKept t u) :
    PreciseBitsKept s u :=
  Eq.trans h2 h1

/-- The faults of the Run Loop have none of these bits. -/
theorem Raises.preciseBitsKept {cw mask : U16} {s t : State} (h : Raises cw mask s t) (hm : RunLoopMask mask) :
    PreciseBitsKept s t := by
  rw [PreciseBitsKept, h.status, BitVec.and_or_distrib_right, hm]
  exact BitVec.or_zero

/-- What a command has done when it enters `Dispatch` in `u`: the queue, the timers, the sequencer and the stack are as they
were, `RESULT` is 0, and at most a fault of the Run Loop is recorded. -/
structure Entered (s u : State) : Prop extends Rests s u where
  result : u.result = 0
  active : u.active = s.active
  faults : PreciseBitsKept s u

theorem atEntry_entered (s : State) : Entered s (atEntry s) := ⟨atEntry_rests s, rfl, rfl, rfl⟩

theorem settleRun_result_active (cw : U16) (c : U64) (s : State) :
    (settleRun cw c s).result = s.result ∧ (settleRun cw c s).active = s.active := by
  by_cases hc : s.runElapsed ≤ c
  · rw [settleRun_charged hc]
    exact ⟨rfl, rfl⟩
  · rw [settleRun_underreport hc, raiseFault_eq (by decide)]
    exact ⟨rfl, rfl⟩

/-- `RUN_END` settles and commits first; an under-report is a fault of the Run Loop. -/
theorem runEndState_entered (c : U64) (s : State) : Entered s (runEndState c s) := by
  obtain ⟨hresult, hactive⟩ := settleRun_result_active (Instr.runEnd c).word c (atEntry s)
  obtain ⟨mask, hm, hraises, -⟩ := settleRun_raises (Instr.runEnd c).word c (atEntry s)
  exact ⟨(atEntry_rests s).trans (runEndState_rests c s), hresult, hactive, hraises.preciseBitsKept hm⟩

/-- Where its phase does not bar it, a command that enters `Dispatch` has done no more than that before. -/
theorem exec_entered {i : Instr} {s t : State} (hi : entersDispatch i) (hs : s.phase ∉ barredPhases i)
    (he : exec i s = .next t) : ∃ cw u, Entered s u ∧ dispatch cw u = .next t := by
  rcases hi with rfl | rfl | ⟨c, rfl⟩
  · exact ⟨_, _, atEntry_entered s, command_next_body hs he⟩
  · exact ⟨_, _, atEntry_entered s, command_next_body hs he⟩
  · rw [exec, execRunEnd] at he
    exact ⟨_, _, runEndState_entered c s, command_next_body hs he⟩

/-- A ledger changes only by the running driver's `CHARGE` and `RUN_END`, and only the running driver's. -/
theorem exec_ledgerOf_kept {i : Instr} {s t : State} (he : exec i s = .next t) {d : Driver} (hd : d ≠ s.runDrv) :
    t.ledgerOf d = s.ledgerOf d := by
  by_contra hne
  obtain ⟨-, hrun, -⟩ := (onlyTheRunningLedgerGrows i s t he d).2 hne
  exact hd hrun

/-- Of the commands that enter `Dispatch` only `RUN_END` charges a run. -/
theorem not_chargesRun_of_entersDispatch {i : Instr} (hi : entersDispatch i) (hend : ¬ ∃ c, i = .runEnd c)
    (s : State) : ¬ ChargesRun i s := by
  rintro ⟨-, ⟨d, n, rfl, -⟩ | hrun⟩
  · rcases hi with h | h | ⟨c, h⟩ <;> cases h
  · exact hend hrun

/-- Settles O25: the command enters `Dispatch` with all this as it was, and the rounds and the ends of `Dispatch` keep it. -/
theorem dispatchFrame : Obligations.DispatchFrame := by
  unfold Obligations.DispatchFrame
  intro i s t hi hs he
  obtain ⟨cw, u, hu, hd⟩ := exec_entered hi hs he
  obtain ⟨hresult, hactive, hkind⟩ := dispatch_result_active_cbKind hd
  obtain ⟨hparams, hinbox⟩ := exec_params_inbox he
  obtain ⟨mask, hm, hraises, -⟩ := dispatch_raises hd
  refine ⟨hresult.trans hu.result, hactive.trans hu.active, hparams, hinbox,
    (TimersConfigured.of_tmr hu.tmr).trans (dispatch_timersConfigured hd), fun d hne => exec_ledgerOf_kept he hne,
    fun hend => exec_ledger_kept he (not_chargesRun_of_entersDispatch hi hend s), fun k hk => ?_,
    fun ht => (hkind ht).trans hu.cbKind, fun ht => ?_, hu.faults.trans (hraises.preciseBitsKept hm)⟩
  · rw [← hu.slot k]
    exact dispatch_slot_external hd hk
  · have hrun := hu.sequencerKept.toRunKept.trans (dispatch_runKept hd ht)
    exact ⟨hrun.runDrv, hrun.runBase, hrun.runBudget⟩

end Sys2Proof.Machine

/-! The statement about the next overflow and a fold (43_timer_cascade.md R193, R194, R209). -/

namespace Sys2Proof.Machine

/-- Below the horizon saturation does not show: a time is before the next overflow as it is before the count of R194. -/
theorem lt_nextOverflowTime_iff {p : Params} {ts : TimerBank} {t : U64} {n : Fin 4} (ht : t < max64) :
    t < nextOverflowTime p ts n ↔ t.toNat < overflowFrom p ts n.val n.isLt (ticksLeft ts n) := by
  rw [BitVec.lt_def, max64_toNat] at ht
  rw [BitVec.lt_def, nextOverflowTime, sat64_toNat]
  omega

/-- Settles O35: the ticks of a fold are `foldTicks`, and they overflow the timer no time exactly before the next
overflow. -/
theorem nextOverflowAndFold : Obligations.NextOverflowAndFold := by
  unfold Obligations.NextOverflowAndFold
  intro p ts t n hb hc ht
  refine ⟨⟨_, foldCounts_foldTicks p t ts⟩, fun k hk => ?_, fun hlt => ?_, ?_⟩
  · rw [lt_nextOverflowTime_iff ht, ← no_overflow_iff hb hc, hk.eq_foldTicks n.val n.isLt]
    rfl
  · exact nextOverflowTime_fold_before hb hc ((lt_nextOverflowTime_iff ht).mp hlt)
  · exact (lt_nextOverflowTime_iff ht).mpr (lt_overflow_syncBank hc)

end Sys2Proof.Machine
